-- ==== Sys2Proof/Word.lean ====
section
/-!
DEFINITION. The word types of Snow64: bytes, addresses, the data field of a Data LAR, instruction words,
and the numbers that name the sixteen Data LARs.
-/

namespace Sys2Proof

/-- One byte; a byte address names one (20_memory.md R50). -/
abbrev Byte := BitVec 8

/-- An address or a value of `pc`: 64 bits (00_scope.md R6). -/
abbrev Word := BitVec 64

/-- The data field of a Data LAR, 32 bytes of a line (10_state.md R21, R22). Byte `j` of the line is bits
`8*j + 7` to `8*j`; this numbering is the model's and no instruction can observe it (91 N6). -/
abbrev Line := BitVec 256

/-- An instruction word: 32 bits, bit 31 the leftmost character of the spec's patterns (00_scope.md R8). -/
abbrev IWord := BitVec 32

/-- The number of a Data LAR: a 4-bit register field, no value reserved (30_encoding.md R86). -/
abbrev Reg := Fin 16

/-! The names of 10_state.md R31: number = position in the source's list. -/

abbrev dzero : Reg := 0
abbrev du0 : Reg := 1
abbrev du1 : Reg := 2
abbrev du2 : Reg := 3
abbrev du3 : Reg := 4
abbrev du4 : Reg := 5
abbrev du5 : Reg := 6
abbrev du6 : Reg := 7
abbrev du7 : Reg := 8
abbrev du8 : Reg := 9
abbrev du9 : Reg := 10
abbrev du10 : Reg := 11
abbrev du11 : Reg := 12
abbrev dlr : Reg := 13
abbrev dfp : Reg := 14
abbrev dsp : Reg := 15

end Sys2Proof
end

