-- ==== Sys2Proof/Config.lean ====
section
/-!
DEFINITION. What the spec leaves to the implementation: the open parameters of 00_scope.md R7 as plain data
(`Params`, held in State so that a statement about every state is about every value of them), and the values
nothing constrains as constants without a body (the bfloat16 numerics `cfg` of 40_alu.md R116 and the result of
an integer division by zero, 40_alu.md R128).
-/

namespace Sys2Proof

/-- `PCREL_BASE` (00_scope.md R7, 10_state.md R34): what an instruction that reads `pc` sees, its own address
(`own`, 0 bytes further) or the next instruction's (`following`, 4 bytes further). -/
inductive PcrelBase where
  | own
  | following
  deriving DecidableEq, Repr

/-- `ENDIAN` (00_scope.md R7, 20_memory.md R52): byte order inside a lane and inside an instruction word. -/
inductive Endian where
  | little
  | big
  deriving DecidableEq, Repr

/-- `MUL_WIDEN_SIGN` (00_scope.md R7, 40_alu.md R126): whose signedness widens the sources of a widening `muls`. -/
inductive MulWidenSign where
  | source
  | dest
  deriving DecidableEq, Repr

/-- A run of consecutive line numbers, both ends included. -/
structure LineRange where
  first : Nat
  last : Nat
  deriving DecidableEq, Repr

/-- The open parameters of 00_scope.md R7 that a run fixes once, and the switch `untaggedStops` for the stop that
10_state.md R39 advises. -/
structure Params where
  pcrelBase : PcrelBase
  endian : Endian
  mulWidenSign : MulWidenSign
  /-- `MEM_MAP`: the lines backed by memory (20_memory.md R65). -/
  memMap : List LineRange
  /-- on: using an untagged Data LAR is the model fault `UntaggedLarRead` of 10_state.md R39; off: it is used with
  the contents it holds (DESIGN CHOICE, notes/assumptions/5.md). -/
  untaggedStops : Bool
  deriving DecidableEq, Repr

/-- The defaults of 00_scope.md R7 for `PCREL_BASE`, `ENDIAN` and `MUL_WIDEN_SIGN`; every line backed
(DESIGN CHOICE, notes/assumptions/3.md) and no stop at an untagged Data LAR
(DESIGN CHOICE, notes/assumptions/5.md). -/
def Params.standard : Params where
  pcrelBase := .own
  endian := .little
  mulWidenSign := .source
  memMap := [⟨0, 2 ^ 59 - 1⟩]
  untaggedStops := false

/-! The numerics record `cfg` of 40_alu.md R116: total functions of which nothing is known. -/

/-- `cfg.bf16_add`. -/
opaque Config.bf16Add : BitVec 16 → BitVec 16 → BitVec 16
/-- `cfg.bf16_sub`. -/
opaque Config.bf16Sub : BitVec 16 → BitVec 16 → BitVec 16
/-- `cfg.bf16_mul`. -/
opaque Config.bf16Mul : BitVec 16 → BitVec 16 → BitVec 16
/-- `cfg.bf16_div`. -/
opaque Config.bf16Div : BitVec 16 → BitVec 16 → BitVec 16
/-- `cfg.bf16_lt`. -/
opaque Config.bf16Lt : BitVec 16 → BitVec 16 → Bool
/-- `cfg.bf16_truth`. -/
opaque Config.bf16Truth : Bool → BitVec 16
/-- `cfg.bf16_is_zero`. -/
opaque Config.bf16IsZero : BitVec 16 → Bool
/-- `cfg.bf16_of_int`. -/
opaque Config.bf16OfInt : Int → BitVec 16
/-- `cfg.int_of_bf16`: the lane, the width wanted, whether it is wanted signed. -/
opaque Config.intOfBf16 : BitVec 16 → (w : Nat) → Bool → BitVec w

/-- `DIV_ZERO` (00_scope.md R7, 40_alu.md R128): the free value of draw number `draw` for a division of `x` by zero
at width `w`; `signed` is the signedness of the destination. Nothing constrains it. -/
opaque Config.divZero (draw : Nat) (w : Nat) (signed : Bool) (x : Nat) : BitVec w

end Sys2Proof
end

