-- ==== Sys2Proof/Syntax.lean ====
section
/-!
DEFINITION. The 47 instructions of Snow64, one constructor per row of spec/opcode_table.json (30_encoding.md R88,
R89), with the operands each row uses. `addsPc` and `addvPc` are the rows of format ALU_PC, which share the
mnemonics `adds` and `addv` (90_conflicts.md C7).
-/

namespace Sys2Proof

/-- An instruction with its operands: Data LARs by number, immediates by their signed value (30_encoding.md R87).
A field an instruction does not use is no operand of it (30_encoding.md R91). Every other 32-bit word is an invalid
instruction, which has no constructor and executes as a NOP (30_encoding.md R90). -/
inductive Instr where
  /-- `adds dDest, dSrc0, dSrc1` (R120). -/
  | adds (dDest dSrc0 dSrc1 : Reg)
  /-- `addv dDest, dSrc0, dSrc1` (R121). -/
  | addv (dDest dSrc0 dSrc1 : Reg)
  /-- `subs dDest, dSrc0, dSrc1` (R122). -/
  | subs (dDest dSrc0 dSrc1 : Reg)
  /-- `subv dDest, dSrc0, dSrc1` (R123). -/
  | subv (dDest dSrc0 dSrc1 : Reg)
  /-- `slts dDest, dSrc0, dSrc1` (R124). -/
  | slts (dDest dSrc0 dSrc1 : Reg)
  /-- `sltv dDest, dSrc0, dSrc1` (R125). -/
  | sltv (dDest dSrc0 dSrc1 : Reg)
  /-- `muls dDest, dSrc0, dSrc1` (R126). -/
  | muls (dDest dSrc0 dSrc1 : Reg)
  /-- `mulv dDest, dSrc0, dSrc1` (R127). -/
  | mulv (dDest dSrc0 dSrc1 : Reg)
  /-- `divs dDest, dSrc0, dSrc1` (R128). -/
  | divs (dDest dSrc0 dSrc1 : Reg)
  /-- `divv dDest, dSrc0, dSrc1` (R129). -/
  | divv (dDest dSrc0 dSrc1 : Reg)
  /-- `ands dDest, dSrc0, dSrc1` (R130). -/
  | ands (dDest dSrc0 dSrc1 : Reg)
  /-- `andv dDest, dSrc0, dSrc1` (R131). -/
  | andv (dDest dSrc0 dSrc1 : Reg)
  /-- `orrs dDest, dSrc0, dSrc1` (R132). -/
  | orrs (dDest dSrc0 dSrc1 : Reg)
  /-- `orrv dDest, dSrc0, dSrc1` (R133). -/
  | orrv (dDest dSrc0 dSrc1 : Reg)
  /-- `xors dDest, dSrc0, dSrc1` (R134). -/
  | xors (dDest dSrc0 dSrc1 : Reg)
  /-- `xorv dDest, dSrc0, dSrc1` (R135). -/
  | xorv (dDest dSrc0 dSrc1 : Reg)
  /-- `shls dDest, dSrc0, dSrc1` (R136). -/
  | shls (dDest dSrc0 dSrc1 : Reg)
  /-- `shlv dDest, dSrc0, dSrc1` (R137). -/
  | shlv (dDest dSrc0 dSrc1 : Reg)
  /-- `shrs dDest, dSrc0, dSrc1` (R138). -/
  | shrs (dDest dSrc0 dSrc1 : Reg)
  /-- `shrv dDest, dSrc0, dSrc1` (R139). -/
  | shrv (dDest dSrc0 dSrc1 : Reg)
  /-- `invs dDest, dSrc0` (R140). -/
  | invs (dDest dSrc0 : Reg)
  /-- `invv dDest, dSrc0` (R141). -/
  | invv (dDest dSrc0 : Reg)
  /-- `nots dDest, dSrc0` (R142). -/
  | nots (dDest dSrc0 : Reg)
  /-- `notv dDest, dSrc0` (R143). -/
  | notv (dDest dSrc0 : Reg)
  /-- `adds dDest, pc, simm12` (R144). -/
  | addsPc (dDest : Reg) (simm12 : Int)
  /-- `addv dDest, pc, simm12` (R145). -/
  | addvPc (dDest : Reg) (simm12 : Int)
  /-- `btru dA, simm20` (R161). -/
  | btru (dA : Reg) (simm20 : Int)
  /-- `bfal dA, simm20` (R162). -/
  | bfal (dA : Reg) (simm20 : Int)
  /-- `jmp dA` (R163). -/
  | jmp (dA : Reg)
  /-- `ldu8 dA, dB, dC, simm12` (R174). -/
  | ldu8 (dA dB dC : Reg) (simm12 : Int)
  /-- `lds8 dA, dB, dC, simm12` (R175). -/
  | lds8 (dA dB dC : Reg) (simm12 : Int)
  /-- `ldu16 dA, dB, dC, simm12` (R176). -/
  | ldu16 (dA dB dC : Reg) (simm12 : Int)
  /-- `lds16 dA, dB, dC, simm12` (R177). -/
  | lds16 (dA dB dC : Reg) (simm12 : Int)
  /-- `ldu32 dA, dB, dC, simm12` (R178). -/
  | ldu32 (dA dB dC : Reg) (simm12 : Int)
  /-- `lds32 dA, dB, dC, simm12` (R179). -/
  | lds32 (dA dB dC : Reg) (simm12 : Int)
  /-- `ldu64 dA, dB, dC, simm12` (R180). -/
  | ldu64 (dA dB dC : Reg) (simm12 : Int)
  /-- `lds64 dA, dB, dC, simm12` (R181). -/
  | lds64 (dA dB dC : Reg) (simm12 : Int)
  /-- `ldf16 dA, dB, dC, simm12` (R182). -/
  | ldf16 (dA dB dC : Reg) (simm12 : Int)
  /-- `stu8 dA, dB, dC, simm12` (R191). -/
  | stu8 (dA dB dC : Reg) (simm12 : Int)
  /-- `sts8 dA, dB, dC, simm12` (R192). -/
  | sts8 (dA dB dC : Reg) (simm12 : Int)
  /-- `stu16 dA, dB, dC, simm12` (R193). -/
  | stu16 (dA dB dC : Reg) (simm12 : Int)
  /-- `sts16 dA, dB, dC, simm12` (R194). -/
  | sts16 (dA dB dC : Reg) (simm12 : Int)
  /-- `stu32 dA, dB, dC, simm12` (R195). -/
  | stu32 (dA dB dC : Reg) (simm12 : Int)
  /-- `sts32 dA, dB, dC, simm12` (R196). -/
  | sts32 (dA dB dC : Reg) (simm12 : Int)
  /-- `stu64 dA, dB, dC, simm12` (R197). -/
  | stu64 (dA dB dC : Reg) (simm12 : Int)
  /-- `sts64 dA, dB, dC, simm12` (R198). -/
  | sts64 (dA dB dC : Reg) (simm12 : Int)
  /-- `stf16 dA, dB, dC, simm12` (R199). -/
  | stf16 (dA dB dC : Reg) (simm12 : Int)
  deriving DecidableEq, Repr

end Sys2Proof
end

