-- ==== Sys2Proof/WellFormed.lean ====
section
/-!
DEFINITION. Which instruction terms stand for an encoding: register numbers are always in range (`Reg`), so the check
is that an immediate fits its field (30_encoding.md R87).
-/

namespace Sys2Proof

/-- `i` is a value of an `n`-bit signed immediate, `-2^(n-1)` to `2^(n-1) - 1` (30_encoding.md R87). -/
def fitsSigned (n : Nat) (i : Int) : Bool := decide (-2 ^ (n - 1) ≤ i) && decide (i < 2 ^ (n - 1))

/-- The instruction has an encoding: its immediate, if it has one, fits (30_encoding.md R87). -/
def Instr.wellFormed : Instr → Bool
  | .adds _ _ _ => true
  | .addv _ _ _ => true
  | .subs _ _ _ => true
  | .subv _ _ _ => true
  | .slts _ _ _ => true
  | .sltv _ _ _ => true
  | .muls _ _ _ => true
  | .mulv _ _ _ => true
  | .divs _ _ _ => true
  | .divv _ _ _ => true
  | .ands _ _ _ => true
  | .andv _ _ _ => true
  | .orrs _ _ _ => true
  | .orrv _ _ _ => true
  | .xors _ _ _ => true
  | .xorv _ _ _ => true
  | .shls _ _ _ => true
  | .shlv _ _ _ => true
  | .shrs _ _ _ => true
  | .shrv _ _ _ => true
  | .invs _ _ => true
  | .invv _ _ => true
  | .nots _ _ => true
  | .notv _ _ => true
  | .addsPc _ i => fitsSigned 12 i
  | .addvPc _ i => fitsSigned 12 i
  | .btru _ i => fitsSigned 20 i
  | .bfal _ i => fitsSigned 20 i
  | .jmp _ => true
  | .ldu8 _ _ _ i => fitsSigned 12 i
  | .lds8 _ _ _ i => fitsSigned 12 i
  | .ldu16 _ _ _ i => fitsSigned 12 i
  | .lds16 _ _ _ i => fitsSigned 12 i
  | .ldu32 _ _ _ i => fitsSigned 12 i
  | .lds32 _ _ _ i => fitsSigned 12 i
  | .ldu64 _ _ _ i => fitsSigned 12 i
  | .lds64 _ _ _ i => fitsSigned 12 i
  | .ldf16 _ _ _ i => fitsSigned 12 i
  | .stu8 _ _ _ i => fitsSigned 12 i
  | .sts8 _ _ _ i => fitsSigned 12 i
  | .stu16 _ _ _ i => fitsSigned 12 i
  | .sts16 _ _ _ i => fitsSigned 12 i
  | .stu32 _ _ _ i => fitsSigned 12 i
  | .sts32 _ _ _ i => fitsSigned 12 i
  | .stu64 _ _ _ i => fitsSigned 12 i
  | .sts64 _ _ _ i => fitsSigned 12 i
  | .stf16 _ _ _ i => fitsSigned 12 i

end Sys2Proof
end

