-- ==== Sys2Proof/Decode.lean ====
section
/-!
DEFINITION. Instruction words and instructions: the fields of a word (30_encoding.md R82 to R87), the decoder, total
on every word, which says by name why a word is invalid (R88 to R92), and after it the opcode table with its masks
(R93) and the encoder. How a word lies in memory is here too (20_memory.md R52, R54).
-/

namespace Sys2Proof

/-! The fields of a word. -/

/-- `a`, bits 27:24. -/
def fieldA (w : IWord) : Reg := (w.extractLsb' 24 4).toFin
/-- `b`, bits 23:20. -/
def fieldB (w : IWord) : Reg := (w.extractLsb' 20 4).toFin
/-- `c`, bits 19:16. -/
def fieldC (w : IWord) : Reg := (w.extractLsb' 16 4).toFin
/-- `o` of formats ALU, LD and ST, bits 15:12. -/
def opcode (w : IWord) : Nat := (w.extractLsb' 12 4).toNat
/-- `o` of format CTL, bits 23:20. -/
def ctlOpcode (w : IWord) : Nat := (w.extractLsb' 20 4).toNat
/-- The opcode group, bits 31:29 (30_encoding.md R81). -/
def group (w : IWord) : Nat := (w.extractLsb' 29 3).toNat
/-- Bit 28: `t` of format ALU, a fixed 0 of the other formats (30_encoding.md R92). -/
def bit28 (w : IWord) : Nat := (w.extractLsb' 28 1).toNat
/-- `simm12`, bits 11:0 read as signed (30_encoding.md R87). -/
def simm12 (w : IWord) : Int := (w.extractLsb' 0 12).toInt
/-- `simm20`, bits 19:0 read as signed (30_encoding.md R87). -/
def simm20 (w : IWord) : Int := (w.extractLsb' 0 20).toInt

/-- Why a word, or a run of bytes, is no instruction (30_encoding.md R90). -/
inductive Invalid where
  /-- groups 0b100 to 0b111 -/
  | undefinedGroup
  /-- bit 28 set in groups 0b001 to 0b011 (30_encoding.md R92) -/
  | bit28Set
  /-- group 0b000 with opcode 0xd to 0xf -/
  | aluOpcode
  /-- group 0b001 with opcode 0x3 to 0xf -/
  | ctlOpcode
  /-- group 0b010 with opcode 0x9 to 0xf -/
  | loadOpcode
  /-- group 0b011 with opcode 0x9 to 0xf -/
  | storeOpcode
  /-- fewer than the four bytes of an instruction (30_encoding.md R80); a fetch never answers it -/
  | truncated
  deriving DecidableEq, Repr

/-! The opcode map, group by group. -/

/-- Group 0b000 with `t` = 0 (30_encoding.md R88). -/
def decodeAluScalar (w : IWord) : Except Invalid Instr :=
  match opcode w with
  | 0x0 => .ok (.adds (fieldA w) (fieldB w) (fieldC w))
  | 0x1 => .ok (.subs (fieldA w) (fieldB w) (fieldC w))
  | 0x2 => .ok (.slts (fieldA w) (fieldB w) (fieldC w))
  | 0x3 => .ok (.muls (fieldA w) (fieldB w) (fieldC w))
  | 0x4 => .ok (.divs (fieldA w) (fieldB w) (fieldC w))
  | 0x5 => .ok (.ands (fieldA w) (fieldB w) (fieldC w))
  | 0x6 => .ok (.orrs (fieldA w) (fieldB w) (fieldC w))
  | 0x7 => .ok (.xors (fieldA w) (fieldB w) (fieldC w))
  | 0x8 => .ok (.shls (fieldA w) (fieldB w) (fieldC w))
  | 0x9 => .ok (.shrs (fieldA w) (fieldB w) (fieldC w))
  | 0xa => .ok (.invs (fieldA w) (fieldB w))
  | 0xb => .ok (.nots (fieldA w) (fieldB w))
  | 0xc => .ok (.addsPc (fieldA w) (simm12 w))
  | _ => .error .aluOpcode

/-- Group 0b000 with `t` = 1 (30_encoding.md R88). -/
def decodeAluVector (w : IWord) : Except Invalid Instr :=
  match opcode w with
  | 0x0 => .ok (.addv (fieldA w) (fieldB w) (fieldC w))
  | 0x1 => .ok (.subv (fieldA w) (fieldB w) (fieldC w))
  | 0x2 => .ok (.sltv (fieldA w) (fieldB w) (fieldC w))
  | 0x3 => .ok (.mulv (fieldA w) (fieldB w) (fieldC w))
  | 0x4 => .ok (.divv (fieldA w) (fieldB w) (fieldC w))
  | 0x5 => .ok (.andv (fieldA w) (fieldB w) (fieldC w))
  | 0x6 => .ok (.orrv (fieldA w) (fieldB w) (fieldC w))
  | 0x7 => .ok (.xorv (fieldA w) (fieldB w) (fieldC w))
  | 0x8 => .ok (.shlv (fieldA w) (fieldB w) (fieldC w))
  | 0x9 => .ok (.shrv (fieldA w) (fieldB w) (fieldC w))
  | 0xa => .ok (.invv (fieldA w) (fieldB w))
  | 0xb => .ok (.notv (fieldA w) (fieldB w))
  | 0xc => .ok (.addvPc (fieldA w) (simm12 w))
  | _ => .error .aluOpcode

/-- Group 0b001 (30_encoding.md R89). -/
def decodeCtl (w : IWord) : Except Invalid Instr :=
  match ctlOpcode w with
  | 0x0 => .ok (.btru (fieldA w) (simm20 w))
  | 0x1 => .ok (.bfal (fieldA w) (simm20 w))
  | 0x2 => .ok (.jmp (fieldA w))
  | _ => .error .ctlOpcode

/-- Group 0b010 (30_encoding.md R89). -/
def decodeLoad (w : IWord) : Except Invalid Instr :=
  match opcode w with
  | 0x0 => .ok (.ldu8 (fieldA w) (fieldB w) (fieldC w) (simm12 w))
  | 0x1 => .ok (.lds8 (fieldA w) (fieldB w) (fieldC w) (simm12 w))
  | 0x2 => .ok (.ldu16 (fieldA w) (fieldB w) (fieldC w) (simm12 w))
  | 0x3 => .ok (.lds16 (fieldA w) (fieldB w) (fieldC w) (simm12 w))
  | 0x4 => .ok (.ldu32 (fieldA w) (fieldB w) (fieldC w) (simm12 w))
  | 0x5 => .ok (.lds32 (fieldA w) (fieldB w) (fieldC w) (simm12 w))
  | 0x6 => .ok (.ldu64 (fieldA w) (fieldB w) (fieldC w) (simm12 w))
  | 0x7 => .ok (.lds64 (fieldA w) (fieldB w) (fieldC w) (simm12 w))
  | 0x8 => .ok (.ldf16 (fieldA w) (fieldB w) (fieldC w) (simm12 w))
  | _ => .error .loadOpcode

/-- Group 0b011 (30_encoding.md R89). -/
def decodeStore (w : IWord) : Except Invalid Instr :=
  match opcode w with
  | 0x0 => .ok (.stu8 (fieldA w) (fieldB w) (fieldC w) (simm12 w))
  | 0x1 => .ok (.sts8 (fieldA w) (fieldB w) (fieldC w) (simm12 w))
  | 0x2 => .ok (.stu16 (fieldA w) (fieldB w) (fieldC w) (simm12 w))
  | 0x3 => .ok (.sts16 (fieldA w) (fieldB w) (fieldC w) (simm12 w))
  | 0x4 => .ok (.stu32 (fieldA w) (fieldB w) (fieldC w) (simm12 w))
  | 0x5 => .ok (.sts32 (fieldA w) (fieldB w) (fieldC w) (simm12 w))
  | 0x6 => .ok (.stu64 (fieldA w) (fieldB w) (fieldC w) (simm12 w))
  | 0x7 => .ok (.sts64 (fieldA w) (fieldB w) (fieldC w) (simm12 w))
  | 0x8 => .ok (.stf16 (fieldA w) (fieldB w) (fieldC w) (simm12 w))
  | _ => .error .storeOpcode

/-- The instruction a word stands for, or why it is invalid (30_encoding.md R81, R88 to R92). -/
def decodeWord (w : IWord) : Except Invalid Instr :=
  match group w, bit28 w with
  | 0, 0 => decodeAluScalar w
  | 0, _ => decodeAluVector w
  | 1, 0 => decodeCtl w
  | 2, 0 => decodeLoad w
  | 3, 0 => decodeStore w
  | 1, _ => .error .bit28Set
  | 2, _ => .error .bit28Set
  | 3, _ => .error .bit28Set
  | _, _ => .error .undefinedGroup

/-! Words and bytes (20_memory.md R52, R54). -/

/-- The word whose four bytes, lowest address first, are `b0` to `b3` (20_memory.md R54). -/
def wordOfBytes (e : Endian) (b0 b1 b2 b3 : Byte) : IWord :=
  match e with
  | .little => b3 ++ b2 ++ b1 ++ b0
  | .big => b0 ++ b1 ++ b2 ++ b3

/-- Byte `j` of a word as it lies in memory, `j` = 0 at the lowest address (20_memory.md R52). -/
def wordByte (e : Endian) (w : IWord) (j : Nat) : Byte :=
  match e with
  | .little => w.extractLsb' (8 * j) 8
  | .big => w.extractLsb' (8 * (3 - j)) 8

/-- Reads one instruction off the front of a run of bytes, and answers what follows it (30_encoding.md R80: every
instruction is four bytes). -/
def decodeBytes (e : Endian) (bytes : List Byte) : Except Invalid (Instr × List Byte) :=
  match bytes with
  | b0 :: b1 :: b2 :: b3 :: rest =>
    match decodeWord (wordOfBytes e b0 b1 b2 b3) with
    | .ok i => .ok (i, rest)
    | .error r => .error r
  | _ => .error .truncated

/-- The instruction the decoder reads from `nbits` bits numbered as spec/opcode_table.json numbers them, laid out as
`ENDIAN` = little lays them out. -/
def decodeTableWord (nbits w : Nat) : Option Instr :=
  let word : IWord := BitVec.ofNat 32 (w % 2 ^ nbits)
  match decodeBytes .little [wordByte .little word 0, wordByte .little word 1, wordByte .little word 2,
      wordByte .little word 3] with
  | .ok (i, _) => some i
  | .error _ => none

/-! The encoder, by format (30_encoding.md R82 to R85); an unused field is written as 0 (R91). -/

/-- A register field. -/
def regBits (r : Reg) : BitVec 4 := BitVec.ofFin r

/-- Format ALU: `000t aaaa bbbb cccc oooo iiii iiii iiii` (30_encoding.md R82). -/
def aluWord (t : BitVec 1) (o : BitVec 4) (a b c : Reg) (i : Int) : IWord :=
  0b000#3 ++ t ++ regBits a ++ regBits b ++ regBits c ++ o ++ BitVec.ofInt 12 i

/-- Format CTL: `0010 aaaa oooo iiii iiii iiii iiii iiii` (30_encoding.md R83). -/
def ctlWord (o : BitVec 4) (a : Reg) (i : Int) : IWord :=
  0b0010#4 ++ regBits a ++ o ++ BitVec.ofInt 20 i

/-- Format LD: `0100 aaaa bbbb cccc oooo iiii iiii iiii` (30_encoding.md R84). -/
def loadWord (o : BitVec 4) (a b c : Reg) (i : Int) : IWord :=
  0b0100#4 ++ regBits a ++ regBits b ++ regBits c ++ o ++ BitVec.ofInt 12 i

/-- Format ST: `0110 aaaa bbbb cccc oooo iiii iiii iiii` (30_encoding.md R85). -/
def storeWord (o : BitVec 4) (a b c : Reg) (i : Int) : IWord :=
  0b0110#4 ++ regBits a ++ regBits b ++ regBits c ++ o ++ BitVec.ofInt 12 i

/-- The word of an instruction (30_encoding.md R82 to R91). -/
def encode : Instr → IWord
  | .adds a b c => aluWord 0 0x0 a b c 0
  | .addv a b c => aluWord 1 0x0 a b c 0
  | .subs a b c => aluWord 0 0x1 a b c 0
  | .subv a b c => aluWord 1 0x1 a b c 0
  | .slts a b c => aluWord 0 0x2 a b c 0
  | .sltv a b c => aluWord 1 0x2 a b c 0
  | .muls a b c => aluWord 0 0x3 a b c 0
  | .mulv a b c => aluWord 1 0x3 a b c 0
  | .divs a b c => aluWord 0 0x4 a b c 0
  | .divv a b c => aluWord 1 0x4 a b c 0
  | .ands a b c => aluWord 0 0x5 a b c 0
  | .andv a b c => aluWord 1 0x5 a b c 0
  | .orrs a b c => aluWord 0 0x6 a b c 0
  | .orrv a b c => aluWord 1 0x6 a b c 0
  | .xors a b c => aluWord 0 0x7 a b c 0
  | .xorv a b c => aluWord 1 0x7 a b c 0
  | .shls a b c => aluWord 0 0x8 a b c 0
  | .shlv a b c => aluWord 1 0x8 a b c 0
  | .shrs a b c => aluWord 0 0x9 a b c 0
  | .shrv a b c => aluWord 1 0x9 a b c 0
  | .invs a b => aluWord 0 0xa a b 0 0
  | .invv a b => aluWord 1 0xa a b 0 0
  | .nots a b => aluWord 0 0xb a b 0 0
  | .notv a b => aluWord 1 0xb a b 0 0
  | .addsPc a i => aluWord 0 0xc a 0 0 i
  | .addvPc a i => aluWord 1 0xc a 0 0 i
  | .btru a i => ctlWord 0x0 a i
  | .bfal a i => ctlWord 0x1 a i
  | .jmp a => ctlWord 0x2 a 0
  | .ldu8 a b c i => loadWord 0x0 a b c i
  | .lds8 a b c i => loadWord 0x1 a b c i
  | .ldu16 a b c i => loadWord 0x2 a b c i
  | .lds16 a b c i => loadWord 0x3 a b c i
  | .ldu32 a b c i => loadWord 0x4 a b c i
  | .lds32 a b c i => loadWord 0x5 a b c i
  | .ldu64 a b c i => loadWord 0x6 a b c i
  | .lds64 a b c i => loadWord 0x7 a b c i
  | .ldf16 a b c i => loadWord 0x8 a b c i
  | .stu8 a b c i => storeWord 0x0 a b c i
  | .sts8 a b c i => storeWord 0x1 a b c i
  | .stu16 a b c i => storeWord 0x2 a b c i
  | .sts16 a b c i => storeWord 0x3 a b c i
  | .stu32 a b c i => storeWord 0x4 a b c i
  | .sts32 a b c i => storeWord 0x5 a b c i
  | .stu64 a b c i => storeWord 0x6 a b c i
  | .sts64 a b c i => storeWord 0x7 a b c i
  | .stf16 a b c i => storeWord 0x8 a b c i

/-! The opcode table. -/

/-- A row of spec/opcode_table.json: a word `w` selects it when `w &&& mask = pattern` (30_encoding.md R93). -/
structure OpcodeRow where
  mnemonic : String
  mask : IWord
  pattern : IWord
  deriving DecidableEq, Repr

/-- The row of an instruction, with the mask and match of spec/opcode_table.json (30_encoding.md R93). -/
def Instr.row : Instr → OpcodeRow
  | .adds _ _ _ => ⟨"adds", 0xF000F000, 0x00000000⟩
  | .addv _ _ _ => ⟨"addv", 0xF000F000, 0x10000000⟩
  | .subs _ _ _ => ⟨"subs", 0xF000F000, 0x00001000⟩
  | .subv _ _ _ => ⟨"subv", 0xF000F000, 0x10001000⟩
  | .slts _ _ _ => ⟨"slts", 0xF000F000, 0x00002000⟩
  | .sltv _ _ _ => ⟨"sltv", 0xF000F000, 0x10002000⟩
  | .muls _ _ _ => ⟨"muls", 0xF000F000, 0x00003000⟩
  | .mulv _ _ _ => ⟨"mulv", 0xF000F000, 0x10003000⟩
  | .divs _ _ _ => ⟨"divs", 0xF000F000, 0x00004000⟩
  | .divv _ _ _ => ⟨"divv", 0xF000F000, 0x10004000⟩
  | .ands _ _ _ => ⟨"ands", 0xF000F000, 0x00005000⟩
  | .andv _ _ _ => ⟨"andv", 0xF000F000, 0x10005000⟩
  | .orrs _ _ _ => ⟨"orrs", 0xF000F000, 0x00006000⟩
  | .orrv _ _ _ => ⟨"orrv", 0xF000F000, 0x10006000⟩
  | .xors _ _ _ => ⟨"xors", 0xF000F000, 0x00007000⟩
  | .xorv _ _ _ => ⟨"xorv", 0xF000F000, 0x10007000⟩
  | .shls _ _ _ => ⟨"shls", 0xF000F000, 0x00008000⟩
  | .shlv _ _ _ => ⟨"shlv", 0xF000F000, 0x10008000⟩
  | .shrs _ _ _ => ⟨"shrs", 0xF000F000, 0x00009000⟩
  | .shrv _ _ _ => ⟨"shrv", 0xF000F000, 0x10009000⟩
  | .invs _ _ => ⟨"invs", 0xF000F000, 0x0000A000⟩
  | .invv _ _ => ⟨"invv", 0xF000F000, 0x1000A000⟩
  | .nots _ _ => ⟨"nots", 0xF000F000, 0x0000B000⟩
  | .notv _ _ => ⟨"notv", 0xF000F000, 0x1000B000⟩
  | .addsPc _ _ => ⟨"adds", 0xF000F000, 0x0000C000⟩
  | .addvPc _ _ => ⟨"addv", 0xF000F000, 0x1000C000⟩
  | .btru _ _ => ⟨"btru", 0xF0F00000, 0x20000000⟩
  | .bfal _ _ => ⟨"bfal", 0xF0F00000, 0x20100000⟩
  | .jmp _ => ⟨"jmp", 0xF0F00000, 0x20200000⟩
  | .ldu8 _ _ _ _ => ⟨"ldu8", 0xF000F000, 0x40000000⟩
  | .lds8 _ _ _ _ => ⟨"lds8", 0xF000F000, 0x40001000⟩
  | .ldu16 _ _ _ _ => ⟨"ldu16", 0xF000F000, 0x40002000⟩
  | .lds16 _ _ _ _ => ⟨"lds16", 0xF000F000, 0x40003000⟩
  | .ldu32 _ _ _ _ => ⟨"ldu32", 0xF000F000, 0x40004000⟩
  | .lds32 _ _ _ _ => ⟨"lds32", 0xF000F000, 0x40005000⟩
  | .ldu64 _ _ _ _ => ⟨"ldu64", 0xF000F000, 0x40006000⟩
  | .lds64 _ _ _ _ => ⟨"lds64", 0xF000F000, 0x40007000⟩
  | .ldf16 _ _ _ _ => ⟨"ldf16", 0xF000F000, 0x40008000⟩
  | .stu8 _ _ _ _ => ⟨"stu8", 0xF000F000, 0x60000000⟩
  | .sts8 _ _ _ _ => ⟨"sts8", 0xF000F000, 0x60001000⟩
  | .stu16 _ _ _ _ => ⟨"stu16", 0xF000F000, 0x60002000⟩
  | .sts16 _ _ _ _ => ⟨"sts16", 0xF000F000, 0x60003000⟩
  | .stu32 _ _ _ _ => ⟨"stu32", 0xF000F000, 0x60004000⟩
  | .sts32 _ _ _ _ => ⟨"sts32", 0xF000F000, 0x60005000⟩
  | .stu64 _ _ _ _ => ⟨"stu64", 0xF000F000, 0x60006000⟩
  | .sts64 _ _ _ _ => ⟨"sts64", 0xF000F000, 0x60007000⟩
  | .stf16 _ _ _ _ => ⟨"stf16", 0xF000F000, 0x60008000⟩

/-- The rows of format ALU with `t` = 0. -/
def scalarRows : List OpcodeRow :=
  [(Instr.adds 0 0 0).row,
   (Instr.subs 0 0 0).row,
   (Instr.slts 0 0 0).row,
   (Instr.muls 0 0 0).row,
   (Instr.divs 0 0 0).row,
   (Instr.ands 0 0 0).row,
   (Instr.orrs 0 0 0).row,
   (Instr.xors 0 0 0).row,
   (Instr.shls 0 0 0).row,
   (Instr.shrs 0 0 0).row,
   (Instr.invs 0 0).row,
   (Instr.nots 0 0).row]

/-- The rows of format ALU with `t` = 1. -/
def vectorRows : List OpcodeRow :=
  [(Instr.addv 0 0 0).row,
   (Instr.subv 0 0 0).row,
   (Instr.sltv 0 0 0).row,
   (Instr.mulv 0 0 0).row,
   (Instr.divv 0 0 0).row,
   (Instr.andv 0 0 0).row,
   (Instr.orrv 0 0 0).row,
   (Instr.xorv 0 0 0).row,
   (Instr.shlv 0 0 0).row,
   (Instr.shrv 0 0 0).row,
   (Instr.invv 0 0).row,
   (Instr.notv 0 0).row]

/-- The rows of formats ALU_PC and CTL. -/
def pcRows : List OpcodeRow :=
  [(Instr.addsPc 0 0).row,
   (Instr.addvPc 0 0).row] ++
  [(Instr.btru 0 0).row,
   (Instr.bfal 0 0).row,
   (Instr.jmp 0).row]

/-- The rows of format LD. -/
def loadRows : List OpcodeRow :=
  [(Instr.ldu8 0 0 0 0).row,
   (Instr.lds8 0 0 0 0).row,
   (Instr.ldu16 0 0 0 0).row,
   (Instr.lds16 0 0 0 0).row,
   (Instr.ldu32 0 0 0 0).row,
   (Instr.lds32 0 0 0 0).row,
   (Instr.ldu64 0 0 0 0).row,
   (Instr.lds64 0 0 0 0).row,
   (Instr.ldf16 0 0 0 0).row]

/-- The rows of format ST. -/
def storeRows : List OpcodeRow :=
  [(Instr.stu8 0 0 0 0).row,
   (Instr.sts8 0 0 0 0).row,
   (Instr.stu16 0 0 0 0).row,
   (Instr.sts16 0 0 0 0).row,
   (Instr.stu32 0 0 0 0).row,
   (Instr.sts32 0 0 0 0).row,
   (Instr.stu64 0 0 0 0).row,
   (Instr.sts64 0 0 0 0).row,
   (Instr.stf16 0 0 0 0).row]

/-- The 47 rows of spec/opcode_table.json. -/
def opcodeTable : List OpcodeRow := scalarRows ++ vectorRows ++ pcRows ++ loadRows ++ storeRows

end Sys2Proof
end

