-- ==== Sys2Proof/Machine/State.lean ====
section
/-!
DEFINITION. The state of a Snow64 core (10_state.md R20, R21, R39, R41; 20_memory.md R50), the reasons a step can
stop (60_exceptions.md R222), and the state after reset (10_state.md R41, 70_reset_and_hazards.md R230).
-/

namespace Sys2Proof.Machine

/-- The lane width of an integer type (10_state.md R25). -/
inductive IntSize where
  | b8
  | b16
  | b32
  | b64
  deriving DecidableEq, Repr

/-- The type a Data LAR's lanes are read under, `(is_float_16, W, signed)` of 10_state.md R29: one of the nine
u8 s8 u16 s16 u32 s32 u64 s64 f16. -/
inductive LaneType where
  | int (size : IntSize) (signed : Bool)
  | f16
  deriving DecidableEq, Repr

/-- One Data LAR: the six fields of 10_state.md R21 under their names there, and the spec's own model-only bit
`tagged` (10_state.md R39). -/
structure DataLar where
  /-- `data`, 256 bits (R22). -/
  data : Line
  /-- `addr`, the byte address the data belongs to (R24). -/
  addr : Word
  /-- `type_of_int` (R25). -/
  typeOfInt : BitVec 2
  /-- `is_float_16` (R26). -/
  isFloat16 : Bool
  /-- `unsgn_or_sgn`: true is 1'b1, signed (R27). -/
  unsgnOrSgn : Bool
  /-- `dirty`: the data must still be stored to memory (R28). -/
  dirty : Bool
  /-- `tagged`: has been the `dA` of a load or store since reset (R39). -/
  tagged : Bool
  deriving DecidableEq, Repr

/-- The record whose every field is 0: what dzero always is (10_state.md R32), and what a Data LAR holds after reset,
where the spec gives no value (DESIGN CHOICE, notes/assumptions/4.md). -/
def DataLar.zero : DataLar where
  data := 0
  addr := 0
  typeOfInt := 0
  isFloat16 := false
  unsgnOrSgn := false
  dirty := false
  tagged := false

/-- Memory: address and byte pairs, addresses strictly rising, no entry equal to what an unlisted address reads as
(`Memory.wf` in Machine/Ops.lean says so). -/
abbrev Memory := List Host.Cell

/-- The state of the machine. -/
structure State where
  /-- The Data LARs; `State.dlar` reads them. Slot 0 is never read: dzero is constant (10_state.md R32). -/
  dlars : Vector DataLar 16
  /-- `pc`: the address of the instruction being executed (10_state.md R34). -/
  pc : Word
  /-- Raw memory, which instruction fetch reads and write-back writes (20_memory.md R50, R54, R61). -/
  mem : Memory
  /-- The open parameters of 00_scope.md R7; no step changes them. -/
  params : Params
  /-- How many results of a division by zero have been drawn (40_alu.md R128); the model's own. -/
  draws : Nat
  /-- The internal write-back steps of 20_memory.md R62 still to fire: the lines to write back before the next
  instruction, before the one after it, and so on; no more of them after the list's end. The model's own. -/
  schedule : List (List Nat)
  deriving DecidableEq, Repr

/-- The model's own stops (60_exceptions.md R222); none is a trap of the chip (R210). -/
inductive Fault where
  /-- Raised by the fetch when `pc` is not a multiple of 4 (10_state.md R35); safe: the spec gives the chip no
  behaviour there. -/
  | misalignedPc
  /-- Raised by a fetch, a load's line read or a forced write-back of line `line` outside `MEM_MAP`; the spec's
  "stuck" (20_memory.md R72); safe: the model stops where the chip's behaviour is not given. -/
  | unbackedLine (line : Nat)
  /-- Raised by the fetch when a Data LAR holds the line of `pc` dirty (20_memory.md R70); safe: the spec calls the
  result unpredictable. -/
  | fetchFromDirtyLine
  /-- Raised, only where `params.untaggedStops` is on, by an instruction that uses the Data LAR `reg`, to which no load or
  store has yet given an address and a type (10_state.md R39, 60_exceptions.md R222); safe: the spec gives no defined
  result. -/
  | untaggedLarRead (reg : Reg)
  /-- Raised by a vector instruction whose Data LARs have different lane counts (40_alu.md R114); safe: the spec
  gives no way to tell which lane feeds which. -/
  | vectorLaneCountMismatch
  deriving DecidableEq, Repr

/-- The reasons the model has no meaning for an instruction. -/
inductive Refusal where
  /-- The instruction has no meaning yet; raised by no arm, since every instruction of the table has its meaning;
  safe. -/
  | notModelled (mnemonic : String)
  deriving DecidableEq, Repr

/-- What a step or an instruction answers. -/
abbrev Outcome := Host.Outcome State Fault Refusal

/-- The state after reset for a launch: the open parameters, `RESET_PC`, and what the host has put into memory
(10_state.md R41, 70_reset_and_hazards.md R230, R236). -/
def State.launch (params : Params) (resetPc : Word) (mem : Memory) : State where
  dlars := Vector.replicate 16 DataLar.zero
  pc := resetPc
  mem := mem
  params := params
  draws := 0
  schedule := []

/-- The state after reset with nothing placed in memory. `RESET_PC` is the 0x1000 of 95_test_vectors.md (DESIGN
CHOICE, notes/assumptions/2.md). -/
def State.reset : State := State.launch Params.standard 0x1000 []

end Sys2Proof.Machine
end

