-- ==== Sys2Proof/Machine/Ops.lean ====
section
/-!
DEFINITION. The named operations over bytes, lines, memory and the Data LARs that the meanings share: byte order and
lanes (20_memory.md R52, R53), memory (R11, R50), the Data LAR file (10_state.md R29 to R32), holders (R58), writing
data (R60), write-back (R61, R62), the view (R63), the program counter (10_state.md R34, R35) and the fetch (R54).

There is no operation that takes an exception and none that returns from one: Snow64 has neither
(60_exceptions.md R210 to R215).
-/

namespace Sys2Proof.Machine

/-! ## Bytes of a number, lanes of a line -/

/-- The number whose `n` bytes, least significant first, are `g 0` to `g (n - 1)`. -/
def gather (g : Nat → Byte) : Nat → Nat
  | 0 => 0
  | n + 1 => gather g n + (g n).toNat * 256 ^ n

/-- Byte `j` of a number, byte 0 the least significant. -/
def byteOf (x j : Nat) : Byte := BitVec.ofNat 8 (x / 256 ^ j)

/-- Which byte of a `w`-byte number, counted from the least significant, lies at offset `j` from its lowest address;
and the other way round (20_memory.md R52). -/
def bytePos (e : Endian) (w j : Nat) : Nat :=
  match e with
  | .little => j
  | .big => w - 1 - j

/-- `data.byte[j]`, the byte of the line at line offset `j` (20_memory.md R53). -/
def lineByte (v : Line) (j : Nat) : Byte := byteOf v.toNat j

/-- The data field whose byte `j` is `g j`. -/
def lineOfBytes (g : Nat → Byte) : Line := BitVec.ofNat 256 (gather g 32)

/-- `lane(i,k)` for lanes of `w` bytes: the `8*w`-bit pattern, as its unsigned value, of bytes `k*w` to `k*w + w - 1`
(20_memory.md R53). -/
def laneOf (e : Endian) (w : Nat) (v : Line) (k : Nat) : Nat :=
  gather (fun j => lineByte v (k * w + bytePos e w j)) w

/-- The byte at offset `j` of the `w`-byte pattern `r` as it lies in a line (20_memory.md R53). -/
def patternByte (e : Endian) (w r j : Nat) : Byte := byteOf r (bytePos e w j)

/-- `v` with lane `k` replaced by `r` (40_alu.md R113). -/
def setLane (e : Endian) (w : Nat) (v : Line) (k r : Nat) : Line :=
  lineOfBytes fun j => if j / w = k then patternByte e w r (j % w) else lineByte v j

/-- The data field whose lane `k` is `r k` (40_alu.md R114). -/
def lineOfLanes (e : Endian) (w : Nat) (r : Nat → Nat) : Line :=
  lineOfBytes fun j => patternByte e w (r (j / w)) (j % w)

/-! ## Memory -/

/-- What a byte reads as that nothing has written (DESIGN CHOICE, notes/assumptions/7.md). -/
def Memory.unlisted : Byte := 0

/-- `MemRead(a, 1)` (00_scope.md R11). -/
def Memory.read : Memory → Nat → Byte
  | [], _ => Memory.unlisted
  | (k, b) :: rest, a => if k = a then b else Memory.read rest a

/-- The entries for the `n` bytes `g 0`, `g 1`, ... from address `a`. -/
def Memory.cells (a : Nat) (g : Nat → Byte) : Nat → List Host.Cell
  | 0 => []
  | n + 1 => Memory.cells a g n ++ if g n = Memory.unlisted then [] else [(a + n, g n)]

/-- `MemWrite(a, n, bytes)` with byte `j` of `bytes` being `g j` (00_scope.md R11). -/
def Memory.write (m : Memory) (a n : Nat) (g : Nat → Byte) : Memory :=
  m.filter (fun c => decide (c.1 < a)) ++ Memory.cells a g n ++ m.filter (fun c => decide (a + n ≤ c.1))

/-- The canonical form: addresses of the 64-bit space, strictly rising, and no entry equal to what an unlisted address
reads as. -/
def Memory.wf (m : Memory) : Bool :=
  decide (m.Pairwise fun c d => c.1 < d.1) && m.all fun c => decide (c.1 < 2 ^ 64) && c.2 != Memory.unlisted

/-- `MemRead(32*L, 32)` as a data field (20_memory.md R57). -/
def Memory.readLine (m : Memory) (L : Nat) : Line := lineOfBytes fun j => m.read (32 * L + j)

/-- `MemWrite(32*L, 32, v.byte[0..31])` (20_memory.md R57). -/
def Memory.writeLine (m : Memory) (L : Nat) (v : Line) : Memory := m.write (32 * L) 32 (lineByte v)

/-- Line `L` is in `MEM_MAP` (20_memory.md R65). -/
def State.backed (s : State) (L : Nat) : Bool :=
  s.params.memMap.any fun r => decide (r.first ≤ L) && decide (L ≤ r.last)

/-! ## The Data LARs -/

/-- The line number of an address, its bits 63:5 (20_memory.md R51). -/
def lineNumber (a : Word) : Nat := a.toNat / 32

/-- Lane width in bytes, `wb` (10_state.md R29). -/
def LaneType.bytes : LaneType → Nat
  | .int .b8 _ => 1
  | .int .b16 _ => 2
  | .int .b32 _ => 4
  | .int .b64 _ => 8
  | .f16 => 2

/-- Lane width in bits, `W` (10_state.md R29). -/
def LaneType.width (t : LaneType) : Nat := 8 * t.bytes

/-- How many lanes a data field has, `N` (10_state.md R29). -/
def LaneType.lanes (t : LaneType) : Nat := 32 / t.bytes

/-- The lane width that `type_of_int` names (10_state.md R25). -/
def intSize (typeOfInt : BitVec 2) : IntSize :=
  match typeOfInt.toNat with
  | 0 => .b8
  | 1 => .b16
  | 2 => .b32
  | _ => .b64

/-- `type_of_int` for a lane width (10_state.md R25). -/
def IntSize.code : IntSize → BitVec 2
  | .b8 => 0b00
  | .b16 => 0b01
  | .b32 => 0b10
  | .b64 => 0b11

/-- `Type(i)` of a record (10_state.md R29). -/
def DataLar.type (d : DataLar) : LaneType :=
  if d.isFloat16 then .f16 else .int (intSize d.typeOfInt) d.unsgnOrSgn

/-- The record with the three tag fields a load or store of type `t` writes (42_load.md R173). -/
def DataLar.retype (d : DataLar) (t : LaneType) : DataLar :=
  match t with
  | .int size signed => { d with isFloat16 := false, typeOfInt := size.code, unsgnOrSgn := signed }
  | .f16 => { d with isFloat16 := true, typeOfInt := 0b01, unsgnOrSgn := true }

/-- `base(i)`, the line number (10_state.md R29). -/
def DataLar.base (d : DataLar) : Nat := lineNumber d.addr

/-- `idx(i)`, the lane index `addr[4 : log2(wb)]` (10_state.md R29). -/
def DataLar.idx (d : DataLar) : Nat := d.addr.toNat % 32 / d.type.bytes

/-- The record of Data LAR `i`; dzero is the constant zero record (10_state.md R32). -/
def State.dlar (s : State) (i : Reg) : DataLar := if i = 0 then DataLar.zero else s.dlars[i]

/-- The state with record `f i` in every Data LAR `i` but dzero (10_state.md R32). -/
def State.withDlars (s : State) (f : Reg → DataLar) : State :=
  { s with dlars := Vector.ofFn fun i : Reg => if i = 0 then DataLar.zero else f i }

/-- The state with record `d` in Data LAR `a`; nothing happens when `a` is dzero (10_state.md R32). -/
def State.setDlar (s : State) (a : Reg) (d : DataLar) : State :=
  s.withDlars fun i => if i = a then d else s.dlar i

/-- Data LAR `i` holds line `L`: it is tagged and its address lies in the line; dzero never does
(20_memory.md R58). -/
def State.holds (s : State) (L : Nat) (i : Reg) : Bool := (s.dlar i).tagged && (s.dlar i).base == L

/-- The holder of line `L` whose data stands for all of them: the lowest numbered (20_memory.md R58, R59: they are
all equal; DESIGN CHOICE where a state says otherwise, notes/assumptions/17.md). -/
def State.holder (s : State) (L : Nat) : Option Reg := (List.finRange 16).find? (s.holds L)

/-- A dirty holder of line `L`. -/
def State.dirtyHolder (s : State) (L : Nat) : Option Reg :=
  (List.finRange 16).find? fun i => s.holds L i && (s.dlar i).dirty

/-- `ViewLine(L)`: what a program reads for line `L` (20_memory.md R63). -/
def State.viewLine (s : State) (L : Nat) : Line :=
  match s.holder L with
  | some h => (s.dlar h).data
  | none => s.mem.readLine L

/-- Data LAR `i` takes part in a write through `a`: it is `a`, or `a` is tagged and `i` holds the same line
(20_memory.md R60). -/
def State.aliases (s : State) (a i : Reg) : Bool :=
  i == a || ((s.dlar a).tagged && s.holds (s.dlar a).base i)

/-- `SetData(a, v)` (20_memory.md R60). An untagged `a`, which `params.untaggedStops` = off lets through, keeps the
data to itself (DESIGN CHOICE, notes/assumptions/6.md). -/
def State.setData (s : State) (a : Reg) (v : Line) : State :=
  if a = 0 then s
  else s.withDlars fun i =>
    if s.aliases a i then { s.dlar i with data := v, dirty := true } else s.dlar i

/-- The state with memory `m`. -/
def State.setMem (s : State) (m : Memory) : State := { s with mem := m }

/-- Data field `v` is written to line `L` of memory, and every holder of the line is now clean
(20_memory.md R61). -/
def State.writeBack (s : State) (L : Nat) (v : Line) : State :=
  (s.withDlars fun i => if s.holds L i then { s.dlar i with dirty := false } else s.dlar i).setMem
    (s.mem.writeLine L v)

/-- `Release(a)`: the write-back of `a`'s line, if it is dirty, before `a` gets another line (20_memory.md R61); stuck
when the line is not backed (R72). -/
def State.release (s : State) (a : Reg) : Except Fault State :=
  let d := s.dlar a
  if d.tagged && d.dirty then
    if s.backed d.base then .ok (s.writeBack d.base d.data) else .error (.unbackedLine d.base)
  else .ok s

/-- The internal write-back step for line `L`: it fires where the line has a dirty holder and is backed
(20_memory.md R62; a line that is not backed: DEDUCED, notes/assumptions/11.md). -/
def State.earlyWriteBack (s : State) (L : Nat) : State :=
  match s.dirtyHolder L with
  | some h => if s.backed L then s.writeBack L (s.dlar h).data else s
  | none => s

/-- What happens between two instructions: the internal write-back steps that `schedule` has next
(20_memory.md R62). -/
def State.betweenInstructions (s : State) : State :=
  match s.schedule with
  | [] => s
  | lines :: rest => lines.foldl State.earlyWriteBack { s with schedule := rest }

/-- Every dirty line written back, as a harness must before it reads raw memory (70_reset_and_hazards.md R235). -/
def State.flush (s : State) : State :=
  (List.finRange 16).foldl (fun t i => t.earlyWriteBack (s.dlar i).base) s

/-! ## The program counter and the fetch -/

/-- `PCREL_BASE` (10_state.md R34). -/
def pcrelOffset : PcrelBase → Word
  | .own => 0
  | .following => 4

/-- `PCV`, the value an instruction reads as `pc` (10_state.md R34). -/
def State.pcv (s : State) : Word := s.pc + pcrelOffset s.params.pcrelBase

/-- `pc <- v`. -/
def State.setPc (s : State) (v : Word) : State := { s with pc := v }

/-- `pc <- (pc + 4) mod 2^64` (10_state.md R35). -/
def State.advance (s : State) : State := s.setPc (s.pc + 4)

/-- The four bytes at `pc` as an instruction word, read from raw memory (20_memory.md R54). -/
def State.wordAtPc (s : State) : IWord :=
  let a := s.pc.toNat
  wordOfBytes s.params.endian (s.mem.read a) (s.mem.read (a + 1)) (s.mem.read (a + 2)) (s.mem.read (a + 3))

/-- The instruction fetch, with its stops in the order of 60_exceptions.md R213 (1) to (3): `pc` misaligned
(10_state.md R35), its line not backed (20_memory.md R72), its line held dirty (R70). -/
def State.fetch (s : State) : Except Fault IWord :=
  if s.pc.toNat % 4 ≠ 0 then .error .misalignedPc
  else if s.backed (lineNumber s.pc) = false then .error (.unbackedLine (lineNumber s.pc))
  else if (s.dirtyHolder (lineNumber s.pc)).isSome then .error .fetchFromDirtyLine
  else .ok s.wordAtPc

/-- `s` with the word `w` in memory at `pc`, in the byte order of the machine (20_memory.md R54). -/
def State.placeWord (s : State) (w : IWord) : State :=
  s.setMem (s.mem.write s.pc.toNat 4 (wordByte s.params.endian w))

end Sys2Proof.Machine
end

