-- ==== Sys2Proof/Machine/Operands.lean ====
section
/-!
DEFINITION. Operands: which Data LARs an instruction may read (10_state.md R39), the lane they give (R29, R30), the
cast to the destination's type (40_alu.md R111, R115), the extension to 64 bits and the effective address
(42_load.md R170, R171). A lane pattern is carried as its unsigned value.
-/

namespace Sys2Proof.Machine

/-! ## Numbers (00_scope.md R9) -/

/-- `trunc_N(x)`: the integer reduced modulo `2^n`. -/
def trunc (n : Nat) (x : Int) : Nat := (x % (2 ^ n : Nat)).toNat

/-- `sval_N(p)`: the two's-complement value of an `n`-bit pattern. -/
def sval (n : Nat) (p : Nat) : Int := if p < 2 ^ (n - 1) then p else (p : Int) - (2 ^ n : Nat)

/-! ## Reading Data LARs -/

/-- The stop `UntaggedLarRead` for the first untagged Data LAR among the operands, in the order given, where
`params.untaggedStops` is on (10_state.md R39, 60_exceptions.md R213 (5)). -/
def State.untaggedOperand (s : State) (operands : List Reg) : Option Reg :=
  if s.params.untaggedStops then operands.find? fun i => i != 0 && !(s.dlar i).tagged else none

/-- `o`, unless an untagged Data LAR among the operands stops the instruction first (10_state.md R39). Every instruction
that uses a Data LAR answers through this. -/
def State.checked (s : State) (operands : List Reg) (o : Outcome) : Outcome :=
  match s.untaggedOperand operands with
  | some i => .fault (.untaggedLarRead i)
  | none => o

/-- `Type(i)` (10_state.md R29). -/
def State.type (s : State) (i : Reg) : LaneType := (s.dlar i).type

/-- `lane(i,k)` (10_state.md R29). -/
def State.lane (s : State) (i : Reg) (k : Nat) : Nat :=
  laneOf s.params.endian (s.type i).bytes (s.dlar i).data k

/-- `sdata(i)` (10_state.md R30). -/
def State.sdata (s : State) (i : Reg) : Nat := s.lane i (s.dlar i).idx

/-! ## The BFloat16 format (10_state.md R23)

An f16 lane holds such a pattern. What arithmetic does with it is `cfg`'s (40_alu.md R116), so no step reads these
fields. -/

/-- `sign`, bit 15: 1 means negative. -/
def bf16Sign (v : BitVec 16) : Bool := v.extractLsb' 15 1 == 1

/-- `exp`, bits 14:7. -/
def bf16Exp (v : BitVec 16) : BitVec 8 := v.extractLsb' 7 8

/-- `mant`, bits 6:0. -/
def bf16Mant (v : BitVec 16) : BitVec 7 := v.extractLsb' 0 7

/-- The pattern with the given fields, `sign` the most significant. -/
def bf16Pack (sign : Bool) (exp : BitVec 8) (mant : BitVec 7) : BitVec 16 := BitVec.ofBool sign ++ exp ++ mant

/-- The exponent bias, that of the 32-bit IEEE format (G3; PRESUMED, notes/assumptions/31.md). -/
def bf16Bias : Nat := 127

/-- The value of a normalized number; none where `exp` is 0 or 255, of which the source says nothing (91 N14). -/
def bf16Value (v : BitVec 16) : Option ℚ :=
  if bf16Exp v = 0 ∨ bf16Exp v = 255 then none
  else some ((if bf16Sign v then -1 else 1) * 2 ^ ((bf16Exp v).toNat - bf16Bias : ℤ) *
    (1 + ((bf16Mant v).toNat : ℚ) / 128))

/-! ## Casts -/

/-- `value(Ts, v)` of an integer type; for f16 the raw bits, which nothing uses (40_alu.md R111). -/
def LaneType.value (t : LaneType) (v : Nat) : Int :=
  match t with
  | .int _ true => sval t.width v
  | _ => v

/-- `cast(Td, Ts, v)` (40_alu.md R111). -/
def cast (td ts : LaneType) (v : Nat) : Nat :=
  match td, ts with
  | .int _ _, .int _ _ => trunc td.width (ts.value v)
  | .f16, .f16 => v
  | .f16, .int _ _ => (Config.bf16OfInt (ts.value v)).toNat
  | .int _ signed, .f16 => (Config.intOfBf16 (BitVec.ofNat 16 v) td.width signed).toNat

/-- `OpType` of the six bitwise operations: an f16 operand is read as s16 (40_alu.md R115). -/
def LaneType.asBits : LaneType → LaneType
  | .f16 => .int .b16 true
  | t => t

/-- The type with signedness 0 (40_alu.md R138: the amount of `shr`). -/
def LaneType.asUnsigned : LaneType → LaneType
  | .int size _ => .int size false
  | .f16 => .f16

/-- The type with the signedness of `td` (40_alu.md R126, `MUL_WIDEN_SIGN` = `dest`). -/
def LaneType.withSignOf (t td : LaneType) : LaneType :=
  match t, td with
  | .int size _, .int _ signed => .int size signed
  | t, _ => t

/-! ## Addresses -/

/-- `ext64(i)`: zero-extended where `i` is unsigned, sign-extended where it is signed, converted to a signed 64-bit
integer where it is f16 (42_load.md R171). -/
def State.ext64 (s : State) (i : Reg) : Word :=
  match s.type i with
  | .int size signed => BitVec.ofInt 64 ((LaneType.int size signed).value (s.sdata i))
  | .f16 => Config.intOfBf16 (BitVec.ofNat 16 (s.sdata i)) 64 true

/-- `EA(b, c, simm12)` (42_load.md R170). -/
def State.effectiveAddress (s : State) (b c : Reg) (simm : Int) : Word :=
  (s.dlar b).addr + s.ext64 c + BitVec.ofInt 64 simm

end Sys2Proof.Machine
end

