-- ==== Sys2Proof/Machine/Flags.lean ====
section
/-!
DEFINITION. Conditions. Snow64 has no flags, no condition codes and no status register (10_state.md R36, R37): a
comparison writes a Data LAR and a branch tests one. What stands here is how a truth value is written into a lane
(40_alu.md R116, R124, R142) and how a branch tests one (41_control.md R161, R162).
-/

namespace Sys2Proof.Machine

/-- The lane that `slt` and `not` write for a truth value: 1 or 0, or `cfg.bf16_truth` in an f16 lane
(40_alu.md R116, R124, R142). -/
def truthLane (td : LaneType) (b : Bool) : Nat :=
  match td with
  | .int _ _ => if b then 1 else 0
  | .f16 => (Config.bf16Truth b).toNat

/-- The test of `btru` and `bfal`: some bit of the scalar lane is 1, whatever the type (41_control.md R161). -/
def State.scalarNonzero (s : State) (i : Reg) : Bool := s.sdata i != 0

end Sys2Proof.Machine
end

