-- ==== Sys2Proof/Machine/Alu.lean ====
section
/-!
DEFINITION. What the ALU instructions share (40_alu.md): the lane functions `f_Td` of R120 to R143, the scalar scheme
(R110, R113) and the vector scheme (R114). A lane function takes the destination's type and the patterns already
cast to it; a lane operation takes the three types and the source patterns as they stand, and casts them.
-/

namespace Sys2Proof.Machine

/-! ## Lane functions: `f_Td(x, y)` on patterns of the destination's type -/

/-- `cfg` function `f` on two f16 patterns (40_alu.md R116). -/
def bf16Binary (f : BitVec 16 → BitVec 16 → BitVec 16) (x y : Nat) : Nat :=
  (f (BitVec.ofNat 16 x) (BitVec.ofNat 16 y)).toNat

/-- `add` (40_alu.md R120). -/
def addLane (td : LaneType) (x y : Nat) : Nat :=
  match td with
  | .int _ _ => trunc td.width ((x : Int) + y)
  | .f16 => bf16Binary Config.bf16Add x y

/-- `sub` (40_alu.md R122). -/
def subLane (td : LaneType) (x y : Nat) : Nat :=
  match td with
  | .int _ _ => trunc td.width ((x : Int) - y)
  | .f16 => bf16Binary Config.bf16Sub x y

/-- `slt`, by the signedness of the destination (40_alu.md R124). -/
def sltLane (td : LaneType) (x y : Nat) : Nat :=
  match td with
  | .int _ _ => truthLane td (decide (td.value x < td.value y))
  | .f16 => truthLane td (Config.bf16Lt (BitVec.ofNat 16 x) (BitVec.ofNat 16 y))

/-- `mul` (40_alu.md R126). -/
def mulLane (td : LaneType) (x y : Nat) : Nat :=
  match td with
  | .int _ _ => trunc td.width ((x : Int) * y)
  | .f16 => bf16Binary Config.bf16Mul x y

/-- `div`, by the signedness of the destination, rounding toward zero; a zero divisor gives the free value of draw
number `draw` (40_alu.md R128). -/
def divLane (draw : Nat) (td : LaneType) (x y : Nat) : Nat :=
  match td with
  | .int _ signed =>
    if y = 0 then (Config.divZero draw td.width signed x).toNat
    else trunc td.width ((td.value x).tdiv (td.value y))
  | .f16 => bf16Binary Config.bf16Div x y

/-- `and` (40_alu.md R130). -/
def andLane (_ : LaneType) (x y : Nat) : Nat := x &&& y

/-- `orr` (40_alu.md R132). -/
def orrLane (_ : LaneType) (x y : Nat) : Nat := x ||| y

/-- `xor` (40_alu.md R134). -/
def xorLane (_ : LaneType) (x y : Nat) : Nat := x ^^^ y

/-- `shl`: `trunc_W(x * 2^n)`, which is 0 for an amount of the width or more (40_alu.md R136). -/
def shlLane (td : LaneType) (x n : Nat) : Nat :=
  if td.width ≤ n then 0 else trunc td.width ((x : Int) * (2 ^ n : Nat))

/-- `shr` with zeros entering at the top: `floor(x / 2^n)`, 0 for an amount of the width or more
(40_alu.md R138). -/
def shrLogical (td : LaneType) (x n : Nat) : Nat :=
  if td.width ≤ n then 0 else x / 2 ^ n

/-- `shr` with copies of bit W-1 entering at the top: `trunc_W(floor(sval_W(x) / 2^n))`; an amount of the width or
more leaves only those copies (40_alu.md R138). -/
def shrArithmetic (td : LaneType) (x n : Nat) : Nat :=
  if td.width ≤ n then (if sval td.width x < 0 then 2 ^ td.width - 1 else 0)
  else trunc td.width (sval td.width x / (2 ^ n : Nat))

/-- `inv`: `2^W - 1 - x` (40_alu.md R140). -/
def invLane (td : LaneType) (x : Nat) : Nat := trunc td.width ((2 ^ td.width : Nat) - 1 - x)

/-- `not` (40_alu.md R142). -/
def notLane (td : LaneType) (x : Nat) : Nat :=
  match td with
  | .int _ _ => truthLane td (x == 0)
  | .f16 => truthLane td (Config.bf16IsZero (BitVec.ofNat 16 x))

/-- `dDest, pc, simm12`: the 64-bit sum cut to the destination's width, or converted as an unsigned integer
(40_alu.md R144). -/
def pcLane (td : LaneType) (v : Word) : Nat :=
  match td with
  | .int _ _ => trunc td.width v.toNat
  | .f16 => (Config.bf16OfInt v.toNat).toNat

/-! ## Lane operations: on source patterns under their own types -/

/-- Both sources cast to the destination's type (40_alu.md R110). -/
def castBoth (f : LaneType → Nat → Nat → Nat) (td tb tc : LaneType) (vb vc : Nat) : Nat :=
  f td (cast td tb vb) (cast td tc vc)

/-- The one source cast to the destination's type (40_alu.md R140, R142). -/
def castOne (f : LaneType → Nat → Nat) (td tb : LaneType) (vb : Nat) : Nat := f td (cast td tb vb)

/-- `shr`: the amount is read as unsigned, the kind of shift is the signedness of the first source
(40_alu.md R138). -/
def shrOperation (td tb tc : LaneType) (vb vc : Nat) : Nat :=
  let x := cast td tb vb
  let n := cast td tc.asUnsigned vc
  match tb with
  | .int _ false => shrLogical td x n
  | _ => shrArithmetic td x n

/-- The operands lie where the two readings of the `mul` note can differ: three integer types, the destination wider
than both sources (40_alu.md R126). -/
def widening (td tb tc : LaneType) : Bool :=
  match td, tb, tc with
  | .int _ _, .int _ _, .int _ _ => decide (tb.width < td.width) && decide (tc.width < td.width)
  | _, _, _ => false

/-- `mul` under a reading of `MUL_WIDEN_SIGN` (40_alu.md R126). -/
def mulOperation (reading : MulWidenSign) (td tb tc : LaneType) (vb vc : Nat) : Nat :=
  match reading, widening td tb tc with
  | .dest, true => castBoth mulLane td (tb.withSignOf td) (tc.withSignOf td) vb vc
  | _, _ => castBoth mulLane td tb tc vb vc

/-! ## The schemes -/

/-- `n` draws of the free value of a division are used up, unless the result is discarded (40_alu.md R128). -/
def State.takeDraws (s : State) (a : Reg) (n : Nat) : State :=
  if a = 0 then s else { s with draws := s.draws + n }

/-- `WriteScalar(a, r)` (40_alu.md R113). -/
def State.writeScalar (s : State) (a : Reg) (r : Nat) : State :=
  s.setData a (setLane s.params.endian (s.type a).bytes (s.dlar a).data (s.dlar a).idx r)

/-- Every lane of `a` written at once, lane `k` with `r k` (40_alu.md R114). -/
def State.writeLanes (s : State) (a : Reg) (r : Nat → Nat) : State :=
  s.setData a (lineOfLanes s.params.endian (s.type a).bytes r)

/-- The scalar scheme with two sources (40_alu.md R110). `view` is `OpType` (R115). With dzero as destination only
`pc` moves (10_state.md R32). -/
def scalarBinary (view : LaneType → LaneType) (op : LaneType → LaneType → LaneType → Nat → Nat → Nat)
    (a b c : Reg) (s : State) : Outcome :=
  s.checked [a, b, c] <| .next (s.writeScalar a
    (op (view (s.type a)) (view (s.type b)) (view (s.type c)) (s.sdata b) (s.sdata c))).advance

/-- The scalar scheme with one source (40_alu.md R140, R142). -/
def scalarUnary (view : LaneType → LaneType) (op : LaneType → LaneType → Nat → Nat) (a b : Reg) (s : State) :
    Outcome :=
  s.checked [a, b] <| .next (s.writeScalar a (op (view (s.type a)) (view (s.type b)) (s.sdata b))).advance

/-- The vector scheme with two sources: different lane counts stop, whatever the destination; else lane `k` from lane
`k` of each, all sources read before any lane is written (40_alu.md R114). `op` gets the lane's number first. With dzero
as destination only `pc` moves (10_state.md R32). -/
def vectorBinary (view : LaneType → LaneType)
    (op : Nat → LaneType → LaneType → LaneType → Nat → Nat → Nat) (a b c : Reg) (s : State) : Outcome :=
  s.checked [a, b, c] <|
    if (s.type b).lanes ≠ (s.type a).lanes ∨ (s.type c).lanes ≠ (s.type a).lanes then
      .fault .vectorLaneCountMismatch
    else
      .next (s.writeLanes a fun k =>
        op k (view (s.type a)) (view (s.type b)) (view (s.type c)) (s.lane b k) (s.lane c k)).advance

/-- The vector scheme with one source (40_alu.md R114, R141, R143). -/
def vectorUnary (view : LaneType → LaneType) (op : LaneType → LaneType → Nat → Nat) (a b : Reg) (s : State) :
    Outcome :=
  s.checked [a, b] <|
    if (s.type b).lanes ≠ (s.type a).lanes then .fault .vectorLaneCountMismatch
    else .next (s.writeLanes a fun k => op (view (s.type a)) (view (s.type b)) (s.lane b k)).advance

/-- `(PCV + sext_64(simm12)) mod 2^64` (40_alu.md R144). -/
def State.pcPlus (s : State) (simm : Int) : Word := s.pcv + BitVec.ofInt 64 simm

end Sys2Proof.Machine
end

