-- ==== Sys2Proof/Machine/AluScalar.lean ====
section
/-!
DEFINITION. The scalar ALU instructions, group 0b000 with `t` = 0 (40_alu.md R120 to R144, the even rules).
-/

namespace Sys2Proof.Machine

/-- `adds dDest, dSrc0, dSrc1` (40_alu.md R120). -/
def execAdds (a b c : Reg) (s : State) : Outcome :=
  scalarBinary id (castBoth addLane) a b c s

/-- `subs dDest, dSrc0, dSrc1` (40_alu.md R122). -/
def execSubs (a b c : Reg) (s : State) : Outcome :=
  scalarBinary id (castBoth subLane) a b c s

/-- `slts dDest, dSrc0, dSrc1` (40_alu.md R124). -/
def execSlts (a b c : Reg) (s : State) : Outcome :=
  scalarBinary id (castBoth sltLane) a b c s

/-- `muls dDest, dSrc0, dSrc1` (40_alu.md R126); `MUL_WIDEN_SIGN` is the parameter of the machine. -/
def execMuls (a b c : Reg) (s : State) : Outcome :=
  scalarBinary id (mulOperation s.params.mulWidenSign) a b c s

/-- `divs dDest, dSrc0, dSrc1` (40_alu.md R128); a division by zero takes the next free value. -/
def execDivs (a b c : Reg) (s : State) : Outcome :=
  scalarBinary id (castBoth (divLane s.draws)) a b c (s.takeDraws a 1)

/-- `ands dDest, dSrc0, dSrc1` (40_alu.md R130). -/
def execAnds (a b c : Reg) (s : State) : Outcome :=
  scalarBinary LaneType.asBits (castBoth andLane) a b c s

/-- `orrs dDest, dSrc0, dSrc1` (40_alu.md R132). -/
def execOrrs (a b c : Reg) (s : State) : Outcome :=
  scalarBinary LaneType.asBits (castBoth orrLane) a b c s

/-- `xors dDest, dSrc0, dSrc1` (40_alu.md R134). -/
def execXors (a b c : Reg) (s : State) : Outcome :=
  scalarBinary LaneType.asBits (castBoth xorLane) a b c s

/-- `shls dDest, dSrc0, dSrc1` (40_alu.md R136). -/
def execShls (a b c : Reg) (s : State) : Outcome :=
  scalarBinary LaneType.asBits (castBoth shlLane) a b c s

/-- `shrs dDest, dSrc0, dSrc1` (40_alu.md R138). -/
def execShrs (a b c : Reg) (s : State) : Outcome :=
  scalarBinary LaneType.asBits shrOperation a b c s

/-- `invs dDest, dSrc0` (40_alu.md R140). -/
def execInvs (a b : Reg) (s : State) : Outcome :=
  scalarUnary LaneType.asBits (castOne invLane) a b s

/-- `nots dDest, dSrc0` (40_alu.md R142). -/
def execNots (a b : Reg) (s : State) : Outcome :=
  scalarUnary id (castOne notLane) a b s

/-- `adds dDest, pc, simm12` (40_alu.md R144). -/
def execAddsPc (a : Reg) (simm : Int) (s : State) : Outcome :=
  s.checked [a] <| .next (s.writeScalar a (pcLane (s.type a) (s.pcPlus simm))).advance

end Sys2Proof.Machine
end

