-- ==== Sys2Proof/Machine/AluVector.lean ====
section
/-!
DEFINITION. The vector ALU instructions, group 0b000 with `t` = 1 (40_alu.md R121 to R145, the odd rules).
-/

namespace Sys2Proof.Machine

/-- `addv dDest, dSrc0, dSrc1` (40_alu.md R121). -/
def execAddv (a b c : Reg) (s : State) : Outcome :=
  vectorBinary id (fun _ => castBoth addLane) a b c s

/-- `subv dDest, dSrc0, dSrc1` (40_alu.md R123). -/
def execSubv (a b c : Reg) (s : State) : Outcome :=
  vectorBinary id (fun _ => castBoth subLane) a b c s

/-- `sltv dDest, dSrc0, dSrc1` (40_alu.md R125). -/
def execSltv (a b c : Reg) (s : State) : Outcome :=
  vectorBinary id (fun _ => castBoth sltLane) a b c s

/-- `mulv dDest, dSrc0, dSrc1` (40_alu.md R127). -/
def execMulv (a b c : Reg) (s : State) : Outcome :=
  vectorBinary id (fun _ => castBoth mulLane) a b c s

/-- `divv dDest, dSrc0, dSrc1` (40_alu.md R129); lane `k` takes free value number `draws + k` if it divides by zero. -/
def execDivv (a b c : Reg) (s : State) : Outcome :=
  vectorBinary id (fun k => castBoth (divLane (s.draws + k))) a b c (s.takeDraws a 32)

/-- `andv dDest, dSrc0, dSrc1` (40_alu.md R131). -/
def execAndv (a b c : Reg) (s : State) : Outcome :=
  vectorBinary LaneType.asBits (fun _ => castBoth andLane) a b c s

/-- `orrv dDest, dSrc0, dSrc1` (40_alu.md R133). -/
def execOrrv (a b c : Reg) (s : State) : Outcome :=
  vectorBinary LaneType.asBits (fun _ => castBoth orrLane) a b c s

/-- `xorv dDest, dSrc0, dSrc1` (40_alu.md R135). -/
def execXorv (a b c : Reg) (s : State) : Outcome :=
  vectorBinary LaneType.asBits (fun _ => castBoth xorLane) a b c s

/-- `shlv dDest, dSrc0, dSrc1` (40_alu.md R137). -/
def execShlv (a b c : Reg) (s : State) : Outcome :=
  vectorBinary LaneType.asBits (fun _ => castBoth shlLane) a b c s

/-- `shrv dDest, dSrc0, dSrc1` (40_alu.md R139). -/
def execShrv (a b c : Reg) (s : State) : Outcome :=
  vectorBinary LaneType.asBits (fun _ => shrOperation) a b c s

/-- `invv dDest, dSrc0` (40_alu.md R141). -/
def execInvv (a b : Reg) (s : State) : Outcome :=
  vectorUnary LaneType.asBits (castOne invLane) a b s

/-- `notv dDest, dSrc0` (40_alu.md R143). -/
def execNotv (a b : Reg) (s : State) : Outcome :=
  vectorUnary id (castOne notLane) a b s

/-- `addv dDest, pc, simm12`: the value of `adds dDest, pc, simm12` in every lane (40_alu.md R145). -/
def execAddvPc (a : Reg) (simm : Int) (s : State) : Outcome :=
  s.checked [a] <| .next (s.writeLanes a fun _ => pcLane (s.type a) (s.pcPlus simm)).advance

end Sys2Proof.Machine
end

