-- ==== Sys2Proof/Machine/Control.lean ====
section
/-!
DEFINITION. The control instructions, group 0b001 (41_control.md): only `pc` is written.
-/

namespace Sys2Proof.Machine

/-- The target of a branch: `(PCV + sext_64(simm20)) mod 2^64` (41_control.md R164). -/
def State.branchTarget (s : State) (simm : Int) : Word := s.pcv + BitVec.ofInt 64 simm

/-- `btru dA, simm20` (41_control.md R161). -/
def execBtru (a : Reg) (simm : Int) (s : State) : Outcome :=
  s.checked [a] <| .next (if s.scalarNonzero a then s.setPc (s.branchTarget simm) else s.advance)

/-- `bfal dA, simm20` (41_control.md R162). -/
def execBfal (a : Reg) (simm : Int) (s : State) : Outcome :=
  s.checked [a] <| .next (if s.scalarNonzero a then s.advance else s.setPc (s.branchTarget simm))

/-- `jmp dA` (41_control.md R163). -/
def execJmp (a : Reg) (s : State) : Outcome :=
  s.checked [a] <| .next (s.setPc (s.ext64 a))

end Sys2Proof.Machine
end

