-- ==== Sys2Proof/Machine/Load.lean ====
section
/-!
DEFINITION. The load instructions, group 0b010 (42_load.md).
-/

namespace Sys2Proof.Machine

/-- The data and dirty bit of line `L` brought into Data LAR `a`, which does not hold it: from a holder if there is
one, else from memory; stuck when memory has no such line (42_load.md R172, 20_memory.md R72). -/
def State.fillFrom (s : State) (a : Reg) (L : Nat) : Except Fault State :=
  match s.holder L with
  | some h => .ok (s.setDlar a { s.dlar a with data := (s.dlar h).data, dirty := (s.dlar h).dirty })
  | none =>
    if s.backed L then .ok (s.setDlar a { s.dlar a with data := s.mem.readLine L, dirty := false })
    else .error (.unbackedLine L)

/-- Data LAR `a` made to hold line `L`, its old line released first; nothing to do when it holds `L` already
(42_load.md R172). -/
def State.acquire (s : State) (a : Reg) (L : Nat) : Except Fault State :=
  if s.holds L a then .ok s
  else
    match s.release a with
    | .error f => .error f
    | .ok s' => s'.fillFrom a L

/-- `a` gets address `ea`, type `t` and the tagged bit (42_load.md R172). -/
def State.pointAt (s : State) (a : Reg) (ea : Word) (t : LaneType) : State :=
  s.setDlar a { (s.dlar a).retype t with addr := ea, tagged := true }

/-- Every load, with the type it sets (42_load.md R172). A load into dzero only moves `pc` (R183 (e)). -/
def loadLar (t : LaneType) (a b c : Reg) (simm : Int) (s : State) : Outcome :=
  s.checked [b, c] <|
    if a = 0 then .next s.advance
    else
      let ea := s.effectiveAddress b c simm
      match s.acquire a (lineNumber ea) with
      | .error f => .fault f
      | .ok s' => .next (s'.pointAt a ea t).advance

/-- `ldu8 dA, dB, dC, simm12` (42_load.md R174). -/
def execLdu8 (a b c : Reg) (simm : Int) (s : State) : Outcome :=
  loadLar (.int .b8 false) a b c simm s

/-- `lds8 dA, dB, dC, simm12` (42_load.md R175). -/
def execLds8 (a b c : Reg) (simm : Int) (s : State) : Outcome :=
  loadLar (.int .b8 true) a b c simm s

/-- `ldu16 dA, dB, dC, simm12` (42_load.md R176). -/
def execLdu16 (a b c : Reg) (simm : Int) (s : State) : Outcome :=
  loadLar (.int .b16 false) a b c simm s

/-- `lds16 dA, dB, dC, simm12` (42_load.md R177). -/
def execLds16 (a b c : Reg) (simm : Int) (s : State) : Outcome :=
  loadLar (.int .b16 true) a b c simm s

/-- `ldu32 dA, dB, dC, simm12` (42_load.md R178). -/
def execLdu32 (a b c : Reg) (simm : Int) (s : State) : Outcome :=
  loadLar (.int .b32 false) a b c simm s

/-- `lds32 dA, dB, dC, simm12` (42_load.md R179). -/
def execLds32 (a b c : Reg) (simm : Int) (s : State) : Outcome :=
  loadLar (.int .b32 true) a b c simm s

/-- `ldu64 dA, dB, dC, simm12` (42_load.md R180). -/
def execLdu64 (a b c : Reg) (simm : Int) (s : State) : Outcome :=
  loadLar (.int .b64 false) a b c simm s

/-- `lds64 dA, dB, dC, simm12` (42_load.md R181). -/
def execLds64 (a b c : Reg) (simm : Int) (s : State) : Outcome :=
  loadLar (.int .b64 true) a b c simm s

/-- `ldf16 dA, dB, dC, simm12` (42_load.md R182). -/
def execLdf16 (a b c : Reg) (simm : Int) (s : State) : Outcome :=
  loadLar .f16 a b c simm s

end Sys2Proof.Machine
end

