-- ==== Sys2Proof/Machine/Store.lean ====
section
/-!
DEFINITION. The store instructions, group 0b011 (43_store.md).
-/

namespace Sys2Proof.Machine

/-- The data of Data LAR `a` made the content of line `L` for every holder of it, all dirty (43_store.md R190,
decision D16). -/
def State.giveHolders (s : State) (a : Reg) (L : Nat) : State :=
  s.withDlars fun i =>
    if s.holds L i then { s.dlar i with data := (s.dlar a).data, dirty := true } else s.dlar i

/-- Every holder of line `L` marked dirty (43_store.md R190, the same-line case). -/
def State.dirtyHolders (s : State) (L : Nat) : State :=
  s.withDlars fun i => if s.holds L i then { s.dlar i with dirty := true } else s.dlar i

/-- What a store of `a` to line `L` does before `a` is relabelled: nothing moves when `a` holds `L` already, else its
old line is released and the holders of `L` take its data (43_store.md R190). -/
def State.stage (s : State) (a : Reg) (L : Nat) : Except Fault State :=
  if s.holds L a then .ok (s.dirtyHolders L)
  else
    match s.release a with
    | .error f => .error f
    | .ok s' => .ok (s'.giveHolders a L)

/-- `a` gets address `ea`, type `t`, the dirty bit and the tagged bit (43_store.md R190). -/
def State.relabel (s : State) (a : Reg) (ea : Word) (t : LaneType) : State :=
  s.setDlar a { (s.dlar a).retype t with addr := ea, dirty := true, tagged := true }

/-- Every store, with the type it sets (43_store.md R190). A store of dzero only moves `pc` (R200 (g)). -/
def storeLar (t : LaneType) (a b c : Reg) (simm : Int) (s : State) : Outcome :=
  s.checked [a, b, c] <|
    if a = 0 then .next s.advance
    else
      let ea := s.effectiveAddress b c simm
      match s.stage a (lineNumber ea) with
      | .error f => .fault f
      | .ok s' => .next (s'.relabel a ea t).advance

/-- `stu8 dA, dB, dC, simm12` (43_store.md R191). -/
def execStu8 (a b c : Reg) (simm : Int) (s : State) : Outcome :=
  storeLar (.int .b8 false) a b c simm s

/-- `sts8 dA, dB, dC, simm12` (43_store.md R192). -/
def execSts8 (a b c : Reg) (simm : Int) (s : State) : Outcome :=
  storeLar (.int .b8 true) a b c simm s

/-- `stu16 dA, dB, dC, simm12` (43_store.md R193). -/
def execStu16 (a b c : Reg) (simm : Int) (s : State) : Outcome :=
  storeLar (.int .b16 false) a b c simm s

/-- `sts16 dA, dB, dC, simm12` (43_store.md R194). -/
def execSts16 (a b c : Reg) (simm : Int) (s : State) : Outcome :=
  storeLar (.int .b16 true) a b c simm s

/-- `stu32 dA, dB, dC, simm12` (43_store.md R195). -/
def execStu32 (a b c : Reg) (simm : Int) (s : State) : Outcome :=
  storeLar (.int .b32 false) a b c simm s

/-- `sts32 dA, dB, dC, simm12` (43_store.md R196). -/
def execSts32 (a b c : Reg) (simm : Int) (s : State) : Outcome :=
  storeLar (.int .b32 true) a b c simm s

/-- `stu64 dA, dB, dC, simm12` (43_store.md R197). -/
def execStu64 (a b c : Reg) (simm : Int) (s : State) : Outcome :=
  storeLar (.int .b64 false) a b c simm s

/-- `sts64 dA, dB, dC, simm12` (43_store.md R198). -/
def execSts64 (a b c : Reg) (simm : Int) (s : State) : Outcome :=
  storeLar (.int .b64 true) a b c simm s

/-- `stf16 dA, dB, dC, simm12` (43_store.md R199). -/
def execStf16 (a b c : Reg) (simm : Int) (s : State) : Outcome :=
  storeLar .f16 a b c simm s

end Sys2Proof.Machine
end

