-- ==== Sys2Proof/Machine/Dispatch.lean ====
section
/-!
DEFINITION. One arm per instruction: which meaning it has.
-/

namespace Sys2Proof.Machine

def exec (i : Instr) (s : State) : Host.Outcome State Fault Refusal :=
  match i with
  | .adds a b c => Sys2Proof.Machine.execAdds a b c s
  | .addv a b c => Sys2Proof.Machine.execAddv a b c s
  | .subs a b c => Sys2Proof.Machine.execSubs a b c s
  | .subv a b c => Sys2Proof.Machine.execSubv a b c s
  | .slts a b c => Sys2Proof.Machine.execSlts a b c s
  | .sltv a b c => Sys2Proof.Machine.execSltv a b c s
  | .muls a b c => Sys2Proof.Machine.execMuls a b c s
  | .mulv a b c => Sys2Proof.Machine.execMulv a b c s
  | .divs a b c => Sys2Proof.Machine.execDivs a b c s
  | .divv a b c => Sys2Proof.Machine.execDivv a b c s
  | .ands a b c => Sys2Proof.Machine.execAnds a b c s
  | .andv a b c => Sys2Proof.Machine.execAndv a b c s
  | .orrs a b c => Sys2Proof.Machine.execOrrs a b c s
  | .orrv a b c => Sys2Proof.Machine.execOrrv a b c s
  | .xors a b c => Sys2Proof.Machine.execXors a b c s
  | .xorv a b c => Sys2Proof.Machine.execXorv a b c s
  | .shls a b c => Sys2Proof.Machine.execShls a b c s
  | .shlv a b c => Sys2Proof.Machine.execShlv a b c s
  | .shrs a b c => Sys2Proof.Machine.execShrs a b c s
  | .shrv a b c => Sys2Proof.Machine.execShrv a b c s
  | .invs a b => Sys2Proof.Machine.execInvs a b s
  | .invv a b => Sys2Proof.Machine.execInvv a b s
  | .nots a b => Sys2Proof.Machine.execNots a b s
  | .notv a b => Sys2Proof.Machine.execNotv a b s
  | .addsPc a simm => Sys2Proof.Machine.execAddsPc a simm s
  | .addvPc a simm => Sys2Proof.Machine.execAddvPc a simm s
  | .btru a simm => Sys2Proof.Machine.execBtru a simm s
  | .bfal a simm => Sys2Proof.Machine.execBfal a simm s
  | .jmp a => Sys2Proof.Machine.execJmp a s
  | .ldu8 a b c simm => Sys2Proof.Machine.execLdu8 a b c simm s
  | .lds8 a b c simm => Sys2Proof.Machine.execLds8 a b c simm s
  | .ldu16 a b c simm => Sys2Proof.Machine.execLdu16 a b c simm s
  | .lds16 a b c simm => Sys2Proof.Machine.execLds16 a b c simm s
  | .ldu32 a b c simm => Sys2Proof.Machine.execLdu32 a b c simm s
  | .lds32 a b c simm => Sys2Proof.Machine.execLds32 a b c simm s
  | .ldu64 a b c simm => Sys2Proof.Machine.execLdu64 a b c simm s
  | .lds64 a b c simm => Sys2Proof.Machine.execLds64 a b c simm s
  | .ldf16 a b c simm => Sys2Proof.Machine.execLdf16 a b c simm s
  | .stu8 a b c simm => Sys2Proof.Machine.execStu8 a b c simm s
  | .sts8 a b c simm => Sys2Proof.Machine.execSts8 a b c simm s
  | .stu16 a b c simm => Sys2Proof.Machine.execStu16 a b c simm s
  | .sts16 a b c simm => Sys2Proof.Machine.execSts16 a b c simm s
  | .stu32 a b c simm => Sys2Proof.Machine.execStu32 a b c simm s
  | .sts32 a b c simm => Sys2Proof.Machine.execSts32 a b c simm s
  | .stu64 a b c simm => Sys2Proof.Machine.execStu64 a b c simm s
  | .sts64 a b c simm => Sys2Proof.Machine.execSts64 a b c simm s
  | .stf16 a b c simm => Sys2Proof.Machine.execStf16 a b c simm s

end Sys2Proof.Machine
end

