-- ==== Sys2Proof/Machine/Step.lean ====
section
/-!
DEFINITION. One step of the machine: the internal write-back steps due between two instructions (20_memory.md R62),
the fetch (R54), decoding, and the instruction; an invalid word is a NOP (60_exceptions.md R211).
-/

namespace Sys2Proof.Machine

/-- One step (60_exceptions.md R213 gives the order of its stops). -/
def step (s : State) : Host.Outcome State Fault Refusal :=
  let s' := s.betweenInstructions
  match s'.fetch with
  | .error f => .fault f
  | .ok w =>
    match decodeWord w with
    | .error _ => .next s'.advance
    | .ok i => exec i s'

/-- `s` with the instruction whose bits are `w` stored at `pc`, in the machine's byte order. -/
def State.withFetchWord (s : State) (nbits w : Nat) : State := s.placeWord (BitVec.ofNat 32 (w % 2 ^ nbits))

end Sys2Proof.Machine
end

