-- ==== Sys2Proof/Safety.lean ====
section
/-!
DEFINITION. The terms the statements use: the invariants of the machine (20_memory.md R59, 10_state.md R28, R26,
canonical memory), which Data LARs an instruction uses (60_exceptions.md R213), what an ALU instruction's write leaves
(40_alu.md R113, R114), when two states differ only in what has been written back (20_memory.md R63), and when a
harness takes a run to be over (70_reset_and_hazards.md R235).
-/

namespace Sys2Proof.Machine

/-! ## Invariants -/

/-- `INV` of 20_memory.md R59: all holders of one line have the same data and the same dirty bit. -/
abbrev State.Coherent (s : State) : Prop :=
  ∀ i j : Reg, (s.dlar i).tagged = true → (s.dlar j).tagged = true → (s.dlar i).base = (s.dlar j).base →
    (s.dlar i).data = (s.dlar j).data ∧ (s.dlar i).dirty = (s.dlar j).dirty

/-- The meaning of a clear dirty bit (10_state.md R28): the data of a tagged, clean Data LAR is up to date with
memory. -/
abbrev State.CleanUpToDate (s : State) : Prop :=
  ∀ i : Reg, (s.dlar i).tagged = true → (s.dlar i).dirty = false →
    (s.dlar i).data = s.mem.readLine (s.dlar i).base

/-- The tag of every Data LAR is one of nine: an f16 tag has `type_of_int` = 0b01 and `unsgn_or_sgn` = 1
(10_state.md R26, 42_load.md R173). -/
abbrev State.TagsRegular (s : State) : Prop :=
  ∀ i : Reg, (s.dlar i).isFloat16 = true → (s.dlar i).typeOfInt = 0b01 ∧ (s.dlar i).unsgnOrSgn = true

end Sys2Proof.Machine

namespace Sys2Proof

/-! ## What an instruction names -/

/-- The Data LAR an instruction writes: `dDest`, or the `dA` of a load or store; none for group 0b001
(41_control.md R160). -/
def Instr.dest : Instr → Option Reg
  | .adds a _ _ => some a
  | .addv a _ _ => some a
  | .subs a _ _ => some a
  | .subv a _ _ => some a
  | .slts a _ _ => some a
  | .sltv a _ _ => some a
  | .muls a _ _ => some a
  | .mulv a _ _ => some a
  | .divs a _ _ => some a
  | .divv a _ _ => some a
  | .ands a _ _ => some a
  | .andv a _ _ => some a
  | .orrs a _ _ => some a
  | .orrv a _ _ => some a
  | .xors a _ _ => some a
  | .xorv a _ _ => some a
  | .shls a _ _ => some a
  | .shlv a _ _ => some a
  | .shrs a _ _ => some a
  | .shrv a _ _ => some a
  | .invs a _ => some a
  | .invv a _ => some a
  | .nots a _ => some a
  | .notv a _ => some a
  | .addsPc a _ => some a
  | .addvPc a _ => some a
  | .btru _ _ => none
  | .bfal _ _ => none
  | .jmp _ => none
  | .ldu8 a _ _ _ => some a
  | .lds8 a _ _ _ => some a
  | .ldu16 a _ _ _ => some a
  | .lds16 a _ _ _ => some a
  | .ldu32 a _ _ _ => some a
  | .lds32 a _ _ _ => some a
  | .ldu64 a _ _ _ => some a
  | .lds64 a _ _ _ => some a
  | .ldf16 a _ _ _ => some a
  | .stu8 a _ _ _ => some a
  | .sts8 a _ _ _ => some a
  | .stu16 a _ _ _ => some a
  | .sts16 a _ _ _ => some a
  | .stu32 a _ _ _ => some a
  | .sts32 a _ _ _ => some a
  | .stu64 a _ _ _ => some a
  | .sts64 a _ _ _ => some a
  | .stf16 a _ _ _ => some a

/-- The Data LARs an instruction uses, in the order in which `UntaggedLarRead` looks at them; a load does not read its
`dA` (60_exceptions.md R213 (5), 42_load.md R174). -/
def Instr.operands : Instr → List Reg
  | .adds a b c => [a, b, c]
  | .addv a b c => [a, b, c]
  | .subs a b c => [a, b, c]
  | .subv a b c => [a, b, c]
  | .slts a b c => [a, b, c]
  | .sltv a b c => [a, b, c]
  | .muls a b c => [a, b, c]
  | .mulv a b c => [a, b, c]
  | .divs a b c => [a, b, c]
  | .divv a b c => [a, b, c]
  | .ands a b c => [a, b, c]
  | .andv a b c => [a, b, c]
  | .orrs a b c => [a, b, c]
  | .orrv a b c => [a, b, c]
  | .xors a b c => [a, b, c]
  | .xorv a b c => [a, b, c]
  | .shls a b c => [a, b, c]
  | .shlv a b c => [a, b, c]
  | .shrs a b c => [a, b, c]
  | .shrv a b c => [a, b, c]
  | .invs a b => [a, b]
  | .invv a b => [a, b]
  | .nots a b => [a, b]
  | .notv a b => [a, b]
  | .addsPc a _ => [a]
  | .addvPc a _ => [a]
  | .btru a _ => [a]
  | .bfal a _ => [a]
  | .jmp a => [a]
  | .ldu8 _ b c _ => [b, c]
  | .lds8 _ b c _ => [b, c]
  | .ldu16 _ b c _ => [b, c]
  | .lds16 _ b c _ => [b, c]
  | .ldu32 _ b c _ => [b, c]
  | .lds32 _ b c _ => [b, c]
  | .ldu64 _ b c _ => [b, c]
  | .lds64 _ b c _ => [b, c]
  | .ldf16 _ b c _ => [b, c]
  | .stu8 a b c _ => [a, b, c]
  | .sts8 a b c _ => [a, b, c]
  | .stu16 a b c _ => [a, b, c]
  | .sts16 a b c _ => [a, b, c]
  | .stu32 a b c _ => [a, b, c]
  | .sts32 a b c _ => [a, b, c]
  | .stu64 a b c _ => [a, b, c]
  | .sts64 a b c _ => [a, b, c]
  | .stf16 a b c _ => [a, b, c]

/-- The Data LARs whose lane counts must be the destination's: the sources of a vector instruction; none for every other
instruction (40_alu.md R114). -/
def Instr.laneSources : Instr → List Reg
  | .adds _ _ _ => []
  | .addv _ b c => [b, c]
  | .subs _ _ _ => []
  | .subv _ b c => [b, c]
  | .slts _ _ _ => []
  | .sltv _ b c => [b, c]
  | .muls _ _ _ => []
  | .mulv _ b c => [b, c]
  | .divs _ _ _ => []
  | .divv _ b c => [b, c]
  | .ands _ _ _ => []
  | .andv _ b c => [b, c]
  | .orrs _ _ _ => []
  | .orrv _ b c => [b, c]
  | .xors _ _ _ => []
  | .xorv _ b c => [b, c]
  | .shls _ _ _ => []
  | .shlv _ b c => [b, c]
  | .shrs _ _ _ => []
  | .shrv _ b c => [b, c]
  | .invs _ _ => []
  | .invv _ b => [b]
  | .nots _ _ => []
  | .notv _ b => [b]
  | .addsPc _ _ => []
  | .addvPc _ _ => []
  | .btru _ _ => []
  | .bfal _ _ => []
  | .jmp _ => []
  | .ldu8 _ _ _ _ => []
  | .lds8 _ _ _ _ => []
  | .ldu16 _ _ _ _ => []
  | .lds16 _ _ _ _ => []
  | .ldu32 _ _ _ _ => []
  | .lds32 _ _ _ _ => []
  | .ldu64 _ _ _ _ => []
  | .lds64 _ _ _ _ => []
  | .ldf16 _ _ _ _ => []
  | .stu8 _ _ _ _ => []
  | .sts8 _ _ _ _ => []
  | .stu16 _ _ _ _ => []
  | .sts16 _ _ _ _ => []
  | .stu32 _ _ _ _ => []
  | .sts32 _ _ _ _ => []
  | .stu64 _ _ _ _ => []
  | .sts64 _ _ _ _ => []
  | .stf16 _ _ _ _ => []

/-- The `dA` of a load or store: the Data LAR that gets another address and type (42_load.md R172,
43_store.md R190); none for every other instruction. -/
def Instr.repointed : Instr → Option Reg
  | .adds _ _ _ => none
  | .addv _ _ _ => none
  | .subs _ _ _ => none
  | .subv _ _ _ => none
  | .slts _ _ _ => none
  | .sltv _ _ _ => none
  | .muls _ _ _ => none
  | .mulv _ _ _ => none
  | .divs _ _ _ => none
  | .divv _ _ _ => none
  | .ands _ _ _ => none
  | .andv _ _ _ => none
  | .orrs _ _ _ => none
  | .orrv _ _ _ => none
  | .xors _ _ _ => none
  | .xorv _ _ _ => none
  | .shls _ _ _ => none
  | .shlv _ _ _ => none
  | .shrs _ _ _ => none
  | .shrv _ _ _ => none
  | .invs _ _ => none
  | .invv _ _ => none
  | .nots _ _ => none
  | .notv _ _ => none
  | .addsPc _ _ => none
  | .addvPc _ _ => none
  | .btru _ _ => none
  | .bfal _ _ => none
  | .jmp _ => none
  | .ldu8 a _ _ _ => some a
  | .lds8 a _ _ _ => some a
  | .ldu16 a _ _ _ => some a
  | .lds16 a _ _ _ => some a
  | .ldu32 a _ _ _ => some a
  | .lds32 a _ _ _ => some a
  | .ldu64 a _ _ _ => some a
  | .lds64 a _ _ _ => some a
  | .ldf16 a _ _ _ => some a
  | .stu8 a _ _ _ => some a
  | .sts8 a _ _ _ => some a
  | .stu16 a _ _ _ => some a
  | .sts16 a _ _ _ => some a
  | .stu32 a _ _ _ => some a
  | .sts32 a _ _ _ => some a
  | .stu64 a _ _ _ => some a
  | .sts64 a _ _ _ => some a
  | .stf16 a _ _ _ => some a

/-- The immediate an instruction has (30_encoding.md R87). -/
def Instr.immediate : Instr → Option Int
  | .adds _ _ _ => none
  | .addv _ _ _ => none
  | .subs _ _ _ => none
  | .subv _ _ _ => none
  | .slts _ _ _ => none
  | .sltv _ _ _ => none
  | .muls _ _ _ => none
  | .mulv _ _ _ => none
  | .divs _ _ _ => none
  | .divv _ _ _ => none
  | .ands _ _ _ => none
  | .andv _ _ _ => none
  | .orrs _ _ _ => none
  | .orrv _ _ _ => none
  | .xors _ _ _ => none
  | .xorv _ _ _ => none
  | .shls _ _ _ => none
  | .shlv _ _ _ => none
  | .shrs _ _ _ => none
  | .shrv _ _ _ => none
  | .invs _ _ => none
  | .invv _ _ => none
  | .nots _ _ => none
  | .notv _ _ => none
  | .addsPc _ i => some i
  | .addvPc _ i => some i
  | .btru _ i => some i
  | .bfal _ i => some i
  | .jmp _ => none
  | .ldu8 _ _ _ i => some i
  | .lds8 _ _ _ i => some i
  | .ldu16 _ _ _ i => some i
  | .lds16 _ _ _ i => some i
  | .ldu32 _ _ _ i => some i
  | .lds32 _ _ _ i => some i
  | .ldu64 _ _ _ i => some i
  | .lds64 _ _ _ i => some i
  | .ldf16 _ _ _ i => some i
  | .stu8 _ _ _ i => some i
  | .sts8 _ _ _ i => some i
  | .stu16 _ _ _ i => some i
  | .sts16 _ _ _ i => some i
  | .stu32 _ _ _ i => some i
  | .sts32 _ _ _ i => some i
  | .stu64 _ _ _ i => some i
  | .sts64 _ _ _ i => some i
  | .stf16 _ _ _ i => some i

end Sys2Proof

namespace Sys2Proof.Machine

/-- The nine loads, each with the type it sets (42_load.md R173). -/
def loadInstrs : List ((Reg → Reg → Reg → Int → Instr) × LaneType) :=
  [(.ldu8, .int .b8 false),
   (.lds8, .int .b8 true),
   (.ldu16, .int .b16 false),
   (.lds16, .int .b16 true),
   (.ldu32, .int .b32 false),
   (.lds32, .int .b32 true),
   (.ldu64, .int .b64 false),
   (.lds64, .int .b64 true),
   (.ldf16, .f16)]

/-- The nine stores, each with the type it sets (42_load.md R173). -/
def storeInstrs : List ((Reg → Reg → Reg → Int → Instr) × LaneType) :=
  [(.stu8, .int .b8 false),
   (.sts8, .int .b8 true),
   (.stu16, .int .b16 false),
   (.sts16, .int .b16 true),
   (.stu32, .int .b32 false),
   (.sts32, .int .b32 true),
   (.stu64, .int .b64 false),
   (.sts64, .int .b64 true),
   (.stf16, .f16)]

/-- The fields `is_float_16`, `type_of_int` and `unsgn_or_sgn` of a record are those of the row of 42_load.md R173 that
sets type `t`. -/
def DataLar.hasTagFields (d : DataLar) (t : LaneType) : Prop :=
  (d.isFloat16, d.typeOfInt, d.unsgnOrSgn) =
    match t with
    | .int .b8 false => (false, 0b00, false)
    | .int .b8 true => (false, 0b00, true)
    | .int .b16 false => (false, 0b01, false)
    | .int .b16 true => (false, 0b01, true)
    | .int .b32 false => (false, 0b10, false)
    | .int .b32 true => (false, 0b10, true)
    | .int .b64 false => (false, 0b11, false)
    | .int .b64 true => (false, 0b11, true)
    | .f16 => (true, 0b01, true)

/-! ## The sources of an ALU instruction -/

/-- The scalar of `b` cast to the type of `a` (40_alu.md R110). -/
abbrev State.castScalar (s : State) (a b : Reg) : Nat := cast (s.type a) (s.type b) (s.sdata b)

/-- The same for a bitwise operation, an f16 tag read as s16 (40_alu.md R115). -/
abbrev State.castScalarBits (s : State) (a b : Reg) : Nat :=
  cast (s.type a).asBits (s.type b).asBits (s.sdata b)

/-- Lane `k` of `b` cast to the type of `a` (40_alu.md R114). -/
abbrev State.castLane (s : State) (a b : Reg) (k : Nat) : Nat := cast (s.type a) (s.type b) (s.lane b k)

/-- The same for a bitwise operation, an f16 tag read as s16 (40_alu.md R115). -/
abbrev State.castLaneBits (s : State) (a b : Reg) (k : Nat) : Nat :=
  cast (s.type a).asBits (s.type b).asBits (s.lane b k)

/-! ## What an ALU instruction leaves -/

/-- `t` is what `s` becomes when an ALU instruction writes the data of `a`, a Data LAR other than dzero, and uses up
`drawn` free values: `a` and every other holder of its line share the new data and are dirty, and keep every other
field; the other Data LARs, every byte of memory and the parameters are unchanged; `pc` is 4 further
(40_alu.md R110, R113, 20_memory.md R60). -/
structure DataWritten (s t : State) (a : Reg) (drawn : Nat) : Prop where
  sharers : ∀ i, s.aliases a i = true → t.dlar i = { s.dlar i with data := (t.dlar a).data, dirty := true }
  others : ∀ i, s.aliases a i = false → t.dlar i = s.dlar i
  memory : ∀ x, t.mem.read x = s.mem.read x
  params : t.params = s.params
  schedule : t.schedule = s.schedule
  draws : t.draws = s.draws + drawn
  pc : t.pc = s.pc + 4

/-- A scalar ALU instruction has written `r` to the scalar lane of `a`, and no other byte of its data
(40_alu.md R113). -/
structure ScalarWritten (s t : State) (a : Reg) (drawn r : Nat) : Prop extends DataWritten s t a drawn where
  lane : t.sdata a = r
  otherBytes : ∀ j < 32, j / (s.type a).bytes ≠ (s.dlar a).idx →
    lineByte (t.dlar a).data j = lineByte (s.dlar a).data j

/-- A vector ALU instruction has written `r k` to every lane `k` of `a` (40_alu.md R114). -/
structure LanesWritten (s t : State) (a : Reg) (drawn : Nat) (r : Nat → Nat) : Prop extends
    DataWritten s t a drawn where
  lanes : ∀ k < (s.type a).lanes, t.lane a k = r k

/-- The lane counts of the operands of a vector instruction agree (40_alu.md R114). -/
abbrev State.sameLanes (s : State) (a : Reg) (sources : List Reg) : Prop :=
  ∀ b ∈ sources, (s.type b).lanes = (s.type a).lanes

/-! ## Release -/

/-- `a` still has to be written back before it may hold another line (20_memory.md R61). -/
abbrev State.owesWriteBack (s : State) (a : Reg) : Bool := (s.dlar a).tagged && (s.dlar a).dirty

/-- Every byte of memory in `t` is that of `s`, but for the line of `a`, which holds the data of `a` where `a` owed a
write-back (20_memory.md R61). -/
def ReleasedMemory (s t : State) (a : Reg) : Prop :=
  ∀ x, t.mem.read x =
    if s.owesWriteBack a ∧ x / 32 = (s.dlar a).base then lineByte (s.dlar a).data (x % 32) else s.mem.read x

/-! ## Write-back and the view -/

/-- `s` and `t` differ only in what has been written back to memory: same `pc`, parameters and draws, the same Data
LARs but for their dirty bits, and the same view of every line (20_memory.md R63). -/
structure SameButWriteBack (s t : State) : Prop where
  pc : s.pc = t.pc
  params : s.params = t.params
  draws : s.draws = t.draws
  dlars : ∀ i, { s.dlar i with dirty := false } = { t.dlar i with dirty := false }
  view : ∀ L, s.viewLine L = t.viewLine L

/-! ## The end of a run -/

/-- The run is over: before a fetch, `pc` is one of the addresses the harness named (70_reset_and_hazards.md R235).
This says nothing of the chip. -/
def State.runOver (s : State) (endPcs : List Word) : Bool := endPcs.contains s.pc

end Sys2Proof.Machine
end

