-- ==== Sys2Proof/Certificates/Slice0/Obligations.lean ====
section
/-!
DEFINITION. The statements about the Snow64 model, for the provers. Each docstring names the rules of spec/ it rests on;
where a clause is the model's own choice it says so and names the entry of notes/assumptions/.

Two entries bear on most statements about one instruction. The premise that `untaggedOperand` answers none holds in every
state whose switch `untaggedStops` is off, so such a statement covers untagged operands there: the model's choice (entries
5 and 6), where 10_state.md R39 has a model fault. That all holders of a line share what is written to one of them is the
spec's own reading, not the source's (20_memory.md R60, decisions D13 and D14; entry 15).
-/

open Sys2Proof Sys2Proof.Machine

/-! ## Encoding -/

/-- Decoding the word of any instruction whose immediate fits gives the instruction back (30_encoding.md R82 to R91).
The bits an instruction does not use are written as 0 and bit 28 as the pattern has it: the spec's own readings D22 and
D23 (R91, R92; notes/assumptions/15.md, U5 and U6). -/
def Obligations.DecodeOfEncodeGivesTheInstruction : Prop :=
  ∀ i : Instr, i.wellFormed = true → decodeWord (encode i) = .ok i

/-- A word decodes to an instruction only if it selects that instruction's row (30_encoding.md R93), and then its
immediate fits (R87). That a row leaves the unused bits open and fixes bit 28 is the spec's own reading (R91, R92,
decisions D22 and D23; notes/assumptions/15.md, U5 and U6). -/
def Obligations.DecodedWordSelectsItsRow : Prop :=
  ∀ (w : IWord) (i : Instr), decodeWord w = .ok i →
    w &&& i.row.mask = i.row.pattern ∧ i.wellFormed = true ∧ i.row ∈ opcodeTable

/-- A word is invalid exactly when it selects none of the 47 rows, and no word selects two (30_encoding.md R90, R93).
That bit 28 makes a word invalid and unused bits do not is the spec's own reading (R91, R92, decisions D22 and D23;
notes/assumptions/15.md, U5 and U6). -/
def Obligations.InvalidWordsSelectNoRow : Prop :=
  (∀ w : IWord, (∃ r, decodeWord w = .error r) ↔ ∀ row ∈ opcodeTable, w &&& row.mask ≠ row.pattern) ∧
  opcodeTable.length = 47 ∧
  opcodeTable.Pairwise fun r q => ∀ w : IWord, ¬(w &&& r.mask = r.pattern ∧ w &&& q.mask = q.pattern)

/-- What the bits of a word give (30_encoding.md R82 to R86, R88, R89): bits 31:28 and the opcode, bits 15:12, or 23:20
in group 0b001, name the instruction, bits 27:24 are its `dDest` or `dA`, bits 23:20 its `dSrc0` or `dB`, bits 19:16 its
`dSrc1` or `dC` (its immediate is in `ImmediatesAreSignedAndUnscaled`); the order of the bits and the numbers of the
registers are decisions D1 and D2 (notes/assumptions/24.md). Which bits an instruction does not use (R91): encoding what
a word decodes to gives the word back with its unused bits 0. Those are bits 11:0 of ALU opcodes 0x0 to 0x9, bits 19:16
and 11:0 of `inv` and `not`, bits 23:16 of ALU opcode 0xc, bits 19:0 of `jmp`, and none of a load, a store or a relative
branch. That unused bits are ignored is the reading the spec chose (R91, decision D22) and the model takes
(notes/assumptions/15.md, U5). -/
def Obligations.EncodeOfDecodeGivesTheWord : Prop :=
  (∀ (w : IWord) (i : Instr), decodeWord w = .ok i →
    (group w = 0 → opcode w < 0xa → encode i = w &&& 0xFFFFF000) ∧
    (group w = 0 → (opcode w = 0xa ∨ opcode w = 0xb) → encode i = w &&& 0xFFF0F000) ∧
    (group w = 0 → opcode w = 0xc → encode i = w &&& 0xFF00FFFF) ∧
    (group w = 1 → ctlOpcode w = 2 → encode i = w &&& 0xFFF00000) ∧
    ((group w = 2 ∨ group w = 3 ∨ (group w = 1 ∧ ctlOpcode w < 2)) → encode i = w)) ∧
  ∀ (w : IWord) (a b c : Reg) (top o : Nat), top = w.toNat / 2 ^ 28 → o = w.toNat / 2 ^ 12 % 16 →
    a.val = w.toNat / 2 ^ 24 % 16 → b.val = w.toNat / 2 ^ 20 % 16 → c.val = w.toNat / 2 ^ 16 % 16 →
    (top = 0b0000 → ∀ f, [Instr.adds, .subs, .slts, .muls, .divs, .ands, .orrs, .xors, .shls, .shrs][o]? = some f →
      decodeWord w = .ok (f a b c)) ∧
    (top = 0b0001 → ∀ f, [Instr.addv, .subv, .sltv, .mulv, .divv, .andv, .orrv, .xorv, .shlv, .shrv][o]? = some f →
      decodeWord w = .ok (f a b c)) ∧
    (top = 0b0000 → (o = 0xa → decodeWord w = .ok (.invs a b)) ∧ (o = 0xb → decodeWord w = .ok (.nots a b)) ∧
      (o = 0xc → ∃ v, decodeWord w = .ok (.addsPc a v))) ∧
    (top = 0b0001 → (o = 0xa → decodeWord w = .ok (.invv a b)) ∧ (o = 0xb → decodeWord w = .ok (.notv a b)) ∧
      (o = 0xc → ∃ v, decodeWord w = .ok (.addvPc a v))) ∧
    (top = 0b0010 → (b.val = 0 → ∃ v, decodeWord w = .ok (.btru a v)) ∧
      (b.val = 1 → ∃ v, decodeWord w = .ok (.bfal a v)) ∧ (b.val = 2 → decodeWord w = .ok (.jmp a))) ∧
    (top = 0b0100 → ∀ p, loadInstrs[o]? = some p → ∃ v, decodeWord w = .ok (p.1 a b c v)) ∧
    (top = 0b0110 → ∀ p, storeInstrs[o]? = some p → ∃ v, decodeWord w = .ok (p.1 a b c v))

/-- The immediates (30_encoding.md R87): `simm20` is bits 19:0 of group 0b001, `simm12` is bits 11:0 of the other
groups, each signed, in its range and unscaled; in format ALU opcode 0xc alone has one, and `jmp` has none (R89, R91; the
reading D22, notes/assumptions/15.md, U5). It is added as it is in the sums of 40_alu.md R144, 41_control.md R164 and
42_load.md R170, which wrap modulo 2^64 (00_scope.md R9, decision D31). -/
def Obligations.ImmediatesAreSignedAndUnscaled : Prop :=
  (∀ (w : IWord) (i : Instr), decodeWord w = .ok i →
    (group w = 0 → (i.immediate ≠ none ↔ opcode w = 0xc)) ∧
    (group w = 1 → (i.immediate ≠ none ↔ ctlOpcode w < 2)) ∧
    (group w = 2 ∨ group w = 3 → i.immediate ≠ none) ∧
    ∀ v, i.immediate = some v →
      (group w = 1 → -524288 ≤ v ∧ v ≤ 524287 ∧
        v = (w.toNat % 2 ^ 20 : Nat) - if 2 ^ 19 ≤ w.toNat % 2 ^ 20 then (2 : Int) ^ 20 else 0) ∧
      (group w ≠ 1 → -2048 ≤ v ∧ v ≤ 2047 ∧
        v = (w.toNat % 2 ^ 12 : Nat) - if 2 ^ 11 ≤ w.toNat % 2 ^ 12 then (2 : Int) ^ 12 else 0)) ∧
  ∀ (s : State) (b c : Reg) (v : Int),
    (s.branchTarget v).toNat = ((s.pcv.toNat : Int) + v) % 2 ^ 64 ∧
    (s.pcPlus v).toNat = ((s.pcv.toNat : Int) + v) % 2 ^ 64 ∧
    (s.effectiveAddress b c v).toNat = (((s.dlar b).addr.toNat : Int) + (s.ext64 c).toNat + v) % 2 ^ 64

/-- Words of 95_test_vectors.md section 2.1, one or more of each family, decode to the instructions named there. -/
def Obligations.WordsOfTheSpecDecode : Prop :=
  decodeWord 0x01230000 = .ok (.adds du0 du1 du2) ∧
  decodeWord 0x11239000 = .ok (.shrv du0 du1 du2) ∧
  decodeWord 0x0100cffc = .ok (.addsPc du0 (-4)) ∧
  decodeWord 0x211ffff8 = .ok (.bfal du0 (-8)) ∧
  decodeWord 0x2d200000 = .ok (.jmp dlr) ∧
  decodeWord 0x42103003 = .ok (.lds16 du1 du0 dzero 3) ∧
  decodeWord 0x61126100 = .ok (.stu64 du0 du0 du1 0x100)

/-- Which words are invalid (30_encoding.md R90): the undefined opcodes of each group, bit 28 set in groups 0b001 to
0b011, and groups 0b100 to 0b111. Each executes as a NOP: only `pc` moves (60_exceptions.md R211). That bit 28 makes a word
invalid is the reading the spec chose (R92, decision D23) and the model takes (notes/assumptions/15.md, U6). -/
def Obligations.InvalidWordsAreNops : Prop :=
  (∀ w : IWord, (∃ r, decodeWord w = .error r) ↔
    (group w = 0 ∧ 0xd ≤ opcode w) ∨ (group w = 1 ∧ 0x3 ≤ ctlOpcode w) ∨
    ((group w = 2 ∨ group w = 3) ∧ 0x9 ≤ opcode w) ∨
    ((group w = 1 ∨ group w = 2 ∨ group w = 3) ∧ bit28 w = 1) ∨ 4 ≤ group w) ∧
  (∀ (s : State) (w : IWord) (r : Invalid), s.betweenInstructions.fetch = .ok w → decodeWord w = .error r →
    step s = .next { s.betweenInstructions with pc := s.betweenInstructions.pc + 4 })

/-- Laying a word out in memory in either byte order and decoding the bytes gives the word's instruction and the bytes
that follow (20_memory.md R52, R54, 30_encoding.md R80). The byte order is the open parameter `ENDIAN` (decision D6);
that it governs instruction words too is notes/assumptions/30.md. -/
def Obligations.DecodingBytesInEitherOrder : Prop :=
  ∀ (e : Endian) (w : IWord) (i : Instr) (rest : List Byte), decodeWord w = .ok i →
    decodeBytes e (wordByte e w 0 :: wordByte e w 1 :: wordByte e w 2 :: wordByte e w 3 :: rest) = .ok (i, rest)

/-! ## The step and the fetch -/

/-- A step, after the internal write-backs that are due (20_memory.md R54, R62), runs the instruction that the word at
`pc` decodes to, and where the fetch stops the step stops with the same fault: it goes no further (60_exceptions.md R213
(1) to (3); the faults of 10_state.md R35 and 20_memory.md R56, R70 and R72 are notes/assumptions/12.md and 14.md). -/
def Obligations.StepRunsTheDecodedInstruction : Prop :=
  (∀ (s : State) (w : IWord) (i : Instr), s.betweenInstructions.fetch = .ok w → decodeWord w = .ok i →
    step s = exec i s.betweenInstructions) ∧
  ∀ (s : State) (f : Fault), s.betweenInstructions.fetch = .error f → step s = .fault f

/-- Which instructions write `pc` other than by the step of 4 (10_state.md R35, R37): `btru` where the scalar of its
operand is not zero, `bfal` where it is zero, and `jmp`; every other step, of a valid or an invalid word, leaves `pc` 4
further, modulo 2^64. That a word invalid for its bit 28 alone only moves `pc` (30_encoding.md R92, decision D23, U6),
and that the zero test is of the bits also of an f16 lane (41_control.md R161, decision D28, U19), are the spec's own
readings, which the model takes (notes/assumptions/15.md). -/
def Obligations.OnlyControlTransfersWritePc : Prop :=
  ∀ s t : State, step s = .next t →
    t.pc = s.pc + 4 ∨
    ∃ w i, s.betweenInstructions.fetch = .ok w ∧ decodeWord w = .ok i ∧
      ((∃ a v, i = .btru a v ∧ s.sdata a ≠ 0) ∨ (∃ a v, i = .bfal a v ∧ s.sdata a = 0) ∨ ∃ a, i = .jmp a)

/-- The stops of the fetch, in their order, and the word it reads where none applies (60_exceptions.md R213 (1) to (3),
20_memory.md R54, R56, R70, R72): the four bytes of raw memory at `pc`, under little-endian the lowest address the least
significant, under big-endian the most significant (R52). The stops are the model faults and the stuck core that the
spec asks for where the source is silent (decisions D7, D29, D36; notes/assumptions/12.md and 14.md); the byte order is
`ENDIAN` (notes/assumptions/30.md). -/
def Obligations.FetchStopsInOrderOrReadsFourBytes : Prop :=
  ∀ s : State,
    (s.pc.toNat % 4 ≠ 0 → s.fetch = .error .misalignedPc) ∧
    (s.pc.toNat % 4 = 0 → s.backed (s.pc.toNat / 32) = false → s.fetch = .error (.unbackedLine (s.pc.toNat / 32))) ∧
    (s.pc.toNat % 4 = 0 → s.backed (s.pc.toNat / 32) = true →
      (∃ i, s.holds (s.pc.toNat / 32) i = true ∧ (s.dlar i).dirty = true) → s.fetch = .error .fetchFromDirtyLine) ∧
    (s.pc.toNat % 4 = 0 → s.backed (s.pc.toNat / 32) = true →
      (∀ i, s.holds (s.pc.toNat / 32) i = true → (s.dlar i).dirty = false) →
      ∃ w, s.fetch = .ok w ∧ (∀ j < 4, wordByte s.params.endian w j = s.mem.read (s.pc.toNat + j)) ∧
        (s.params.endian = .little → w.toNat =
          (s.mem.read s.pc.toNat).toNat + (s.mem.read (s.pc.toNat + 1)).toNat * 256 +
            (s.mem.read (s.pc.toNat + 2)).toNat * 256 ^ 2 + (s.mem.read (s.pc.toNat + 3)).toNat * 256 ^ 3) ∧
        (s.params.endian = .big → w.toNat =
          (s.mem.read s.pc.toNat).toNat * 256 ^ 3 + (s.mem.read (s.pc.toNat + 1)).toNat * 256 ^ 2 +
            (s.mem.read (s.pc.toNat + 2)).toNat * 256 + (s.mem.read (s.pc.toNat + 3)).toNat))

/-- A word placed in memory at `pc` is what the fetch reads there, in either byte order (20_memory.md R54); nothing but
those four bytes has changed. `withFetchWord` is the model's own and stands for the host's load
(notes/assumptions/22.md). The byte order is `ENDIAN` (notes/assumptions/30.md). -/
def Obligations.PlacedWordIsFetched : Prop :=
  ∀ (s : State) (w : IWord), s.pc.toNat % 4 = 0 → s.backed (s.pc.toNat / 32) = true →
    (∀ i, s.holds (s.pc.toNat / 32) i = true → (s.dlar i).dirty = false) →
    (s.withFetchWord 32 w.toNat).fetch = .ok w ∧
    (∃ m, s.withFetchWord 32 w.toNat = { s with mem := m }) ∧
    (∀ x, (x < s.pc.toNat ∨ s.pc.toNat + 4 ≤ x) → (s.withFetchWord 32 w.toNat).mem.read x = s.mem.read x)

/-- The internal write-backs that fire before an instruction are those the schedule has next (20_memory.md R62;
`State.schedule` is the model's, notes/assumptions/10.md; that a line which is not backed is left alone is
notes/assumptions/11.md). Each backed line among them that is held dirty is in memory with its holder's data and its
holders are clean; every other byte and every other field of a Data LAR stays; the schedule has moved on. No view of memory
changes, and `pc`, parameters and draws stay (R63). Where nothing is scheduled nothing happens. -/
def Obligations.EarlyWriteBackKeepsTheView : Prop :=
  (∀ s : State, s.schedule = [] → s.betweenInstructions = s) ∧
  (∀ s : State, s.Coherent →
    SameButWriteBack s s.betweenInstructions ∧
    ∀ i, (s.betweenInstructions.dlar i).dirty = true → (s.dlar i).dirty = true) ∧
  ∀ (s t : State) (lines : List Nat) (rest : List (List Nat)), s.Coherent → s.schedule = lines :: rest →
    t = s.betweenInstructions →
    t.schedule = rest ∧
    (∀ i, t.dlar i =
      if (s.dlar i).tagged = true ∧ (s.dlar i).base ∈ lines ∧ s.backed (s.dlar i).base = true then
        { s.dlar i with dirty := false }
      else s.dlar i) ∧
    (∀ (x : Nat) (h : Reg), x / 32 ∈ lines → s.backed (x / 32) = true → s.holds (x / 32) h = true →
      (s.dlar h).dirty = true → t.mem.read x = lineByte (s.dlar h).data (x % 32)) ∧
    (∀ x : Nat, (x / 32 ∉ lines ∨ s.backed (x / 32) = false ∨
        ∀ h, s.holds (x / 32) h = true → (s.dlar h).dirty = false) →
      t.mem.read x = s.mem.read x)

/-- One internal write-back step of a backed line puts the data of its dirty holder into memory and leaves every
holder of the line clean; every other byte and Data LAR stays (20_memory.md R62). -/
def Obligations.EarlyWriteBackOfOneLine : Prop :=
  ∀ (s : State) (L : Nat) (h : Reg), s.Coherent → s.holds L h = true → (s.dlar h).dirty = true →
    s.backed L = true →
    (∀ x, (s.earlyWriteBack L).mem.read x =
      if x / 32 = L then lineByte (s.dlar h).data (x % 32) else s.mem.read x) ∧
    (∀ i, (s.earlyWriteBack L).dlar i =
      if s.holds L i then { s.dlar i with dirty := false } else s.dlar i)

/-- The forced write-back of a harness (70_reset_and_hazards.md R235): no Data LAR that holds a backed line is dirty after
it; where clean lines were up to date, raw memory holds the view of every backed line; lines that are not backed keep their
bytes; and it has changed no view, no field of a Data LAR but dirty bits, and nothing else of the state. -/
def Obligations.FlushLeavesNothingDirty : Prop :=
  ∀ s : State, s.Coherent →
    SameButWriteBack s s.flush ∧ s.flush.schedule = s.schedule ∧
    (∀ i, (s.flush.dlar i).tagged = true → s.backed (s.dlar i).base = true → (s.flush.dlar i).dirty = false) ∧
    (s.CleanUpToDate → ∀ x, s.backed (x / 32) = true →
      s.flush.mem.read x = lineByte (s.viewLine (x / 32)) (x % 32)) ∧
    ∀ x, s.backed (x / 32) = false → s.flush.mem.read x = s.mem.read x

/-! ## Reset and invariants -/

/-- What a launch leaves: `pc` at the launch's `RESET_PC`, no Data LAR tagged, so none holds a line, dzero the zero
record, memory and parameters as launched (10_state.md R41, 70_reset_and_hazards.md R230). That the other fields of the
Data LARs are 0 is the model's choice (notes/assumptions/4.md), and so are `RESET_PC` = 0x1000 and the parameters of
`State.reset` (notes/assumptions/1.md to 3.md, 5.md). -/
def Obligations.LaunchLeavesNoLineHeld : Prop :=
  (∀ (p : Params) (v : Word) (m : Memory),
    (State.launch p v m).pc = v ∧ (State.launch p v m).mem = m ∧ (State.launch p v m).params = p ∧
    (∀ i, (State.launch p v m).dlar i = DataLar.zero) ∧ ∀ L i, (State.launch p v m).holds L i = false) ∧
  State.reset = State.launch Params.standard 0x1000 []

/-- The invariants hold after reset, and for every launch whose memory is canonical (20_memory.md R59: "`INV` holds at
reset"). -/
def Obligations.InvariantsHoldAtReset : Prop :=
  (∀ (p : Params) (v : Word) (m : Memory), m.wf = true →
    (State.launch p v m).mem.wf = true ∧ (State.launch p v m).Coherent ∧ (State.launch p v m).CleanUpToDate ∧
    (State.launch p v m).TagsRegular) ∧
  State.reset.mem.wf = true

/-- Every step keeps memory in canonical form. The form, and that an unlisted byte reads as 0, are the model's
(notes/assumptions/7.md). -/
def Obligations.StepKeepsMemoryCanonical : Prop :=
  ∀ s t : State, s.mem.wf = true → step s = .next t → t.mem.wf = true

/-- `INV`: every step keeps all holders of a line alike in data and dirty bit (20_memory.md R59). That holders share
data and dirty bit is the spec's own reading, not the source's (decisions D13, D14 and D16; notes/assumptions/15.md,
U18). -/
def Obligations.StepKeepsHoldersAlike : Prop :=
  ∀ s t : State, s.Coherent → step s = .next t → t.Coherent

/-- Every step keeps clean lines up to date with memory: what a clear dirty bit means (10_state.md R28). It rests on the
spec's own reading that an ALU write sets the dirty bit and holders share it (decisions D13 and D14;
notes/assumptions/15.md, U18). -/
def Obligations.StepKeepsCleanLinesUpToDate : Prop :=
  ∀ s t : State, s.Coherent → s.CleanUpToDate → step s = .next t → t.CleanUpToDate

/-- Every step keeps every tag one of the nine of 42_load.md R173. The two fields under an f16 tag are the spec's own
decision D42 (notes/assumptions/19.md). -/
def Obligations.StepKeepsTagsRegular : Prop :=
  ∀ s t : State, s.TagsRegular → step s = .next t → t.TagsRegular

/-- Nothing clears a tagged bit (10_state.md R39), and no step changes a parameter (00_scope.md R7). The tagged bit is
the spec's own addition for a model (decision D19), and `State.params` the model's form of the open parameters
(notes/assumptions/1.md). -/
def Obligations.StepKeepsTaggedBitsAndParameters : Prop :=
  ∀ s t : State, step s = .next t →
    t.params = s.params ∧ ∀ i, (s.dlar i).tagged = true → (t.dlar i).tagged = true

/-- Only a load or store changes an address, a type or a tagged bit, and only those of its `dA` (40_alu.md R113,
42_load.md R172, 43_store.md R190). -/
def Obligations.OnlyLoadsAndStoresRepointADataLar : Prop :=
  ∀ (i : Instr) (s t : State) (r : Reg), exec i s = .next t → i.repointed ≠ some r →
    (t.dlar r).addr = (s.dlar r).addr ∧ t.type r = s.type r ∧ (t.dlar r).tagged = (s.dlar r).tagged

/-- An instruction changes a byte of memory only by writing back the line its `dA` held dirty, so only a load or store
does (20_memory.md R57, R61). -/
def Obligations.MemoryChangesOnlyByRelease : Prop :=
  ∀ (i : Instr) (s t : State) (x : Nat), exec i s = .next t →
    t.mem.read x = s.mem.read x ∨
    ∃ a, i.repointed = some a ∧ s.owesWriteBack a = true ∧ (s.dlar a).base = x / 32 ∧
      s.backed (x / 32) = true ∧ t.mem.read x = lineByte (s.dlar a).data (x % 32)

/-- The stops an instruction can end in (60_exceptions.md R222): an unbacked line for loads and stores alone, a lane
count mismatch for vector instructions alone, or an untagged operand; none is refused, and none stops for `pc` or a
fetch. That none is refused is the model's choice: R222 advises refusing unused fields, bit 28, dzero as `dA`,
misaligned addresses and amounts of W or more, and the model takes the spec's own readings there
(notes/assumptions/15.md). The stuck core of 20_memory.md R72 as the fault `unbackedLine` is notes/assumptions/14.md,
the switch `untaggedStops` notes/assumptions/5.md, a mismatch with dzero as destination notes/assumptions/13.md, and
that neither a division by zero nor the `mul` note stops anything notes/assumptions/8.md and 1.md. -/
def Obligations.InstructionsStopOnlyAsListed : Prop :=
  ∀ (i : Instr) (s : State),
    (∃ t, exec i s = .next t) ∨
    (∃ L, exec i s = .fault (.unbackedLine L) ∧ s.backed L = false ∧ i.repointed ≠ none) ∨
    (∃ r ∈ i.operands, exec i s = .fault (.untaggedLarRead r) ∧ r ≠ 0 ∧ (s.dlar r).tagged = false ∧
      s.params.untaggedStops = true) ∨
    (exec i s = .fault .vectorLaneCountMismatch ∧ ∃ a, i.dest = some a ∧ ¬ s.sameLanes a i.laneSources)

/-- What is written back, and when, cannot be told from the data a program computes: from two states that differ only
in that, an instruction leaves two states that differ only in that (20_memory.md R63). -/
def Obligations.WriteBackIsUnobservable : Prop :=
  ∀ (i : Instr) (s s' t t' : State), s.Coherent → s.CleanUpToDate → s'.Coherent → s'.CleanUpToDate →
    SameButWriteBack s s' → exec i s = .next t → exec i s' = .next t' → SameButWriteBack t t'

/-! ## dzero, untagged operands, lane counts -/

/-- dzero is always the zero record and never holds a line, and an instruction that writes it only advances `pc`
(10_state.md R32). That neither `params.untaggedStops` nor different lane counts (40_alu.md R114; dzero has 32 lanes)
stop it are the premises. That all of the record is zero, and that loads and stores into dzero do nothing else, is the
spec's own reading, where it advises refusing them (R32, R183, R200, decision D18; notes/assumptions/15.md, U8); that
the lane count is asked of dzero too is notes/assumptions/13.md. -/
def Obligations.WritingDzeroOnlyAdvancesPc : Prop :=
  (∀ (s : State) (L : Nat), s.dlar 0 = DataLar.zero ∧ s.holds L 0 = false) ∧
  ∀ (i : Instr) (s : State), i.dest = some 0 → s.untaggedOperand i.operands = none →
    s.sameLanes 0 i.laneSources → exec i s = .next { s with pc := s.pc + 4 }

/-- With `params.untaggedStops` on, an instruction stops at the first untagged Data LAR among its operands, in the
order dA, dB, dC (10_state.md R39, 60_exceptions.md R213 (5)); with it off, none stops it (the switch is the model's,
notes/assumptions/5.md). -/
def Obligations.UntaggedOperandStopsWhenAsked : Prop :=
  ∀ (i : Instr) (s : State),
    (s.params.untaggedStops = true → ∀ (before after : List Reg) (r : Reg), i.operands = before ++ r :: after →
      (∀ q ∈ before, q = 0 ∨ (s.dlar q).tagged = true) → r ≠ 0 → (s.dlar r).tagged = false →
      exec i s = .fault (.untaggedLarRead r)) ∧
    (s.params.untaggedStops = false → s.untaggedOperand i.operands = none)

/-- A vector instruction whose Data LARs have different lane counts stops, whatever its destination (40_alu.md R114,
60_exceptions.md R213 (6)); that dzero, of 32 lanes, is no exception is read from the order of R114's pseudocode
(notes/assumptions/13.md). -/
def Obligations.VectorLaneCountMismatchStops : Prop :=
  (∀ i ∈ [Instr.addv, .subv, .sltv, .mulv, .divv, .andv, .orrv, .xorv, .shlv, .shrv],
    ∀ (s : State) (a b c : Reg), s.untaggedOperand [a, b, c] = none → ¬ s.sameLanes a [b, c] →
      exec (i a b c) s = .fault .vectorLaneCountMismatch) ∧
  (∀ i ∈ [Instr.invv, .notv], ∀ (s : State) (a b : Reg), s.untaggedOperand [a, b] = none →
    ¬ s.sameLanes a [b] → exec (i a b) s = .fault .vectorLaneCountMismatch)

/-! ## Lanes and casts -/

/-- Lanes and bytes (20_memory.md R52, R53): byte `j` of a line that memory gives is the byte at its address plus `j`;
lane `k` of `w` bytes is the pattern whose bytes are bytes `k*w` to `k*w + w - 1` of the line, the one at the lowest
address the least significant under little-endian and the most significant under big-endian; the scalar of a Data LAR is
the lane in which its address lies, `addr[4:log2 w]`, also where the address is no multiple of `w` (10_state.md R29,
R30: decision D9; R55: decision D5, notes/assumptions/15.md, U3); setting a lane makes it read as set and leaves every
byte outside it; a 32-bit lane is its four 8-bit lanes, in either order. The byte order is `ENDIAN` and does not bear on
the order of lanes (decision D6, notes/assumptions/30.md). -/
def Obligations.LanesLieInAddressOrder : Prop :=
  (∀ (m : Memory) (L j : Nat), j < 32 → lineByte (m.readLine L) j = m.read (32 * L + j)) ∧
  (∀ (e : Endian) (w k : Nat) (v : Line), w ∈ [1, 2, 4, 8] → k < 32 / w →
    laneOf e w v k < 256 ^ w ∧
    ∀ j < w, laneOf e w v k / 256 ^ (if e = .little then j else w - 1 - j) % 256 = (lineByte v (k * w + j)).toNat) ∧
  (∀ (s : State) (i : Reg) (w k : Nat), w = (s.type i).bytes → k = (s.dlar i).addr.toNat % 32 / w →
    w ∈ [1, 2, 4, 8] ∧ k < 32 / w ∧ s.sdata i < 256 ^ w ∧
    ∀ j < w, s.sdata i / 256 ^ (if s.params.endian = .little then j else w - 1 - j) % 256 =
      (lineByte (s.dlar i).data (k * w + j)).toNat) ∧
  (∀ (e : Endian) (w k r : Nat) (v : Line), w ∈ [1, 2, 4, 8] → k < 32 / w →
    laneOf e w (setLane e w v k r) k = r % 2 ^ (8 * w) ∧
    (∀ m < 32 / w, m ≠ k → laneOf e w (setLane e w v k r) m = laneOf e w v m) ∧
    ∀ j < 32, j / w ≠ k → lineByte (setLane e w v k r) j = lineByte v j) ∧
  (∀ (k : Nat) (v : Line), k < 8 →
    (laneOf .little 4 v k =
      laneOf .little 1 v (4 * k) + 256 * laneOf .little 1 v (4 * k + 1) + 65536 * laneOf .little 1 v (4 * k + 2) +
        16777216 * laneOf .little 1 v (4 * k + 3)) ∧
    (laneOf .big 4 v k =
      16777216 * laneOf .big 1 v (4 * k) + 65536 * laneOf .big 1 v (4 * k + 1) + 256 * laneOf .big 1 v (4 * k + 2) +
        laneOf .big 1 v (4 * k + 3))) ∧
  (∀ (k : Nat) (v : Line), k < 16 → laneOf .big 2 v k =
    256 * laneOf .big 1 v (2 * k) + laneOf .big 1 v (2 * k + 1))

/-- `type_of_int` gives the lane width of an integer tag (10_state.md R25): 8 bits for 0b00, 16 for 0b01, 32 for 0b10, 64 for
0b11. -/
def Obligations.TypeOfIntGivesTheLaneWidth : Prop :=
  ∀ d : DataLar, d.isFloat16 = false →
    (d.typeOfInt = 0b00 → d.type.width = 8) ∧ (d.typeOfInt = 0b01 → d.type.width = 16) ∧
    (d.typeOfInt = 0b10 → d.type.width = 32) ∧ (d.typeOfInt = 0b11 → d.type.width = 64)

/-- The BFloat16 format (10_state.md R23): bit 15 is the sign, bits 14:7 the exponent, bits 6:0 the mantissa, and the three
make up the pattern; a normalized number has the value of R23's formula, its negative differs in bit 15 alone, and of two
positive ones the greater has the greater pattern. The bias 127 is general knowledge and not the source's (G3,
notes/assumptions/31.md). -/
def Obligations.Bf16FormatHasSignExponentMantissa : Prop :=
  (∀ v : BitVec 16, bf16Sign v = v.getLsbD 15 ∧ (bf16Exp v).toNat = v.toNat / 2 ^ 7 % 2 ^ 8 ∧
    (bf16Mant v).toNat = v.toNat % 2 ^ 7 ∧ bf16Pack (bf16Sign v) (bf16Exp v) (bf16Mant v) = v) ∧
  (∀ (n : Bool) (e : BitVec 8) (m : BitVec 7), bf16Sign (bf16Pack n e m) = n ∧ bf16Exp (bf16Pack n e m) = e ∧
    bf16Mant (bf16Pack n e m) = m ∧
    (0 < e.toNat → e.toNat < 255 → bf16Value (bf16Pack n e m) =
      some ((-1) ^ n.toNat * 2 ^ ((e.toNat : ℤ) - 127) * (1 + (m.toNat : ℚ) / 128)))) ∧
  (∀ (v : BitVec 16) (q : ℚ), bf16Value v = some q → bf16Value (v ^^^ 0x8000) = some (-q)) ∧
  ∀ (v u : BitVec 16) (q r : ℚ), bf16Value v = some q → bf16Value u = some r → bf16Sign v = false →
    bf16Sign u = false → (q < r ↔ v.toNat < u.toNat)

/-- The cast (40_alu.md R111): between integer types a narrower or equal destination keeps the low bits, a wider one
extends by the source's signedness and not the destination's; f16 to f16 keeps the bits; the conversions between
integers and f16 are `cfg`'s, of the source's value and of the destination's width and signedness. The cast between
integers is the spec's own decision D10 (the source names it and does not define it), and `cfg` is unknown (R116,
decision D11; notes/assumptions/9.md). -/
def Obligations.CastExtendsByTheSource : Prop :=
  (∀ (zd zs : IntSize) (gd gs : Bool) (v : Nat), v < 2 ^ (LaneType.int zs gs).width →
    cast (.int zd gd) (.int zs gs) v =
      if (LaneType.int zd gd).width ≤ (LaneType.int zs gs).width then v % 2 ^ (LaneType.int zd gd).width
      else if gs = true ∧ 2 ^ ((LaneType.int zs gs).width - 1) ≤ v then
        v + 2 ^ (LaneType.int zd gd).width - 2 ^ (LaneType.int zs gs).width
      else v) ∧
  (∀ v : Nat, cast .f16 .f16 v = v) ∧
  (∀ (zs : IntSize) (v : Nat), v < 2 ^ (LaneType.int zs true).width →
    cast .f16 (.int zs false) v = (Config.bf16OfInt v).toNat ∧
    cast .f16 (.int zs true) v = (Config.bf16OfInt
      (if 2 * v < 2 ^ (LaneType.int zs true).width then v else (v : Int) - 2 ^ (LaneType.int zs true).width)).toNat) ∧
  (∀ (zd : IntSize) (gd : Bool) (v : Nat), cast (.int zd gd) .f16 v =
    (Config.intOfBf16 (BitVec.ofNat 16 v) (LaneType.int zd gd).width gd).toNat)

/-- `ext64` (42_load.md R171): the value of the scalar as an unsigned number where the Data LAR is tagged as an unsigned
integer, as a signed number where it is tagged as a signed one; where it is tagged f16, its conversion to a signed 64-bit
integer. -/
def Obligations.Ext64ExtendsByTheTag : Prop :=
  ∀ (s : State) (c : Reg),
    (∀ z, s.type c = .int z false → (s.ext64 c).toNat = s.sdata c) ∧
    (∀ z, s.type c = .int z true → (s.ext64 c).toInt =
      if 2 * s.sdata c < 2 ^ (s.type c).width then (s.sdata c : Int) else (s.sdata c : Int) - 2 ^ (s.type c).width) ∧
    (s.type c = .f16 → s.ext64 c = Config.intOfBf16 (BitVec.ofNat 16 (s.sdata c)) 64 true)

/-- The effective address (42_load.md R170): base plus index plus displacement modulo 2^64 (00_scope.md R9, decision D31),
the index being the scalar of `dC` zero-extended, sign-extended or converted by its type (R171). -/
def Obligations.EffectiveAddressSumsBaseIndexDisplacement : Prop :=
  ∀ (s : State) (b c : Reg) (simm : Int),
    (∀ z, s.type c = .int z false → (s.ext64 c).toNat = s.sdata c) ∧
    (∀ z, s.type c = .int z true →
      s.ext64 c = (BitVec.ofNat (LaneType.int z true).width (s.sdata c)).signExtend 64) ∧
    (s.type c = .f16 → s.ext64 c = Config.intOfBf16 (BitVec.ofNat 16 (s.sdata c)) 64 true) ∧
    (s.effectiveAddress b c simm).toNat =
      (((s.dlar b).addr.toNat : Int) + (s.ext64 c).toNat + simm) % 2 ^ 64

/-! ## Scalar ALU instructions: results and frames -/

/-- `adds` and `subs` (40_alu.md R120, R122): their words; the sum and the difference, first source minus second, modulo
2^W of the cast sources, or `cfg`'s for an f16 destination, in the scalar lane of the destination, everything else as
`ScalarWritten` says (R113; the sharing with other holders is R60, D13 and D14, notes/assumptions/15.md, U18); into dzero,
nothing but the advance of `pc`. Untagged operands where the switch is off: notes/assumptions/5.md and 6.md. -/
def Obligations.AddsAndSubsResult : Prop :=
  (∀ a b c : Reg, (encode (.adds a b c)).toNat = a.val * 2 ^ 24 + b.val * 2 ^ 20 + c.val * 2 ^ 16 ∧
    (encode (.subs a b c)).toNat = 0x1000 + a.val * 2 ^ 24 + b.val * 2 ^ 20 + c.val * 2 ^ 16) ∧
  ∀ (s : State) (a b c : Reg), s.untaggedOperand [a, b, c] = none →
    (a = 0 → exec (.adds a b c) s = .next { s with pc := s.pc + 4 } ∧
      exec (.subs a b c) s = .next { s with pc := s.pc + 4 }) ∧
    (a ≠ 0 →
      (∃ t, exec (.adds a b c) s = .next t ∧ ScalarWritten s t a 0
        (match s.type a with
         | .int _ _ => (s.castScalar a b + s.castScalar a c) % 2 ^ (s.type a).width
         | .f16 =>
           (Config.bf16Add (BitVec.ofNat 16 (s.castScalar a b)) (BitVec.ofNat 16 (s.castScalar a c))).toNat)) ∧
      (∃ t, exec (.subs a b c) s = .next t ∧ ScalarWritten s t a 0
        (match s.type a with
         | .int _ _ => (2 ^ (s.type a).width + s.castScalar a b - s.castScalar a c) % 2 ^ (s.type a).width
         | .f16 =>
           (Config.bf16Sub (BitVec.ofNat 16 (s.castScalar a b)) (BitVec.ofNat 16 (s.castScalar a c))).toNat)))

/-- `slts` (40_alu.md R124): 1 or 0, the cast sources compared as signed numbers exactly when the destination is tagged
signed. The comparison and the truth value of f16 are `cfg`'s (decision D34; notes/assumptions/9.md). -/
def Obligations.SltsResult : Prop :=
  ∀ (s : State) (a b c : Reg), a ≠ 0 → s.untaggedOperand [a, b, c] = none →
    ∃ t, exec (.slts a b c) s = .next t ∧ ScalarWritten s t a 0
      (match s.type a with
       | .int _ false => if s.castScalar a b < s.castScalar a c then 1 else 0
       | .int _ true =>
         if sval (s.type a).width (s.castScalar a b) < sval (s.type a).width (s.castScalar a c) then 1 else 0
       | .f16 => (Config.bf16Truth
          (Config.bf16Lt (BitVec.ofNat 16 (s.castScalar a b)) (BitVec.ofNat 16 (s.castScalar a c)))).toNat)

/-- `muls` (40_alu.md R126): the low W bits of the product of the cast sources, under `MUL_WIDEN_SIGN` = `source` or
where the destination is not wider than both integer sources; under `dest`, in a widening, both sources are widened by
the destination's signedness. The note's two readings are the open parameter `MUL_WIDEN_SIGN`; that it bears on integer
types alone is read from R126 (decision D32; notes/assumptions/20.md); f16 products are `cfg`'s
(notes/assumptions/9.md). -/
def Obligations.MulsResult : Prop :=
  ∀ (s : State) (a b c : Reg), a ≠ 0 → s.untaggedOperand [a, b, c] = none →
    ((s.params.mulWidenSign = .source ∨ widening (s.type a) (s.type b) (s.type c) = false) →
      ∃ t, exec (.muls a b c) s = .next t ∧ ScalarWritten s t a 0
        (match s.type a with
         | .int _ _ => s.castScalar a b * s.castScalar a c % 2 ^ (s.type a).width
         | .f16 => (Config.bf16Mul (BitVec.ofNat 16 (s.castScalar a b)) (BitVec.ofNat 16 (s.castScalar a c))).toNat)) ∧
    (∀ zd gd zb gb zc gc, s.params.mulWidenSign = .dest → s.type a = .int zd gd → s.type b = .int zb gb →
      s.type c = .int zc gc → (s.type b).width < (s.type a).width → (s.type c).width < (s.type a).width →
      ∃ t, exec (.muls a b c) s = .next t ∧ ScalarWritten s t a 0
        (cast (.int zd gd) (.int zb gd) (s.sdata b) * cast (.int zd gd) (.int zc gd) (s.sdata c) %
          2 ^ (s.type a).width))

/-- The two readings of the `mul` note give the same result unless the destination is wider than both sources, all three
are integers, and a source whose signedness differs from the destination's has its top bit set (40_alu.md R126). That
the note bears on integer types alone is read from R126 (decision D32; notes/assumptions/20.md). -/
def Obligations.MulReadingsAgreeOutsideTheBand : Prop :=
  ∀ (td tb tc : LaneType) (vb vc : Nat), vb < 2 ^ tb.width → vc < 2 ^ tc.width →
    mulOperation .source td tb tc vb vc = mulOperation .dest td tb tc vb vc ∨
    ∃ zd gd zb gb zc gc, td = .int zd gd ∧ tb = .int zb gb ∧ tc = .int zc gc ∧
      tb.width < td.width ∧ tc.width < td.width ∧
      ((gb ≠ gd ∧ 2 ^ (tb.width - 1) ≤ vb) ∨ (gc ≠ gd ∧ 2 ^ (tc.width - 1) ≤ vc))

/-- `divs` (40_alu.md R128): the quotient of the cast sources, toward zero, signed exactly when the destination is
tagged signed; a zero divisor gives the next free value, whatever it is, and stops nothing (notes/assumptions/8.md).
Rounding toward zero is general knowledge and not the source's (G4, notes/assumptions/27.md). -/
def Obligations.DivsResult : Prop :=
  ∀ (s : State) (a b c : Reg), a ≠ 0 → s.untaggedOperand [a, b, c] = none →
    ∃ t, exec (.divs a b c) s = .next t ∧ ScalarWritten s t a 1
      (match s.type a with
       | .int _ signed =>
         if s.castScalar a c = 0 then
           (Config.divZero s.draws (s.type a).width signed (s.castScalar a b)).toNat
         else if signed then
           trunc (s.type a).width
             ((sval (s.type a).width (s.castScalar a b)).tdiv (sval (s.type a).width (s.castScalar a c)))
         else s.castScalar a b / s.castScalar a c
       | .f16 => (Config.bf16Div (BitVec.ofNat 16 (s.castScalar a b)) (BitVec.ofNat 16 (s.castScalar a c))).toNat)

/-- The corners of signed division (40_alu.md R128): the most negative number divided by -1 is itself, and a quotient
is rounded toward zero for either sign of dividend and divisor. Rounding toward zero is general knowledge and not the
source's (G4, notes/assumptions/27.md). -/
def Obligations.SignedDivisionCorners : Prop :=
  ∀ (z : IntSize) (draw W : Nat), W = (LaneType.int z true).width →
    divLane draw (.int z true) (2 ^ (W - 1)) (2 ^ W - 1) = 2 ^ (W - 1) ∧
    ∀ x y : Nat, x < 2 ^ (W - 1) → 0 < y → y < 2 ^ (W - 1) →
      divLane draw (.int z true) x y = x / y ∧
      divLane draw (.int z true) ((2 ^ W - x) % 2 ^ W) y = (2 ^ W - x / y) % 2 ^ W ∧
      divLane draw (.int z true) x (2 ^ W - y) = (2 ^ W - x / y) % 2 ^ W ∧
      divLane draw (.int z true) ((2 ^ W - x) % 2 ^ W) (2 ^ W - y) = x / y

/-- `ands`, `orrs`, `xors` (40_alu.md R130, R132, R134): bit by bit on the cast sources, an f16 tag read as s16 (R115).
That every f16 operand is read so, whatever the destination, is the spec's own reading (decision D33;
notes/assumptions/15.md, U22). -/
def Obligations.AndsOrrsXorsResult : Prop :=
  ∀ (s : State) (a b c : Reg), a ≠ 0 → s.untaggedOperand [a, b, c] = none →
    (∃ t, exec (.ands a b c) s = .next t ∧
      ScalarWritten s t a 0 (s.castScalarBits a b &&& s.castScalarBits a c)) ∧
    (∃ t, exec (.orrs a b c) s = .next t ∧
      ScalarWritten s t a 0 (s.castScalarBits a b ||| s.castScalarBits a c)) ∧
    (∃ t, exec (.xors a b c) s = .next t ∧
      ScalarWritten s t a 0 (s.castScalarBits a b ^^^ s.castScalarBits a c))

/-- `shls` (40_alu.md R136): `x * 2^n` modulo 2^W for every amount, the amount being the cast second source. For an
amount of W or more that is 0: the spec's own reading where the source is silent and it advises refusing (decision D24;
notes/assumptions/15.md, U4). That every f16 operand is read as s16 is the spec's own reading too (R115, decision D33;
the same entry, U22). -/
def Obligations.ShlsResult : Prop :=
  ∀ (s : State) (a b c : Reg), a ≠ 0 → s.untaggedOperand [a, b, c] = none →
    ∃ t, exec (.shls a b c) s = .next t ∧
      ScalarWritten s t a 0 (s.castScalarBits a b * 2 ^ s.castScalarBits a c % 2 ^ (s.type a).width)

/-- `shrs` (40_alu.md R138): logical where the first source is unsigned, arithmetic where it is signed or f16, by the
second source read as unsigned; for every amount the floor of the value over `2^n`. For an amount of W or more that is
0, or all sign bits: the spec's own reading where the source is silent and it advises refusing (decision D24;
notes/assumptions/15.md, U4). That every f16 operand is read as s16 is the spec's own reading too (R115, decision D33;
the same entry, U22). -/
def Obligations.ShrsResult : Prop :=
  ∀ (s : State) (a b c : Reg), a ≠ 0 → s.untaggedOperand [a, b, c] = none →
    ∃ t, exec (.shrs a b c) s = .next t ∧ ScalarWritten s t a 0
      (match (s.type b).asBits with
       | .int _ false =>
         s.castScalarBits a b / 2 ^ cast (s.type a).asBits (s.type c).asBits.asUnsigned (s.sdata c)
       | _ => trunc (s.type a).width (sval (s.type a).width (s.castScalarBits a b) /
           (2 ^ cast (s.type a).asBits (s.type c).asBits.asUnsigned (s.sdata c) : Nat)))

/-- `invs` and `nots` (40_alu.md R140, R142): every bit of the cast source flipped, an f16 tag read as s16; and 1 if the
cast source is zero, else 0, f16 tags being real floats. That every f16 operand of `invs` is read so is the spec's own
reading (R115, decision D33; notes/assumptions/15.md, U22); the zero test and the truth value of f16 are `cfg`'s
(decision D34; notes/assumptions/9.md). -/
def Obligations.InvsAndNotsResult : Prop :=
  ∀ (s : State) (a b : Reg), a ≠ 0 → s.untaggedOperand [a, b] = none →
    (∃ t, exec (.invs a b) s = .next t ∧
      ScalarWritten s t a 0 (2 ^ (s.type a).width - 1 - s.castScalarBits a b)) ∧
    (∃ t, exec (.nots a b) s = .next t ∧ ScalarWritten s t a 0
      (match s.type a with
       | .int _ _ => if s.castScalar a b = 0 then 1 else 0
       | .f16 => (Config.bf16Truth (Config.bf16IsZero (BitVec.ofNat 16 (s.castScalar a b)))).toNat))

/-- `adds` and `addv` in the form `dDest, pc, simm12` (40_alu.md R144, R145): `pc + PCREL_BASE + simm12` modulo 2^64,
cut to the destination's width or converted to f16, in the scalar lane or in every lane. The conversion to f16, of the
sum as an unsigned 64-bit number, and the same value in every lane are the spec's own reading where the source says
nothing (decision D40; notes/assumptions/15.md, U21). -/
def Obligations.AddPcResult : Prop :=
  ∀ (s : State) (a : Reg) (simm : Int) (v : Nat), a ≠ 0 → s.untaggedOperand [a] = none →
    (v : Int) = ((s.pc.toNat : Int) + (if s.params.pcrelBase = .own then 0 else 4) + simm) % 2 ^ 64 →
    (∃ t, exec (.addsPc a simm) s = .next t ∧ ScalarWritten s t a 0
      (match s.type a with
       | .int _ _ => v % 2 ^ (s.type a).width
       | .f16 => (Config.bf16OfInt v).toNat)) ∧
    (∃ t, exec (.addvPc a simm) s = .next t ∧ LanesWritten s t a 0 fun _ =>
      match s.type a with
       | .int _ _ => v % 2 ^ (s.type a).width
       | .f16 => (Config.bf16OfInt v).toNat)

/-! ## Vector ALU instructions: results and frames -/

/-- `addv`, `subv`, `mulv` (40_alu.md R121, R123, R127): lane by lane, each modulo 2^W on its own, or `cfg`'s for f16.
With equal lane counts no destination is wider than its sources, so the note of R126 has no bearing on `mulv` (R127);
f16 lanes are `cfg`'s (decision D11; notes/assumptions/9.md). -/
def Obligations.AddvSubvMulvResult : Prop :=
  ∀ (s : State) (a b c : Reg), a ≠ 0 → s.untaggedOperand [a, b, c] = none → s.sameLanes a [b, c] →
    (∃ t, exec (.addv a b c) s = .next t ∧ LanesWritten s t a 0 fun k =>
      match s.type a with
      | .int _ _ => (s.castLane a b k + s.castLane a c k) % 2 ^ (s.type a).width
      | .f16 => (Config.bf16Add (BitVec.ofNat 16 (s.castLane a b k)) (BitVec.ofNat 16 (s.castLane a c k))).toNat) ∧
    (∃ t, exec (.subv a b c) s = .next t ∧ LanesWritten s t a 0 fun k =>
      match s.type a with
      | .int _ _ => (2 ^ (s.type a).width + s.castLane a b k - s.castLane a c k) % 2 ^ (s.type a).width
      | .f16 => (Config.bf16Sub (BitVec.ofNat 16 (s.castLane a b k)) (BitVec.ofNat 16 (s.castLane a c k))).toNat) ∧
    (∃ t, exec (.mulv a b c) s = .next t ∧ LanesWritten s t a 0 fun k =>
      match s.type a with
      | .int _ _ => s.castLane a b k * s.castLane a c k % 2 ^ (s.type a).width
      | .f16 => (Config.bf16Mul (BitVec.ofNat 16 (s.castLane a b k)) (BitVec.ofNat 16 (s.castLane a c k))).toNat)

/-- `sltv` and `notv` (40_alu.md R125, R143): 1 or 0 in every lane. Comparison, zero test and truth value of f16 are
`cfg`'s (decision D34; notes/assumptions/9.md). -/
def Obligations.SltvAndNotvResult : Prop :=
  (∀ (s : State) (a b c : Reg), a ≠ 0 → s.untaggedOperand [a, b, c] = none → s.sameLanes a [b, c] →
    ∃ t, exec (.sltv a b c) s = .next t ∧ LanesWritten s t a 0 fun k =>
      match s.type a with
      | .int _ false => if s.castLane a b k < s.castLane a c k then 1 else 0
      | .int _ true =>
        if sval (s.type a).width (s.castLane a b k) < sval (s.type a).width (s.castLane a c k) then 1 else 0
      | .f16 => (Config.bf16Truth
          (Config.bf16Lt (BitVec.ofNat 16 (s.castLane a b k)) (BitVec.ofNat 16 (s.castLane a c k)))).toNat) ∧
  (∀ (s : State) (a b : Reg), a ≠ 0 → s.untaggedOperand [a, b] = none → s.sameLanes a [b] →
    ∃ t, exec (.notv a b) s = .next t ∧ LanesWritten s t a 0 fun k =>
      match s.type a with
      | .int _ _ => if s.castLane a b k = 0 then 1 else 0
      | .f16 => (Config.bf16Truth (Config.bf16IsZero (BitVec.ofNat 16 (s.castLane a b k)))).toNat)

/-- `divv` (40_alu.md R129): `divs` in every lane; lane `k` takes a free value of its own where its divisor is zero, and
the other lanes are defined all the same (notes/assumptions/8.md). That signed quotients are rounded toward zero is general
knowledge and not the source's (G4, notes/assumptions/27.md). -/
def Obligations.DivvResult : Prop :=
  ∀ (s : State) (a b c : Reg), a ≠ 0 → s.untaggedOperand [a, b, c] = none → s.sameLanes a [b, c] →
    ∃ t, exec (.divv a b c) s = .next t ∧ LanesWritten s t a 32 fun k =>
      match s.type a with
      | .int _ signed =>
        if s.castLane a c k = 0 then
          (Config.divZero (s.draws + k) (s.type a).width signed (s.castLane a b k)).toNat
        else if signed then
          trunc (s.type a).width
            ((sval (s.type a).width (s.castLane a b k)).tdiv (sval (s.type a).width (s.castLane a c k)))
        else s.castLane a b k / s.castLane a c k
      | .f16 => (Config.bf16Div (BitVec.ofNat 16 (s.castLane a b k)) (BitVec.ofNat 16 (s.castLane a c k))).toNat

/-- `andv`, `orrv`, `xorv`, `invv` (40_alu.md R131, R133, R135, R141): with equal lane widths, the operation on the
whole 256-bit data fields, whatever the types. "Whatever the types" rests on the spec's own reading of every f16 operand
as s16 (R115, decision D33; notes/assumptions/15.md, U22). -/
def Obligations.BitwiseVectorsActOnTheWholeField : Prop :=
  ∀ (s : State) (a b c : Reg), a ≠ 0 → s.untaggedOperand [a, b, c] = none → s.sameLanes a [b, c] →
    (∃ t, exec (.andv a b c) s = .next t ∧ DataWritten s t a 0 ∧
      (t.dlar a).data = (s.dlar b).data &&& (s.dlar c).data) ∧
    (∃ t, exec (.orrv a b c) s = .next t ∧ DataWritten s t a 0 ∧
      (t.dlar a).data = (s.dlar b).data ||| (s.dlar c).data) ∧
    (∃ t, exec (.xorv a b c) s = .next t ∧ DataWritten s t a 0 ∧
      (t.dlar a).data = (s.dlar b).data ^^^ (s.dlar c).data) ∧
    (∃ t, exec (.invv a b) s = .next t ∧ DataWritten s t a 0 ∧ (t.dlar a).data = ~~~(s.dlar b).data)

/-- `shlv` and `shrv` (40_alu.md R137, R139): a separate amount per lane, one kind of shift, the first source's, for all
lanes; nothing moves between lanes. For a lane's amount of W or more the result is 0, or all sign bits in an arithmetic
shift: the spec's own reading where the source is silent and it advises refusing (decision D24; notes/assumptions/15.md,
U4). That every f16 operand is read as s16 is the spec's own reading too (R115, decision D33; the same entry, U22). -/
def Obligations.ShlvAndShrvResult : Prop :=
  ∀ (s : State) (a b c : Reg), a ≠ 0 → s.untaggedOperand [a, b, c] = none → s.sameLanes a [b, c] →
    (∃ t, exec (.shlv a b c) s = .next t ∧ LanesWritten s t a 0 fun k =>
      s.castLaneBits a b k * 2 ^ s.castLaneBits a c k % 2 ^ (s.type a).width) ∧
    (∃ t, exec (.shrv a b c) s = .next t ∧ LanesWritten s t a 0 fun k =>
      match (s.type b).asBits with
      | .int _ false =>
        s.castLaneBits a b k / 2 ^ cast (s.type a).asBits (s.type c).asBits.asUnsigned (s.lane c k)
      | _ => trunc (s.type a).width (sval (s.type a).width (s.castLaneBits a b k) /
          (2 ^ cast (s.type a).asBits (s.type c).asBits.asUnsigned (s.lane c k) : Nat)))

/-- An ALU instruction that writes a Data LAR writes the view of the line that Data LAR holds, and of no other line; an
untagged Data LAR holds none (20_memory.md R60, R63). That an ALU write sets the dirty bit and reaches every holder is
the spec's own reading (decisions D13 and D14; notes/assumptions/15.md, U18); that a write to an untagged Data LAR stays
private is the model's (notes/assumptions/6.md). -/
def Obligations.AluWritesTheViewOfItsLine : Prop :=
  ∀ (i : Instr) (s t : State) (a : Reg), s.Coherent → i.dest = some a → a ≠ 0 → i.repointed = none →
    exec i s = .next t →
    ((s.dlar a).tagged = true → t.viewLine (s.dlar a).base = (t.dlar a).data) ∧
    ∀ L, ((s.dlar a).tagged = false ∨ L ≠ (s.dlar a).base) → t.viewLine L = s.viewLine L

/-! ## Control -/

/-- `btru` and `bfal` (41_control.md R161, R162): where some bit of the scalar is 1 for `btru`, where every bit is 0 for
`bfal`, `pc` is `PCV + simm20` modulo 2^64, else 4 further; nothing else changes. The test is of the bits also for f16,
so negative zero counts as nonzero: the spec's own reading (decision D28; notes/assumptions/15.md, U19). -/
def Obligations.BtruAndBfalBranch : Prop :=
  ∀ (s : State) (a : Reg) (simm : Int), s.untaggedOperand [a] = none →
    exec (.btru a simm) s = .next
      { s with pc := (if s.sdata a ≠ 0 then
          s.pc + (if s.params.pcrelBase = .own then 0 else 4) + BitVec.ofInt 64 simm
        else s.pc + 4) } ∧
    exec (.bfal a simm) s = .next
      { s with pc := (if s.sdata a = 0 then
          s.pc + (if s.params.pcrelBase = .own then 0 else 4) + BitVec.ofInt 64 simm
        else s.pc + 4) }

/-- `jmp` (41_control.md R163): `pc` is the scalar extended to 64 bits by the type of `dA`; nothing else changes. The
source says `pc <= dA.sdata` and suggests a wide Data LAR: that the scalar of a narrow one is extended, and that of an
f16 one converted, by the rule of R171 is the spec's own inference (decision D27, U20), which the model takes
(notes/assumptions/29.md and 15.md). -/
def Obligations.JmpGoesToTheScalar : Prop :=
  ∀ (s : State) (a : Reg), s.untaggedOperand [a] = none →
    ∃ v : Word, exec (.jmp a) s = .next { s with pc := v } ∧
      (∀ z, s.type a = .int z false → v.toNat = s.sdata a) ∧
      (∀ z, s.type a = .int z true →
        v = (BitVec.ofNat (LaneType.int z true).width (s.sdata a)).signExtend 64) ∧
      (s.type a = .f16 → v = Config.intOfBf16 (BitVec.ofNat 16 (s.sdata a)) 64 true)

/-! ## Loads -/

/-- Every load (42_load.md R172, R173), for the nine of them: `dA` gets the effective address, the type, the three
fields `is_float_16`, `type_of_int` and `unsgn_or_sgn` of its row of R173 (1 is signed: 10_state.md R27, decision D3),
and the tagged bit; where it held the line already nothing else changes; else its old line is written back if dirty,
which cleans the other holders of that line, and it takes data and dirty bit from any holder of the new line, or the
line from memory, clean. It completes where a line it must write or read is backed (20_memory.md R72). An address that
is no multiple of the lane size is loaded from all the same: the spec's own reading, where it advises refusing (R55,
decision D5; notes/assumptions/15.md, U3). What a holder gives and what its write-back cleans rest on the sharing of
decisions D14 and D17 (the same entry, U18). The two fields under an f16 tag are decision D42 (notes/assumptions/19.md).
-/
def Obligations.LoadEffect : Prop :=
  ∀ p ∈ loadInstrs, ∀ (s : State) (a b c : Reg) (simm : Int) (ea : Word), a ≠ 0 →
    s.untaggedOperand [b, c] = none → ea = s.effectiveAddress b c simm → s.Coherent →
    (s.holds (ea.toNat / 32) a = false → s.owesWriteBack a = true → s.backed (s.dlar a).base = true) →
    ((∀ i, s.holds (ea.toNat / 32) i = false) → s.backed (ea.toNat / 32) = true) →
    ∃ t, exec (p.1 a b c simm) s = .next t ∧
      (t.dlar a).addr = ea ∧ t.type a = p.2 ∧ (t.dlar a).hasTagFields p.2 ∧ (t.dlar a).tagged = true ∧
      t.pc = s.pc + 4 ∧ t.params = s.params ∧ t.draws = s.draws ∧ t.schedule = s.schedule ∧
      (s.holds (ea.toNat / 32) a = true →
        (t.dlar a).data = (s.dlar a).data ∧ (t.dlar a).dirty = (s.dlar a).dirty ∧
        (∀ i, i ≠ a → t.dlar i = s.dlar i) ∧ ∀ x, t.mem.read x = s.mem.read x) ∧
      (s.holds (ea.toNat / 32) a = false →
        (∀ h, s.holds (ea.toNat / 32) h = true →
          (t.dlar a).data = (s.dlar h).data ∧ (t.dlar a).dirty = (s.dlar h).dirty) ∧
        ((∀ i, s.holds (ea.toNat / 32) i = false) →
          (∀ j < 32, lineByte (t.dlar a).data j = s.mem.read (32 * (ea.toNat / 32) + j)) ∧
          (t.dlar a).dirty = false) ∧
        (∀ i, i ≠ a → t.dlar i =
          if s.owesWriteBack a ∧ s.holds (s.dlar a).base i then { s.dlar i with dirty := false } else s.dlar i) ∧
        ReleasedMemory s t a)

/-- Where a load is stuck (20_memory.md R72, 42_load.md R183 (g)): the line it must write back is not backed, or else
the line it must read is held by none and not backed. The stuck core is the model's fault `unbackedLine` (decision D29;
notes/assumptions/14.md). -/
def Obligations.LoadStuckOnUnbackedLine : Prop :=
  ∀ p ∈ loadInstrs, ∀ (s : State) (a b c : Reg) (simm : Int) (ea : Word), a ≠ 0 →
    s.untaggedOperand [b, c] = none → ea = s.effectiveAddress b c simm →
    s.holds (ea.toNat / 32) a = false →
    (s.owesWriteBack a = true → s.backed (s.dlar a).base = false →
      exec (p.1 a b c simm) s = .fault (.unbackedLine (s.dlar a).base)) ∧
    ((s.owesWriteBack a = true → s.backed (s.dlar a).base = true) →
      (∀ i, s.holds (ea.toNat / 32) i = false) → s.backed (ea.toNat / 32) = false →
      exec (p.1 a b c simm) s = .fault (.unbackedLine (ea.toNat / 32)))

/-- Every load obtains the view of its line, and changes the view of no line (20_memory.md R63). It rests on the sharing
among holders, the spec's own reading (decisions D14 and D17; notes/assumptions/15.md, U18). -/
def Obligations.LoadReadsTheView : Prop :=
  ∀ p ∈ loadInstrs, ∀ (s t : State) (a b c : Reg) (simm : Int), s.Coherent → s.CleanUpToDate → a ≠ 0 →
    exec (p.1 a b c simm) s = .next t →
    (t.dlar a).data = s.viewLine ((s.effectiveAddress b c simm).toNat / 32) ∧
    ∀ L, t.viewLine L = s.viewLine L

/-! ## Stores -/

/-- Every store (43_store.md R190, 42_load.md R173), for the nine of them: `dA` keeps its data, gets the effective
address, the type and the three fields `is_float_16`, `type_of_int` and `unsgn_or_sgn` of its row of R173 (1 is signed:
10_state.md R27, decision D3), and is dirty; where it held the line already every holder of the line becomes dirty; else
its old line is written back if dirty, which cleans the other holders of that line, and every holder of the new line
takes its data and is dirty. Memory changes by that write-back alone. It completes where the line it must write back is
backed (20_memory.md R72). An address that is no multiple of the lane size is stored to all the same: the spec's own
reading, where it advises refusing (R55, decision D5; notes/assumptions/15.md, U3). That every holder takes the stored
line is the spec's own reading too (decisions D14 and D16; the same entry, U18). The two fields under an f16 tag are
decision D42 (notes/assumptions/19.md). -/
def Obligations.StoreEffect : Prop :=
  ∀ p ∈ storeInstrs, ∀ (s : State) (a b c : Reg) (simm : Int) (ea : Word), a ≠ 0 →
    s.untaggedOperand [a, b, c] = none → ea = s.effectiveAddress b c simm →
    (s.holds (ea.toNat / 32) a = false → s.owesWriteBack a = true → s.backed (s.dlar a).base = true) →
    ∃ t, exec (p.1 a b c simm) s = .next t ∧
      (t.dlar a).data = (s.dlar a).data ∧ (t.dlar a).addr = ea ∧ t.type a = p.2 ∧
      (t.dlar a).hasTagFields p.2 ∧ (t.dlar a).dirty = true ∧ (t.dlar a).tagged = true ∧
      t.pc = s.pc + 4 ∧ t.params = s.params ∧ t.draws = s.draws ∧ t.schedule = s.schedule ∧
      (s.holds (ea.toNat / 32) a = true →
        (∀ i, i ≠ a → t.dlar i =
          if s.holds (ea.toNat / 32) i then { s.dlar i with dirty := true } else s.dlar i) ∧
        ∀ x, t.mem.read x = s.mem.read x) ∧
      (s.holds (ea.toNat / 32) a = false →
        (∀ i, i ≠ a → t.dlar i =
          if s.holds (ea.toNat / 32) i then { s.dlar i with data := (s.dlar a).data, dirty := true }
          else if s.owesWriteBack a ∧ s.holds (s.dlar a).base i then { s.dlar i with dirty := false }
          else s.dlar i) ∧
        ReleasedMemory s t a)

/-- Where a store is stuck, and where it is not (20_memory.md R72, 43_store.md R200 (i)): exactly where it must write
back a line that is not backed; it completes in every other state, whether or not the line it stores to is backed. The
stuck core is the model's fault `unbackedLine` (decision D29; notes/assumptions/14.md). That it completes at an address
that is no multiple of the lane size (R55, decision D5, U3), and to a line that is not backed, where R200 (i) advises a
cautious model to refuse, are the spec's own readings, which the model takes (notes/assumptions/15.md). -/
def Obligations.StoreStuckOnUnbackedRelease : Prop :=
  ∀ p ∈ storeInstrs, ∀ (s : State) (a b c : Reg) (simm : Int), a ≠ 0 →
    s.untaggedOperand [a, b, c] = none →
    (s.holds ((s.effectiveAddress b c simm).toNat / 32) a = false ∧ s.owesWriteBack a = true ∧
        s.backed (s.dlar a).base = false →
      exec (p.1 a b c simm) s = .fault (.unbackedLine (s.dlar a).base)) ∧
    (s.holds ((s.effectiveAddress b c simm).toNat / 32) a = true ∨ s.owesWriteBack a = false ∨
        s.backed (s.dlar a).base = true →
      ∃ t, exec (p.1 a b c simm) s = .next t)

/-- After a store the view of its line is the data of `dA`, all 32 bytes of it, and the view of every other line is
unchanged (20_memory.md R63, R64, 43_store.md R200 (a)). That the stored line replaces the line for all holders is the
spec's own reading (decisions D14 and D16; notes/assumptions/15.md, U18). -/
def Obligations.StoreWritesTheViewOfItsLine : Prop :=
  ∀ p ∈ storeInstrs, ∀ (s t : State) (a b c : Reg) (simm : Int), s.Coherent → s.CleanUpToDate → a ≠ 0 →
    exec (p.1 a b c simm) s = .next t →
    ∀ L, t.viewLine L =
      if L = (s.effectiveAddress b c simm).toNat / 32 then (s.dlar a).data else s.viewLine L
end

