-- ==== Sys2Proof/Laws/Bytes.lean ====
section
/-!
SUPPORT. Laws of bytes, numbers and lanes: a number gathered from bytes gives those bytes back, a data field is its 32
bytes, and a lane that is set is the lane that is read.
-/

namespace Sys2Proof.Machine

theorem gather_lt (g : Nat → Byte) (n : Nat) : gather g n < 256 ^ n := by
  induction n with
  | zero => simp [gather]
  | succ n ih =>
    have hb : (g n).toNat ≤ 255 := by have := (g n).isLt; omega
    have := Nat.mul_le_mul_right (256 ^ n) hb
    rw [gather, Nat.pow_succ]
    omega

theorem gather_congr {g h : Nat → Byte} {n : Nat} (H : ∀ j < n, g j = h j) : gather g n = gather h n := by
  induction n with
  | zero => rfl
  | succ n ih => rw [gather, gather, ih fun j hj => H j (by omega), H n (by omega)]

/-- The bytes of a gathered number are the bytes it was gathered from. -/
theorem byteOf_gather (g : Nat → Byte) {n j : Nat} (hj : j < n) : byteOf (gather g n) j = g j := by
  induction n with
  | zero => omega
  | succ n ih =>
    rw [gather]
    rcases Nat.lt_succ_iff_lt_or_eq.mp hj with h | rfl
    · rw [← ih h]
      obtain ⟨d, rfl⟩ : ∃ d, n = j + 1 + d := ⟨n - j - 1, by omega⟩
      apply BitVec.eq_of_toNat_eq
      simp only [byteOf, BitVec.toNat_ofNat]
      rw [show 256 ^ (j + 1 + d) = 256 ^ j * (256 * 256 ^ d) by ring, Nat.mul_left_comm,
        Nat.add_mul_div_left _ _ (by positivity),
        show (g (j + 1 + d)).toNat * (256 * 256 ^ d) = 256 * ((g (j + 1 + d)).toNat * 256 ^ d) by ring]
      omega
    · apply BitVec.eq_of_toNat_eq
      simp only [byteOf, BitVec.toNat_ofNat]
      rw [Nat.add_mul_div_right _ _ (by positivity), Nat.div_eq_of_lt (gather_lt g j)]
      have := (g j).isLt
      omega

/-- Gathering the bytes of a number gives its low bytes. -/
theorem gather_byteOf (x n : Nat) : gather (byteOf x) n = x % 256 ^ n := by
  induction n with
  | zero => simp [gather, Nat.mod_one]
  | succ n ih =>
    have h := Nat.mod_mul (x := x) (a := 256 ^ n) (b := 256)
    rw [gather, ih, byteOf, BitVec.toNat_ofNat, Nat.pow_succ 256 n, h, Nat.mul_comm (256 ^ n)]

theorem byteOf_mod (x : Nat) {n j : Nat} (hj : j < n) : byteOf (x % 256 ^ n) j = byteOf x j := by
  rw [← gather_byteOf, byteOf_gather _ hj]

/-- A number below `256^n` is determined by its `n` bytes. -/
theorem eq_of_byteOf {x y n : Nat} (hx : x < 256 ^ n) (hy : y < 256 ^ n) (H : ∀ j < n, byteOf x j = byteOf y j) :
    x = y := by
  rw [← Nat.mod_eq_of_lt hx, ← Nat.mod_eq_of_lt hy, ← gather_byteOf, ← gather_byteOf, gather_congr H]

/-! ## Data fields -/

theorem lineByte_lineOfBytes (g : Nat → Byte) {j : Nat} (hj : j < 32) : lineByte (lineOfBytes g) j = g j := by
  have h : gather g 32 < 2 ^ 256 := lt_of_lt_of_eq (gather_lt g 32) (by norm_num)
  rw [lineByte, lineOfBytes, BitVec.toNat_ofNat, Nat.mod_eq_of_lt h, byteOf_gather g hj]

/-- A data field is determined by its 32 bytes. -/
theorem line_ext {u v : Line} (H : ∀ j < 32, lineByte u j = lineByte v j) : u = v := by
  apply BitVec.eq_of_toNat_eq
  have hu : u.toNat < 256 ^ 32 := lt_of_lt_of_eq u.isLt (by norm_num)
  have hv : v.toNat < 256 ^ 32 := lt_of_lt_of_eq v.isLt (by norm_num)
  exact eq_of_byteOf hu hv H

theorem lineOfBytes_lineByte (v : Line) : lineOfBytes (lineByte v) = v :=
  line_ext fun _ hj => lineByte_lineOfBytes _ hj

theorem lineOfBytes_congr {g h : Nat → Byte} (H : ∀ j < 32, g j = h j) : lineOfBytes g = lineOfBytes h := by
  rw [lineOfBytes, lineOfBytes, gather_congr H]

/-! ## Lanes -/

theorem bytePos_lt (e : Endian) {w j : Nat} (hj : j < w) : bytePos e w j < w := by
  cases e
  · exact hj
  · rw [bytePos]
    omega

theorem bytePos_bytePos (e : Endian) {w j : Nat} (hj : j < w) : bytePos e w (bytePos e w j) = j := by
  cases e
  · rfl
  · rw [bytePos, bytePos]
    omega

theorem laneOf_lt (e : Endian) (w : Nat) (v : Line) (k : Nat) : laneOf e w v k < 256 ^ w := gather_lt _ _

/-- A lane of a data field that holds the pattern `r` in its bytes is `r`. -/
theorem laneOf_eq {e : Endian} {w k r : Nat} {v : Line}
    (H : ∀ j < w, lineByte v (k * w + j) = patternByte e w r j) : laneOf e w v k = r % 256 ^ w := by
  rw [laneOf, ← gather_byteOf]
  refine gather_congr fun j hj => ?_
  rw [H _ (bytePos_lt e hj), patternByte, bytePos_bytePos e hj]

theorem lane_offset {w k j : Nat} (hj : j < w) : (k * w + j) / w = k ∧ (k * w + j) % w = j := by
  have hw : 0 < w := by omega
  constructor
  · rw [Nat.add_comm, Nat.add_mul_div_right _ _ hw, Nat.div_eq_of_lt hj, Nat.zero_add]
  · rw [Nat.add_comm, Nat.add_mul_mod_self_right, Nat.mod_eq_of_lt hj]

theorem lane_in_line {w k j : Nat} (hw : k < 32 / w) (hj : j < w) : k * w + j < 32 := by
  have h1 : (k + 1) * w ≤ 32 / w * w := Nat.mul_le_mul_right w (by omega)
  have h2 : 32 / w * w ≤ 32 := Nat.div_mul_le_self 32 w
  rw [Nat.add_mul] at h1
  omega

theorem lineByte_setLane (e : Endian) (w : Nat) (v : Line) (k r : Nat) {j : Nat} (hj : j < 32) :
    lineByte (setLane e w v k r) j = if j / w = k then patternByte e w r (j % w) else lineByte v j :=
  lineByte_lineOfBytes _ hj

theorem lineByte_lineOfLanes (e : Endian) (w : Nat) (r : Nat → Nat) {j : Nat} (hj : j < 32) :
    lineByte (lineOfLanes e w r) j = patternByte e w (r (j / w)) (j % w) :=
  lineByte_lineOfBytes _ hj

/-- The lane that was set reads as what was set. -/
theorem laneOf_setLane_same (e : Endian) {w k : Nat} (v : Line) (r : Nat) (hk : k < 32 / w) :
    laneOf e w (setLane e w v k r) k = r % 256 ^ w := by
  refine laneOf_eq fun j hj => ?_
  rw [lineByte_setLane _ _ _ _ _ (lane_in_line hk hj), (lane_offset hj).1, (lane_offset hj).2, if_pos rfl]

/-- Every other lane reads as before. -/
theorem laneOf_setLane_other (e : Endian) {w k m : Nat} (v : Line) (r : Nat) (hm : m < 32 / w) (h : m ≠ k) :
    laneOf e w (setLane e w v k r) m = laneOf e w v m := by
  refine gather_congr fun j hj => ?_
  have hp := bytePos_lt e hj
  rw [lineByte_setLane _ _ _ _ _ (lane_in_line hm hp), (lane_offset hp).1, if_neg h]

/-- Each lane of a data field made of lanes is the lane it was made of. -/
theorem laneOf_lineOfLanes (e : Endian) {w k : Nat} (r : Nat → Nat) (hk : k < 32 / w) :
    laneOf e w (lineOfLanes e w r) k = r k % 256 ^ w := by
  refine laneOf_eq fun j hj => ?_
  rw [lineByte_lineOfLanes _ _ _ (lane_in_line hk hj), (lane_offset hj).1, (lane_offset hj).2]

end Sys2Proof.Machine
end

