-- ==== Sys2Proof/Laws/Memory.lean ====
section
/-!
SUPPORT. Laws of memory: a write is read back, leaves every other address alone, and keeps the canonical form. None but
the last needs the canonical form.
-/

namespace Sys2Proof.Machine

theorem Memory.read_append (m n : Memory) (a : Nat) (h : ∀ c ∈ m, c.1 ≠ a) :
    Memory.read (m ++ n) a = Memory.read n a := by
  induction m with
  | nil => rfl
  | cons c m ih =>
    obtain ⟨k, b⟩ := c
    rw [List.cons_append, Memory.read, if_neg (h (k, b) (by simp)), ih fun c hc => h c (by simp [hc])]

theorem Memory.read_absent (m : Memory) (a : Nat) (h : ∀ c ∈ m, c.1 ≠ a) : Memory.read m a = Memory.unlisted := by
  have := Memory.read_append m [] a h
  simpa [Memory.read] using this

/-- Filtering by a property of the address that `a` has does not change what `a` reads as, whatever follows that
does not mention `a`. -/
theorem Memory.read_filter (m n : Memory) (p : Nat → Bool) (a : Nat) (hp : p a = true) (hn : ∀ c ∈ n, c.1 ≠ a) :
    Memory.read (m.filter (fun c => p c.1) ++ n) a = Memory.read m a := by
  induction m with
  | nil => simpa [Memory.read] using Memory.read_absent n a hn
  | cons c m ih =>
    obtain ⟨k, b⟩ := c
    by_cases hk : k = a
    · subst hk
      simp [hp, Memory.read]
    · by_cases hq : p k = true
      · simp only [List.filter_cons, hq, if_true, List.cons_append, Memory.read, if_neg hk]
        exact ih
      · simp only [List.filter_cons, hq, Memory.read, if_neg hk]
        exact ih

theorem Memory.cells_range {a : Nat} {g : Nat → Byte} {n : Nat} :
    ∀ c ∈ Memory.cells a g n, a ≤ c.1 ∧ c.1 < a + n := by
  induction n with
  | zero => simp [Memory.cells]
  | succ n ih =>
    intro c hc
    rw [Memory.cells, List.mem_append] at hc
    rcases hc with hc | hc
    · have := ih c hc
      omega
    · split at hc
      · simp at hc
      · simp only [List.mem_singleton] at hc
        subst hc
        simp

theorem Memory.read_cells {a : Nat} {g : Nat → Byte} {n j : Nat} (m : Memory) (hj : j < n) (hm : ∀ c ∈ m, c.1 ≠ a + j) :
    Memory.read (Memory.cells a g n ++ m) (a + j) = g j := by
  induction n generalizing m with
  | zero => omega
  | succ n ih =>
    rw [Memory.cells, List.append_assoc]
    rcases Nat.lt_succ_iff_lt_or_eq.mp hj with h | rfl
    · refine ih _ h fun c hc => ?_
      rw [List.mem_append] at hc
      rcases hc with hc | hc
      · split at hc
        · simp at hc
        · simp only [List.mem_singleton] at hc
          subst hc
          simp only [ne_eq]
          omega
      · exact hm c hc
    · rw [Memory.read_append _ _ _ fun c hc => by have := Memory.cells_range c hc; omega]
      split
      · rename_i h0
        rw [List.nil_append, Memory.read_absent _ _ hm, h0]
      · simp [Memory.read]

/-- A byte that was written reads as what was written. -/
theorem Memory.read_write_same (m : Memory) (a n : Nat) (g : Nat → Byte) {j : Nat} (hj : j < n) :
    (m.write a n g).read (a + j) = g j := by
  rw [Memory.write, List.append_assoc, Memory.read_append]
  · exact Memory.read_cells _ hj fun c hc => by
      have := (List.mem_filter.mp hc).2
      simp only [decide_eq_true_eq] at this
      omega
  · intro c hc
    have := (List.mem_filter.mp hc).2
    simp only [decide_eq_true_eq] at this
    omega

/-- Every other byte reads as before. -/
theorem Memory.read_write_other (m : Memory) (a n : Nat) (g : Nat → Byte) {x : Nat} (hx : x < a ∨ a + n ≤ x) :
    (m.write a n g).read x = m.read x := by
  rcases hx with hx | hx
  · rw [Memory.write, List.append_assoc]
    refine Memory.read_filter m _ (fun k => decide (k < a)) x (by simpa using hx) fun c hc => ?_
    rw [List.mem_append] at hc
    rcases hc with hc | hc
    · have := Memory.cells_range c hc
      omega
    · have := (List.mem_filter.mp hc).2
      simp only [decide_eq_true_eq] at this
      omega
  · rw [Memory.write, Memory.read_append]
    · simpa using Memory.read_filter m [] (fun k => decide (a + n ≤ k)) x (by simpa using hx) (by simp)
    · intro c hc
      rw [List.mem_append] at hc
      rcases hc with hc | hc
      · have := (List.mem_filter.mp hc).2
        simp only [decide_eq_true_eq] at this
        omega
      · have := Memory.cells_range c hc
        omega

/-! ## Lines -/

theorem Memory.lineByte_readLine (m : Memory) (L : Nat) {j : Nat} (hj : j < 32) :
    lineByte (m.readLine L) j = m.read (32 * L + j) :=
  lineByte_lineOfBytes _ hj

/-- A line that was written reads as what was written. -/
@[simp] theorem Memory.readLine_writeLine_same (m : Memory) (L : Nat) (v : Line) :
    (m.writeLine L v).readLine L = v :=
  line_ext fun j hj => by
    rw [Memory.lineByte_readLine _ _ hj, Memory.writeLine, Memory.read_write_same _ _ _ _ hj]

/-- Every other line reads as before. -/
theorem Memory.readLine_writeLine_other (m : Memory) {L K : Nat} (v : Line) (h : K ≠ L) :
    (m.writeLine L v).readLine K = m.readLine K :=
  lineOfBytes_congr fun j hj => Memory.read_write_other _ _ _ _ (by omega)

theorem Memory.read_writeLine (m : Memory) (L : Nat) (v : Line) (x : Nat) :
    (m.writeLine L v).read x = if x / 32 = L then lineByte v (x % 32) else m.read x := by
  split
  · rename_i h
    have hx : x = 32 * L + x % 32 := by omega
    conv_lhs => rw [hx]
    exact Memory.read_write_same _ _ _ _ (by omega)
  · exact Memory.read_write_other _ _ _ _ (by omega)

/-! ## The canonical form -/

theorem Memory.wf_iff (m : Memory) :
    m.wf = true ↔ m.Pairwise (fun c d => c.1 < d.1) ∧ ∀ c ∈ m, c.1 < 2 ^ 64 ∧ c.2 ≠ Memory.unlisted := by
  simp [Memory.wf]

theorem Memory.cells_pairwise (a : Nat) (g : Nat → Byte) (n : Nat) :
    (Memory.cells a g n).Pairwise fun c d => c.1 < d.1 := by
  induction n with
  | zero => simp [Memory.cells]
  | succ n ih =>
    rw [Memory.cells, List.pairwise_append]
    refine ⟨ih, by split <;> simp, fun c hc d hd => ?_⟩
    have := Memory.cells_range c hc
    split at hd
    · simp at hd
    · simp only [List.mem_singleton] at hd
      subst hd
      exact this.2

theorem Memory.cells_listed (a : Nat) (g : Nat → Byte) (n : Nat) :
    ∀ c ∈ Memory.cells a g n, c.2 ≠ Memory.unlisted := by
  induction n with
  | zero => simp [Memory.cells]
  | succ n ih =>
    intro c hc
    rw [Memory.cells, List.mem_append] at hc
    rcases hc with hc | hc
    · exact ih c hc
    · split at hc
      · simp at hc
      · rename_i h
        simp only [List.mem_singleton] at hc
        subst hc
        exact h

/-- A write keeps the canonical form. -/
theorem Memory.wf_write {m : Memory} (h : m.wf = true) {a n : Nat} (ha : a + n ≤ 2 ^ 64) (g : Nat → Byte) :
    (m.write a n g).wf = true := by
  rw [Memory.wf_iff] at h ⊢
  obtain ⟨hs, hb⟩ := h
  refine ⟨?_, fun c hc => ?_⟩
  · rw [Memory.write, List.pairwise_append, List.pairwise_append]
    refine ⟨⟨hs.filter _, Memory.cells_pairwise a g n, fun c hc d hd => ?_⟩, hs.filter _, fun c hc d hd => ?_⟩
    · have h1 := (List.mem_filter.mp hc).2
      have h2 := Memory.cells_range d hd
      simp only [decide_eq_true_eq] at h1
      omega
    · have h2 := (List.mem_filter.mp hd).2
      simp only [decide_eq_true_eq] at h2
      rw [List.mem_append] at hc
      rcases hc with hc | hc
      · have h1 := (List.mem_filter.mp hc).2
        simp only [decide_eq_true_eq] at h1
        omega
      · have h1 := Memory.cells_range c hc
        omega
  · rw [Memory.write, List.mem_append, List.mem_append] at hc
    rcases hc with (hc | hc) | hc
    · exact hb c (List.mem_filter.mp hc).1
    · exact ⟨by have := Memory.cells_range c hc; omega, Memory.cells_listed a g n c hc⟩
    · exact hb c (List.mem_filter.mp hc).1

/-- Writing a line of the 64-bit space keeps the canonical form. -/
theorem Memory.wf_writeLine {m : Memory} (h : m.wf = true) {L : Nat} (hL : L < 2 ^ 59) (v : Line) :
    (m.writeLine L v).wf = true :=
  Memory.wf_write h (by omega) _

theorem lineNumber_lt (a : Word) : lineNumber a < 2 ^ 59 := by
  have := a.isLt
  rw [lineNumber]
  omega

end Sys2Proof.Machine
end

