-- ==== Sys2Proof/Laws/State.lean ====
section
/-!
SUPPORT. One lemma per field per update of State, so that no proof unfolds a record update; and what each update of
the Data LARs leaves in each of them.
-/

namespace Sys2Proof.Machine

/-! ## dzero -/

@[simp] theorem State.dlar_dzero (s : State) : s.dlar 0 = DataLar.zero := rfl
@[simp] theorem DataLar.zero_tagged : DataLar.zero.tagged = false := rfl
@[simp] theorem State.holds_dzero (s : State) (L : Nat) : s.holds L 0 = false := rfl

/-! ## withDlars and setDlar -/

@[simp] theorem State.withDlars_pc (s : State) (f : Reg → DataLar) : (s.withDlars f).pc = s.pc := by
  simp only [State.withDlars]
@[simp] theorem State.withDlars_mem (s : State) (f : Reg → DataLar) : (s.withDlars f).mem = s.mem := by
  simp only [State.withDlars]
@[simp] theorem State.withDlars_params (s : State) (f : Reg → DataLar) : (s.withDlars f).params = s.params := by
  simp only [State.withDlars]
@[simp] theorem State.withDlars_draws (s : State) (f : Reg → DataLar) : (s.withDlars f).draws = s.draws := by
  simp only [State.withDlars]
@[simp] theorem State.withDlars_schedule (s : State) (f : Reg → DataLar) :
    (s.withDlars f).schedule = s.schedule := by
  simp only [State.withDlars]

@[simp] theorem State.withDlars_dlar (s : State) (f : Reg → DataLar) (i : Reg) :
    (s.withDlars f).dlar i = if i = 0 then DataLar.zero else f i := by
  unfold State.dlar State.withDlars
  split
  · rfl
  · rename_i h
    simp [h]

/-- Where `f` gives dzero the zero record, the Data LARs are exactly `f`. -/
theorem State.withDlars_dlar_of (s : State) {f : Reg → DataLar} (hf : f 0 = DataLar.zero) (i : Reg) :
    (s.withDlars f).dlar i = f i := by
  rw [State.withDlars_dlar]
  split
  · rename_i h
    rw [h, hf]
  · rfl

@[simp] theorem State.setDlar_pc (s : State) (a : Reg) (d : DataLar) : (s.setDlar a d).pc = s.pc := by
  rw [State.setDlar, State.withDlars_pc]
@[simp] theorem State.setDlar_mem (s : State) (a : Reg) (d : DataLar) : (s.setDlar a d).mem = s.mem := by
  rw [State.setDlar, State.withDlars_mem]
@[simp] theorem State.setDlar_params (s : State) (a : Reg) (d : DataLar) : (s.setDlar a d).params = s.params := by
  rw [State.setDlar, State.withDlars_params]
@[simp] theorem State.setDlar_draws (s : State) (a : Reg) (d : DataLar) : (s.setDlar a d).draws = s.draws := by
  rw [State.setDlar, State.withDlars_draws]
@[simp] theorem State.setDlar_schedule (s : State) (a : Reg) (d : DataLar) :
    (s.setDlar a d).schedule = s.schedule := by
  rw [State.setDlar, State.withDlars_schedule]

theorem State.setDlar_dlar (s : State) {a : Reg} (ha : a ≠ 0) (d : DataLar) (i : Reg) :
    (s.setDlar a d).dlar i = if i = a then d else s.dlar i := by
  rw [State.setDlar, State.withDlars_dlar_of]
  rw [if_neg (Ne.symm ha), State.dlar_dzero]

@[simp] theorem State.setDlar_dlar_same (s : State) {a : Reg} (ha : a ≠ 0) (d : DataLar) :
    (s.setDlar a d).dlar a = d := by
  rw [State.setDlar_dlar s ha, if_pos rfl]

theorem State.setDlar_dlar_other (s : State) (a : Reg) (d : DataLar) {i : Reg} (h : i ≠ a) :
    (s.setDlar a d).dlar i = s.dlar i := by
  rw [State.setDlar, State.withDlars_dlar, if_neg h]
  split
  · rename_i h0
    rw [h0, State.dlar_dzero]
  · rfl

/-! ## pc -/

@[simp] theorem State.setPc_pc (s : State) (v : Word) : (s.setPc v).pc = v := rfl
@[simp] theorem State.setPc_mem (s : State) (v : Word) : (s.setPc v).mem = s.mem := rfl
@[simp] theorem State.setPc_params (s : State) (v : Word) : (s.setPc v).params = s.params := rfl
@[simp] theorem State.setPc_draws (s : State) (v : Word) : (s.setPc v).draws = s.draws := rfl
@[simp] theorem State.setPc_schedule (s : State) (v : Word) : (s.setPc v).schedule = s.schedule := rfl
@[simp] theorem State.setPc_dlar (s : State) (v : Word) (i : Reg) : (s.setPc v).dlar i = s.dlar i := rfl
@[simp] theorem State.advance_pc (s : State) : s.advance.pc = s.pc + 4 := rfl
@[simp] theorem State.advance_mem (s : State) : s.advance.mem = s.mem := rfl
@[simp] theorem State.advance_params (s : State) : s.advance.params = s.params := rfl
@[simp] theorem State.advance_draws (s : State) : s.advance.draws = s.draws := rfl
@[simp] theorem State.advance_schedule (s : State) : s.advance.schedule = s.schedule := rfl
@[simp] theorem State.advance_dlar (s : State) (i : Reg) : s.advance.dlar i = s.dlar i := rfl
@[simp] theorem State.advance_type (s : State) (i : Reg) : s.advance.type i = s.type i := rfl
@[simp] theorem State.advance_lane (s : State) (i : Reg) (k : Nat) : s.advance.lane i k = s.lane i k := rfl
@[simp] theorem State.advance_sdata (s : State) (i : Reg) : s.advance.sdata i = s.sdata i := rfl
@[simp] theorem State.advance_holds (s : State) (L : Nat) : s.advance.holds L = s.holds L := rfl
@[simp] theorem State.advance_viewLine (s : State) (L : Nat) : s.advance.viewLine L = s.viewLine L := rfl

/-! ## Draws -/

@[simp] theorem State.takeDraws_pc (s : State) (a : Reg) (n : Nat) : (s.takeDraws a n).pc = s.pc := by
  unfold State.takeDraws
  split <;> rfl
@[simp] theorem State.takeDraws_mem (s : State) (a : Reg) (n : Nat) : (s.takeDraws a n).mem = s.mem := by
  unfold State.takeDraws
  split <;> rfl
@[simp] theorem State.takeDraws_params (s : State) (a : Reg) (n : Nat) : (s.takeDraws a n).params = s.params := by
  unfold State.takeDraws
  split <;> rfl
@[simp] theorem State.takeDraws_schedule (s : State) (a : Reg) (n : Nat) :
    (s.takeDraws a n).schedule = s.schedule := by
  unfold State.takeDraws
  split <;> rfl
@[simp] theorem State.takeDraws_dlar (s : State) (a : Reg) (n : Nat) (i : Reg) :
    (s.takeDraws a n).dlar i = s.dlar i := by
  unfold State.takeDraws
  split <;> rfl
theorem State.takeDraws_draws (s : State) {a : Reg} (ha : a ≠ 0) (n : Nat) :
    (s.takeDraws a n).draws = s.draws + n := by
  rw [State.takeDraws, if_neg ha]
@[simp] theorem State.takeDraws_dzero (s : State) (n : Nat) : s.takeDraws 0 n = s := rfl

/-! ## Memory -/

@[simp] theorem State.setMem_mem (s : State) (m : Memory) : (s.setMem m).mem = m := rfl
@[simp] theorem State.setMem_pc (s : State) (m : Memory) : (s.setMem m).pc = s.pc := rfl
@[simp] theorem State.setMem_params (s : State) (m : Memory) : (s.setMem m).params = s.params := rfl
@[simp] theorem State.setMem_draws (s : State) (m : Memory) : (s.setMem m).draws = s.draws := rfl
@[simp] theorem State.setMem_schedule (s : State) (m : Memory) : (s.setMem m).schedule = s.schedule := rfl
@[simp] theorem State.setMem_dlar (s : State) (m : Memory) (i : Reg) : (s.setMem m).dlar i = s.dlar i := rfl

@[simp] theorem State.placeWord_mem (s : State) (w : IWord) :
    (s.placeWord w).mem = s.mem.write s.pc.toNat 4 (wordByte s.params.endian w) := rfl
@[simp] theorem State.placeWord_pc (s : State) (w : IWord) : (s.placeWord w).pc = s.pc := rfl
@[simp] theorem State.placeWord_dlar (s : State) (w : IWord) (i : Reg) : (s.placeWord w).dlar i = s.dlar i := rfl

/-! ## Launch -/

@[simp] theorem State.launch_dlar (p : Params) (v : Word) (m : Memory) (i : Reg) :
    (State.launch p v m).dlar i = DataLar.zero := by
  unfold State.dlar State.launch
  split <;> simp

/-! ## Tags -/

@[simp] theorem intSize_code (z : IntSize) : intSize z.code = z := by cases z <;> rfl

@[simp] theorem DataLar.retype_type (d : DataLar) (t : LaneType) : (d.retype t).type = t := by
  cases t <;> simp [DataLar.retype, DataLar.type]
@[simp] theorem DataLar.retype_data (d : DataLar) (t : LaneType) : (d.retype t).data = d.data := by cases t <;> rfl
@[simp] theorem DataLar.retype_addr (d : DataLar) (t : LaneType) : (d.retype t).addr = d.addr := by cases t <;> rfl
@[simp] theorem DataLar.retype_dirty (d : DataLar) (t : LaneType) : (d.retype t).dirty = d.dirty := by cases t <;> rfl
@[simp] theorem DataLar.retype_tagged (d : DataLar) (t : LaneType) : (d.retype t).tagged = d.tagged := by
  cases t <;> rfl

theorem LaneType.bytes_pos (t : LaneType) : 0 < t.bytes := by
  cases t with
  | int z _ => cases z <;> simp [LaneType.bytes]
  | f16 => simp [LaneType.bytes]

/-- The scalar's lane index is in range (10_state.md R29). -/
theorem DataLar.idx_lt (d : DataLar) : d.idx < 32 / d.type.bytes := by
  have h : d.addr.toNat % 32 < 32 := Nat.mod_lt _ (by omega)
  rw [DataLar.idx]
  generalize d.type = t
  cases t with
  | int z _ => cases z <;> simp only [LaneType.bytes] <;> omega
  | f16 => simp only [LaneType.bytes]; omega

@[simp] theorem LaneType.asBits_bytes (t : LaneType) : t.asBits.bytes = t.bytes := by cases t <;> rfl
@[simp] theorem LaneType.asBits_width (t : LaneType) : t.asBits.width = t.width := by cases t <;> rfl

end Sys2Proof.Machine
end

