-- ==== Sys2Proof/Laws/Ops.lean ====
section
/-!
SUPPORT. One lemma for each shared operation that says everything it can do: holders and the view, writing data,
write-back, release, the load's acquire, the store's stage, the schemes of the ALU.
-/

namespace Sys2Proof.Machine

/-! ## Operands -/

/-- With the switch off no operand stops an instruction. -/
theorem State.untaggedOperand_off {s : State} (h : s.params.untaggedStops = false) (l : List Reg) :
    s.untaggedOperand l = none := by
  simp [State.untaggedOperand, h]

theorem State.checked_of_none {s : State} {l : List Reg} (h : s.untaggedOperand l = none) (o : Outcome) :
    s.checked l o = o := by
  rw [State.checked, h]

theorem State.checked_of_some {s : State} {l : List Reg} {i : Reg} (h : s.untaggedOperand l = some i) (o : Outcome) :
    s.checked l o = .fault (.untaggedLarRead i) := by
  rw [State.checked, h]

/-- An instruction that is checked either stops at an untagged operand or does what it does. -/
theorem State.checked_cases (s : State) (l : List Reg) (o : Outcome) :
    (∃ i, s.untaggedOperand l = some i ∧ s.checked l o = .fault (.untaggedLarRead i)) ∨
    (s.untaggedOperand l = none ∧ s.checked l o = o) := by
  cases h : s.untaggedOperand l with
  | some i => exact Or.inl ⟨i, rfl, State.checked_of_some h o⟩
  | none => exact Or.inr ⟨rfl, State.checked_of_none h o⟩

/-! ## Holders and the view -/

theorem State.holds_iff {s : State} {L : Nat} {i : Reg} :
    s.holds L i = true ↔ (s.dlar i).tagged = true ∧ (s.dlar i).base = L := by
  simp [State.holds]

theorem State.holds_ne_dzero {s : State} {L : Nat} {i : Reg} (h : s.holds L i = true) : i ≠ 0 := by
  rintro rfl
  simp at h

/-- A holder the search finds does hold the line. -/
theorem State.holds_of_holder {s : State} {L : Nat} {h : Reg} (H : s.holder L = some h) : s.holds L h = true :=
  List.find?_some H

/-- The search finds nothing exactly when nothing holds the line. -/
theorem State.holder_none {s : State} {L : Nat} : s.holder L = none ↔ ∀ i, s.holds L i = false := by
  simp [State.holder, List.find?_eq_none]

theorem State.dirtyHolder_some {s : State} {L : Nat} {h : Reg} (H : s.dirtyHolder L = some h) :
    s.holds L h = true ∧ (s.dlar h).dirty = true := by
  have := List.find?_some H
  simpa using this

theorem State.dirtyHolder_none {s : State} {L : Nat} :
    s.dirtyHolder L = none ↔ ∀ i, s.holds L i = true → (s.dlar i).dirty = false := by
  simp [State.dirtyHolder, List.find?_eq_none]

theorem State.dirtyHolder_isSome {s : State} {L : Nat} :
    (s.dirtyHolder L).isSome = true ↔ ∃ i, s.holds L i = true ∧ (s.dlar i).dirty = true := by
  simp [State.dirtyHolder, List.find?_isSome]

/-- Where the holders agree, the view of a line is the data of any of them (20_memory.md R63). -/
theorem State.viewLine_of_holds {s : State} (hc : s.Coherent) {L : Nat} {i : Reg} (h : s.holds L i = true) :
    s.viewLine L = (s.dlar i).data := by
  unfold State.viewLine
  split
  · rename_i k hk
    have h1 := State.holds_iff.mp (State.holds_of_holder hk)
    have h2 := State.holds_iff.mp h
    exact (hc k i h1.1 h2.1 (h1.2.trans h2.2.symm)).1
  · rename_i hn
    rw [State.holder_none] at hn
    simp [hn i] at h

/-- The view of a line nothing holds is memory (20_memory.md R63). -/
theorem State.viewLine_of_none {s : State} {L : Nat} (h : ∀ i, s.holds L i = false) :
    s.viewLine L = s.mem.readLine L := by
  unfold State.viewLine
  rw [State.holder_none.mpr h]

/-! ## Writing data -/

theorem State.aliases_self (s : State) (a : Reg) : s.aliases a a = true := by simp [State.aliases]

theorem State.aliases_dzero (s : State) {a : Reg} (ha : a ≠ 0) : s.aliases a 0 = false := by
  simp [State.aliases, Ne.symm ha]

/-- For a tagged Data LAR, taking part in a write is holding its line. -/
theorem State.aliases_of_tagged {s : State} {a i : Reg} (ht : (s.dlar a).tagged = true) :
    s.aliases a i = s.holds (s.dlar a).base i := by
  by_cases h : i = a
  · subst h
    simp [State.aliases, State.holds, ht]
  · simp [State.aliases, h, ht]

/-- An untagged Data LAR takes part in its own writes alone. -/
theorem State.aliases_of_untagged {s : State} {a i : Reg} (ht : (s.dlar a).tagged = false) :
    s.aliases a i = (i == a) := by
  simp [State.aliases, ht]

@[simp] theorem State.setData_dzero (s : State) (v : Line) : s.setData 0 v = s := rfl

theorem State.setData_dlar (s : State) {a : Reg} (ha : a ≠ 0) (v : Line) (i : Reg) :
    (s.setData a v).dlar i =
      if s.aliases a i then { s.dlar i with data := v, dirty := true } else s.dlar i := by
  rw [State.setData, if_neg ha, State.withDlars_dlar_of]
  simp [State.aliases_dzero s ha]

@[simp] theorem State.setData_pc (s : State) (a : Reg) (v : Line) : (s.setData a v).pc = s.pc := by
  unfold State.setData
  split
  · rfl
  · rw [State.withDlars_pc]
@[simp] theorem State.setData_mem (s : State) (a : Reg) (v : Line) : (s.setData a v).mem = s.mem := by
  unfold State.setData
  split
  · rfl
  · rw [State.withDlars_mem]
@[simp] theorem State.setData_params (s : State) (a : Reg) (v : Line) : (s.setData a v).params = s.params := by
  unfold State.setData
  split
  · rfl
  · rw [State.withDlars_params]
@[simp] theorem State.setData_draws (s : State) (a : Reg) (v : Line) : (s.setData a v).draws = s.draws := by
  unfold State.setData
  split
  · rfl
  · rw [State.withDlars_draws]
@[simp] theorem State.setData_schedule (s : State) (a : Reg) (v : Line) :
    (s.setData a v).schedule = s.schedule := by
  unfold State.setData
  split
  · rfl
  · rw [State.withDlars_schedule]

/-- A write of data changes no address. -/
@[simp] theorem State.setData_addr (s : State) (a : Reg) (v : Line) (i : Reg) :
    ((s.setData a v).dlar i).addr = (s.dlar i).addr := by
  by_cases ha : a = 0
  · rw [ha, State.setData_dzero]
  · rw [State.setData_dlar s ha]
    split <;> rfl

@[simp] theorem State.setData_tagged (s : State) (a : Reg) (v : Line) (i : Reg) :
    ((s.setData a v).dlar i).tagged = (s.dlar i).tagged := by
  by_cases ha : a = 0
  · rw [ha, State.setData_dzero]
  · rw [State.setData_dlar s ha]
    split <;> rfl

@[simp] theorem State.setData_type (s : State) (a : Reg) (v : Line) (i : Reg) :
    (s.setData a v).type i = s.type i := by
  by_cases ha : a = 0
  · rw [ha, State.setData_dzero]
  · rw [State.type, State.setData_dlar s ha]
    split <;> rfl

@[simp] theorem State.setData_idx (s : State) (a : Reg) (v : Line) (i : Reg) :
    ((s.setData a v).dlar i).idx = (s.dlar i).idx := by
  by_cases ha : a = 0
  · rw [ha, State.setData_dzero]
  · rw [State.setData_dlar s ha]
    split <;> rfl

/-- The Data LAR written to has the data. -/
theorem State.setData_data_self (s : State) {a : Reg} (ha : a ≠ 0) (v : Line) :
    ((s.setData a v).dlar a).data = v := by
  rw [State.setData_dlar s ha, if_pos (State.aliases_self s a)]

@[simp] theorem State.setData_holds (s : State) (a : Reg) (v : Line) (L : Nat) (i : Reg) :
    (s.setData a v).holds L i = s.holds L i := by
  simp [State.holds, DataLar.base]

/-- What an ALU write leaves, in the terms of the statements. -/
theorem dataWritten_setData (s : State) {a : Reg} (ha : a ≠ 0) (v : Line) (n : Nat) :
    DataWritten s ((s.takeDraws a n).setData a v).advance a n := by
  have hal : ∀ i, (s.takeDraws a n).aliases a i = s.aliases a i := by
    intro i
    simp [State.aliases, State.holds]
  have hd : ∀ i, ((s.takeDraws a n).setData a v).dlar i =
      if s.aliases a i then { s.dlar i with data := v, dirty := true } else s.dlar i := by
    intro i
    rw [State.setData_dlar _ ha, hal]
    simp
  constructor
  · intro i hi
    simp [hd, hi, State.aliases_self]
  · intro i hi
    simp [hd, hi]
  all_goals simp [State.takeDraws_draws _ ha]

/-! ## Write-back -/

theorem State.writeBack_dlar (s : State) (L : Nat) (v : Line) (i : Reg) :
    (s.writeBack L v).dlar i = if s.holds L i then { s.dlar i with dirty := false } else s.dlar i := by
  rw [State.writeBack, State.setMem_dlar, State.withDlars_dlar_of]
  simp

@[simp] theorem State.writeBack_pc (s : State) (L : Nat) (v : Line) :
    (s.writeBack L v).pc = s.pc := by
  rw [State.writeBack, State.setMem_pc, State.withDlars_pc]
@[simp] theorem State.writeBack_mem (s : State) (L : Nat) (v : Line) :
    (s.writeBack L v).mem = s.mem.writeLine L v := by
  rw [State.writeBack, State.setMem_mem]
@[simp] theorem State.writeBack_params (s : State) (L : Nat) (v : Line) :
    (s.writeBack L v).params = s.params := by
  rw [State.writeBack, State.setMem_params, State.withDlars_params]
@[simp] theorem State.writeBack_draws (s : State) (L : Nat) (v : Line) :
    (s.writeBack L v).draws = s.draws := by
  rw [State.writeBack, State.setMem_draws, State.withDlars_draws]
@[simp] theorem State.writeBack_schedule (s : State) (L : Nat) (v : Line) :
    (s.writeBack L v).schedule = s.schedule := by
  rw [State.writeBack, State.setMem_schedule, State.withDlars_schedule]

@[simp] theorem State.writeBack_data (s : State) (L : Nat) (v : Line) (i : Reg) :
    ((s.writeBack L v).dlar i).data = (s.dlar i).data := by
  rw [State.writeBack_dlar]
  split <;> rfl
@[simp] theorem State.writeBack_addr (s : State) (L : Nat) (v : Line) (i : Reg) :
    ((s.writeBack L v).dlar i).addr = (s.dlar i).addr := by
  rw [State.writeBack_dlar]
  split <;> rfl
@[simp] theorem State.writeBack_tagged (s : State) (L : Nat) (v : Line) (i : Reg) :
    ((s.writeBack L v).dlar i).tagged = (s.dlar i).tagged := by
  rw [State.writeBack_dlar]
  split <;> rfl
@[simp] theorem State.writeBack_type (s : State) (L : Nat) (v : Line) (i : Reg) :
    (s.writeBack L v).type i = s.type i := by
  rw [State.type, State.writeBack_dlar]
  split <;> rfl
@[simp] theorem State.writeBack_base (s : State) (L : Nat) (v : Line) (i : Reg) :
    ((s.writeBack L v).dlar i).base = (s.dlar i).base := by
  simp [DataLar.base]
@[simp] theorem State.writeBack_holds (s : State) (L : Nat) (v : Line) (K : Nat) (i : Reg) :
    (s.writeBack L v).holds K i = s.holds K i := by
  simp [State.holds]
@[simp] theorem State.writeBack_holder (s : State) (L : Nat) (v : Line) (K : Nat) :
    (s.writeBack L v).holder K = s.holder K := by
  have : (s.writeBack L v).holds K = s.holds K := funext fun i => State.writeBack_holds s L v K i
  rw [State.holder, State.holder, this]
@[simp] theorem State.writeBack_backed (s : State) (L : Nat) (v : Line) (K : Nat) :
    (s.writeBack L v).backed K = s.backed K := by
  rw [State.backed, State.writeBack_params, State.backed]

/-- A write-back of what the line holds changes no line's view (20_memory.md R63). -/
theorem State.writeBack_viewLine (s : State) {L : Nat} {v : Line} (hv : s.viewLine L = v) (K : Nat) :
    (s.writeBack L v).viewLine K = s.viewLine K := by
  subst hv
  unfold State.viewLine
  rw [State.writeBack_holder, State.writeBack_mem]
  split
  · rw [State.writeBack_data]
  · rename_i hn
    by_cases hK : K = L
    · subst hK
      rw [Memory.readLine_writeLine_same, hn]
    · exact Memory.readLine_writeLine_other _ _ hK

/-- Everything `Release` can answer (20_memory.md R61, R72). -/
theorem State.release_cases (s : State) (a : Reg) :
    (((s.dlar a).tagged = false ∨ (s.dlar a).dirty = false) ∧ s.release a = .ok s) ∨
    ((s.dlar a).tagged = true ∧ (s.dlar a).dirty = true ∧ s.backed (s.dlar a).base = true ∧
      s.release a = .ok (s.writeBack (s.dlar a).base (s.dlar a).data)) ∨
    ((s.dlar a).tagged = true ∧ (s.dlar a).dirty = true ∧ s.backed (s.dlar a).base = false ∧
      s.release a = .error (.unbackedLine (s.dlar a).base)) := by
  unfold State.release
  cases ht : (s.dlar a).tagged <;> cases hd : (s.dlar a).dirty <;> cases hb : s.backed (s.dlar a).base <;>
    simp [ht, hd, hb]

/-- Where `Release` completes, it has written the line of `a` back if `a` owed it, cleaned the holders of that line, and
changed nothing else (20_memory.md R61). -/
theorem State.release_ok {s : State} {a : Reg}
    (h : s.owesWriteBack a = true → s.backed (s.dlar a).base = true) :
    ∃ r, s.release a = .ok r ∧ ReleasedMemory s r a ∧
      (∀ i, r.dlar i =
        if s.owesWriteBack a ∧ s.holds (s.dlar a).base i then { s.dlar i with dirty := false } else s.dlar i) ∧
      r.pc = s.pc ∧ r.params = s.params ∧ r.draws = s.draws ∧ r.schedule = s.schedule := by
  rcases s.release_cases a with ⟨h1, h2⟩ | ⟨h1, h2, h3, h4⟩ | ⟨h1, h2, h3, h4⟩
  · have ho : s.owesWriteBack a = false := by rcases h1 with h1 | h1 <;> simp [State.owesWriteBack, h1]
    refine ⟨s, h2, fun x => ?_, fun i => ?_, rfl, rfl, rfl, rfl⟩
    · rw [if_neg]
      simp [ho]
    · rw [if_neg]
      simp [ho]
  · have ho : s.owesWriteBack a = true := by simp [State.owesWriteBack, h1, h2]
    refine ⟨_, h4, fun x => ?_, fun i => ?_, State.writeBack_pc _ _ _, State.writeBack_params _ _ _,
      State.writeBack_draws _ _ _, State.writeBack_schedule _ _ _⟩
    · rw [State.writeBack_mem, Memory.read_writeLine]
      simp only [ho, true_and]
    · rw [State.writeBack_dlar]
      simp only [ho, true_and]
  · have ho : s.owesWriteBack a = true := by simp [State.owesWriteBack, h1, h2]
    rw [h ho] at h3
    cases h3

/-- Everything one internal write-back step can do (20_memory.md R62). -/
theorem State.earlyWriteBack_cases (s : State) (L : Nat) :
    s.earlyWriteBack L = s ∨
    ∃ h, s.holds L h = true ∧ (s.dlar h).dirty = true ∧ s.backed L = true ∧
      s.earlyWriteBack L = s.writeBack L (s.dlar h).data := by
  unfold State.earlyWriteBack
  split
  · rename_i h hh
    obtain ⟨h1, h2⟩ := State.dirtyHolder_some hh
    split
    · rename_i hb
      exact Or.inr ⟨h, h1, h2, hb, rfl⟩
    · exact Or.inl rfl
  · exact Or.inl rfl

/-- A property that every write-back of a dirty holder's data keeps, the internal write-backs between two
instructions keep (20_memory.md R62). -/
theorem State.betweenInstructions_induction {P : State → Prop} (s : State)
    (h0 : P { s with schedule := s.schedule.tail })
    (hw : ∀ (t : State) (L : Nat) (h : Reg), P t → t.holds L h = true → (t.dlar h).dirty = true →
      P (t.writeBack L (t.dlar h).data)) : P s.betweenInstructions := by
  have key : ∀ (ls : List Nat) (t : State), P t → P (ls.foldl State.earlyWriteBack t) := by
    intro ls
    induction ls with
    | nil => exact fun t ht => ht
    | cons L ls ih =>
      intro t ht
      refine ih _ ?_
      rcases State.earlyWriteBack_cases t L with h | ⟨k, hk, hd, -, h⟩
      · rw [h]
        exact ht
      · rw [h]
        exact hw t L k ht hk hd
  unfold State.betweenInstructions
  split
  · rename_i hs
    have : ({ s with schedule := s.schedule.tail } : State) = s := by
      rw [hs, List.tail_nil, ← hs]
    rwa [this] at h0
  · rename_i ls rest hs
    rw [hs, List.tail_cons] at h0
    exact key ls _ h0

/-- Nothing happens between two instructions where nothing is scheduled. -/
theorem State.betweenInstructions_nil {s : State} (h : s.schedule = []) : s.betweenInstructions = s := by
  unfold State.betweenInstructions
  rw [h]

/-! ## Loads -/

/-- Everything a load can do to get its line, Release first (42_load.md R172). -/
theorem State.fillFrom_cases (s : State) (a : Reg) (L : Nat) :
    (∃ h, s.holder L = some h ∧
      s.fillFrom a L = .ok (s.setDlar a { s.dlar a with data := (s.dlar h).data, dirty := (s.dlar h).dirty })) ∨
    (s.holder L = none ∧ s.backed L = true ∧
      s.fillFrom a L = .ok (s.setDlar a { s.dlar a with data := s.mem.readLine L, dirty := false })) ∨
    (s.holder L = none ∧ s.backed L = false ∧ s.fillFrom a L = .error (.unbackedLine L)) := by
  unfold State.fillFrom
  cases hh : s.holder L with
  | some h => exact Or.inl ⟨h, rfl, rfl⟩
  | none => cases hb : s.backed L <;> simp

/-- What `acquire` has done where it answers a state (42_load.md R172): nothing, or a release and then a fill. -/
theorem State.acquire_cases {s s' : State} {a : Reg} {L : Nat} (H : s.acquire a L = .ok s') :
    (s.holds L a = true ∧ s' = s) ∨
    (s.holds L a = false ∧ ∃ r, s.release a = .ok r ∧ r.fillFrom a L = .ok s') := by
  unfold State.acquire at H
  split at H
  · rename_i h
    exact Or.inl ⟨h, (Except.ok.inj H).symm⟩
  · rename_i h
    split at H
    · cases H
    · rename_i r hr
      exact Or.inr ⟨by simpa using h, r, hr, H⟩

@[simp] theorem State.pointAt_pc (s : State) (a : Reg) (ea : Word) (t : LaneType) :
    (s.pointAt a ea t).pc = s.pc := by
  rw [State.pointAt, State.setDlar_pc]
/-- Giving a record a type sets the three fields of that type's row (42_load.md R173). -/
theorem DataLar.retype_hasTagFields (d : DataLar) (t : LaneType) : (d.retype t).hasTagFields t := by
  rcases t with ⟨_ | _ | _ | _, _ | _⟩ | _ <;> rfl

@[simp] theorem State.pointAt_mem (s : State) (a : Reg) (ea : Word) (t : LaneType) :
    (s.pointAt a ea t).mem = s.mem := by
  rw [State.pointAt, State.setDlar_mem]
@[simp] theorem State.pointAt_params (s : State) (a : Reg) (ea : Word) (t : LaneType) :
    (s.pointAt a ea t).params = s.params := by
  rw [State.pointAt, State.setDlar_params]
@[simp] theorem State.pointAt_draws (s : State) (a : Reg) (ea : Word) (t : LaneType) :
    (s.pointAt a ea t).draws = s.draws := by
  rw [State.pointAt, State.setDlar_draws]
@[simp] theorem State.pointAt_schedule (s : State) (a : Reg) (ea : Word) (t : LaneType) :
    (s.pointAt a ea t).schedule = s.schedule := by
  rw [State.pointAt, State.setDlar_schedule]

theorem State.pointAt_dlar_same (s : State) {a : Reg} (ha : a ≠ 0) (ea : Word) (t : LaneType) :
    (s.pointAt a ea t).dlar a = { (s.dlar a).retype t with addr := ea, tagged := true } := by
  rw [State.pointAt, State.setDlar_dlar_same _ ha]

theorem State.pointAt_dlar_other (s : State) {a i : Reg} (hi : i ≠ a) (ea : Word) (t : LaneType) :
    (s.pointAt a ea t).dlar i = s.dlar i := by
  rw [State.pointAt, State.setDlar_dlar_other _ _ _ hi]

theorem State.pointAt_type (s : State) {a : Reg} (ha : a ≠ 0) (ea : Word) (t : LaneType) :
    (s.pointAt a ea t).type a = t := by
  rw [State.type, State.pointAt_dlar_same s ha]
  exact DataLar.retype_type (s.dlar a) t

theorem State.pointAt_tagFields (s : State) {a : Reg} (ha : a ≠ 0) (ea : Word) (t : LaneType) :
    ((s.pointAt a ea t).dlar a).hasTagFields t := by
  rw [State.pointAt_dlar_same s ha]
  exact DataLar.retype_hasTagFields (s.dlar a) t

theorem State.pointAt_data (s : State) {a : Reg} (ha : a ≠ 0) (ea : Word) (t : LaneType) :
    ((s.pointAt a ea t).dlar a).data = (s.dlar a).data := by
  rw [State.pointAt_dlar_same s ha]
  exact DataLar.retype_data (s.dlar a) t

theorem State.pointAt_addr (s : State) {a : Reg} (ha : a ≠ 0) (ea : Word) (t : LaneType) :
    ((s.pointAt a ea t).dlar a).addr = ea := by
  rw [State.pointAt_dlar_same s ha]

theorem State.pointAt_tagged (s : State) {a : Reg} (ha : a ≠ 0) (ea : Word) (t : LaneType) :
    ((s.pointAt a ea t).dlar a).tagged = true := by
  rw [State.pointAt_dlar_same s ha]

theorem State.pointAt_dirty (s : State) {a : Reg} (ha : a ≠ 0) (ea : Word) (t : LaneType) :
    ((s.pointAt a ea t).dlar a).dirty = (s.dlar a).dirty := by
  rw [State.pointAt_dlar_same s ha]
  exact DataLar.retype_dirty (s.dlar a) t

/-- Everything a load can answer (42_load.md R172). -/
theorem loadLar_cases (t : LaneType) (a b c : Reg) (simm : Int) (s : State) :
    (∃ i, s.untaggedOperand [b, c] = some i ∧ loadLar t a b c simm s = .fault (.untaggedLarRead i)) ∨
    (s.untaggedOperand [b, c] = none ∧
      ((a = 0 ∧ loadLar t a b c simm s = .next s.advance) ∨
       (a ≠ 0 ∧ ∃ f, s.acquire a (lineNumber (s.effectiveAddress b c simm)) = .error f ∧
          loadLar t a b c simm s = .fault f) ∨
       (a ≠ 0 ∧ ∃ s', s.acquire a (lineNumber (s.effectiveAddress b c simm)) = .ok s' ∧
          loadLar t a b c simm s = .next (s'.pointAt a (s.effectiveAddress b c simm) t).advance))) := by
  unfold loadLar State.checked
  cases hu : s.untaggedOperand [b, c] with
  | some i => exact Or.inl ⟨i, rfl, rfl⟩
  | none =>
    refine Or.inr ⟨rfl, ?_⟩
    by_cases ha : a = 0
    · exact Or.inl ⟨ha, by simp [ha]⟩
    · cases hq : s.acquire a (lineNumber (s.effectiveAddress b c simm)) with
      | error f => exact Or.inr (Or.inl ⟨ha, f, rfl, by simp [ha, hq]⟩)
      | ok s' => exact Or.inr (Or.inr ⟨ha, s', rfl, by simp [ha, hq]⟩)

/-! ## Stores -/

theorem State.giveHolders_dlar (s : State) (a : Reg) (L : Nat) (i : Reg) :
    (s.giveHolders a L).dlar i =
      if s.holds L i then { s.dlar i with data := (s.dlar a).data, dirty := true } else s.dlar i := by
  rw [State.giveHolders, State.withDlars_dlar_of]
  simp

theorem State.dirtyHolders_dlar (s : State) (L : Nat) (i : Reg) :
    (s.dirtyHolders L).dlar i = if s.holds L i then { s.dlar i with dirty := true } else s.dlar i := by
  rw [State.dirtyHolders, State.withDlars_dlar_of]
  simp

@[simp] theorem State.giveHolders_mem (s : State) (a : Reg) (L : Nat) : (s.giveHolders a L).mem = s.mem := by
  rw [State.giveHolders, State.withDlars_mem]
@[simp] theorem State.giveHolders_pc (s : State) (a : Reg) (L : Nat) : (s.giveHolders a L).pc = s.pc := by
  rw [State.giveHolders, State.withDlars_pc]
@[simp] theorem State.giveHolders_params (s : State) (a : Reg) (L : Nat) : (s.giveHolders a L).params = s.params := by
  rw [State.giveHolders, State.withDlars_params]
@[simp] theorem State.giveHolders_draws (s : State) (a : Reg) (L : Nat) : (s.giveHolders a L).draws = s.draws := by
  rw [State.giveHolders, State.withDlars_draws]
@[simp] theorem State.giveHolders_schedule (s : State) (a : Reg) (L : Nat) :
    (s.giveHolders a L).schedule = s.schedule := by
  rw [State.giveHolders, State.withDlars_schedule]
@[simp] theorem State.dirtyHolders_mem (s : State) (L : Nat) : (s.dirtyHolders L).mem = s.mem := by
  rw [State.dirtyHolders, State.withDlars_mem]
@[simp] theorem State.dirtyHolders_pc (s : State) (L : Nat) : (s.dirtyHolders L).pc = s.pc := by
  rw [State.dirtyHolders, State.withDlars_pc]
@[simp] theorem State.dirtyHolders_params (s : State) (L : Nat) : (s.dirtyHolders L).params = s.params := by
  rw [State.dirtyHolders, State.withDlars_params]
@[simp] theorem State.dirtyHolders_draws (s : State) (L : Nat) : (s.dirtyHolders L).draws = s.draws := by
  rw [State.dirtyHolders, State.withDlars_draws]
@[simp] theorem State.dirtyHolders_schedule (s : State) (L : Nat) : (s.dirtyHolders L).schedule = s.schedule := by
  rw [State.dirtyHolders, State.withDlars_schedule]

/-- What `stage` has done where it answers a state (43_store.md R190): marked the holders of the line dirty, or
released and given the holders the data. -/
theorem State.stage_cases {s s' : State} {a : Reg} {L : Nat} (H : s.stage a L = .ok s') :
    (s.holds L a = true ∧ s' = s.dirtyHolders L) ∨
    (s.holds L a = false ∧ ∃ r, s.release a = .ok r ∧ s' = r.giveHolders a L) := by
  unfold State.stage at H
  split at H
  · rename_i h
    exact Or.inl ⟨h, (Except.ok.inj H).symm⟩
  · rename_i h
    split at H
    · cases H
    · rename_i r hr
      exact Or.inr ⟨by simpa using h, r, hr, (Except.ok.inj H).symm⟩

@[simp] theorem State.relabel_pc (s : State) (a : Reg) (ea : Word) (t : LaneType) :
    (s.relabel a ea t).pc = s.pc := by
  rw [State.relabel, State.setDlar_pc]
@[simp] theorem State.relabel_mem (s : State) (a : Reg) (ea : Word) (t : LaneType) :
    (s.relabel a ea t).mem = s.mem := by
  rw [State.relabel, State.setDlar_mem]
@[simp] theorem State.relabel_params (s : State) (a : Reg) (ea : Word) (t : LaneType) :
    (s.relabel a ea t).params = s.params := by
  rw [State.relabel, State.setDlar_params]
@[simp] theorem State.relabel_draws (s : State) (a : Reg) (ea : Word) (t : LaneType) :
    (s.relabel a ea t).draws = s.draws := by
  rw [State.relabel, State.setDlar_draws]
@[simp] theorem State.relabel_schedule (s : State) (a : Reg) (ea : Word) (t : LaneType) :
    (s.relabel a ea t).schedule = s.schedule := by
  rw [State.relabel, State.setDlar_schedule]

theorem State.relabel_dlar_same (s : State) {a : Reg} (ha : a ≠ 0) (ea : Word) (t : LaneType) :
    (s.relabel a ea t).dlar a = { (s.dlar a).retype t with addr := ea, dirty := true, tagged := true } := by
  rw [State.relabel, State.setDlar_dlar_same _ ha]

theorem State.relabel_dlar_other (s : State) {a i : Reg} (hi : i ≠ a) (ea : Word) (t : LaneType) :
    (s.relabel a ea t).dlar i = s.dlar i := by
  rw [State.relabel, State.setDlar_dlar_other _ _ _ hi]

theorem State.relabel_type (s : State) {a : Reg} (ha : a ≠ 0) (ea : Word) (t : LaneType) :
    (s.relabel a ea t).type a = t := by
  rw [State.type, State.relabel_dlar_same s ha]
  exact DataLar.retype_type (s.dlar a) t

theorem State.relabel_tagFields (s : State) {a : Reg} (ha : a ≠ 0) (ea : Word) (t : LaneType) :
    ((s.relabel a ea t).dlar a).hasTagFields t := by
  rw [State.relabel_dlar_same s ha]
  exact DataLar.retype_hasTagFields (s.dlar a) t

theorem State.relabel_data (s : State) {a : Reg} (ha : a ≠ 0) (ea : Word) (t : LaneType) :
    ((s.relabel a ea t).dlar a).data = (s.dlar a).data := by
  rw [State.relabel_dlar_same s ha]
  exact DataLar.retype_data (s.dlar a) t

theorem State.relabel_addr (s : State) {a : Reg} (ha : a ≠ 0) (ea : Word) (t : LaneType) :
    ((s.relabel a ea t).dlar a).addr = ea := by
  rw [State.relabel_dlar_same s ha]

theorem State.relabel_tagged (s : State) {a : Reg} (ha : a ≠ 0) (ea : Word) (t : LaneType) :
    ((s.relabel a ea t).dlar a).tagged = true := by
  rw [State.relabel_dlar_same s ha]

theorem State.relabel_dirty (s : State) {a : Reg} (ha : a ≠ 0) (ea : Word) (t : LaneType) :
    ((s.relabel a ea t).dlar a).dirty = true := by
  rw [State.relabel_dlar_same s ha]

/-- Everything a store can answer (43_store.md R190). -/
theorem storeLar_cases (t : LaneType) (a b c : Reg) (simm : Int) (s : State) :
    (∃ i, s.untaggedOperand [a, b, c] = some i ∧ storeLar t a b c simm s = .fault (.untaggedLarRead i)) ∨
    (s.untaggedOperand [a, b, c] = none ∧
      ((a = 0 ∧ storeLar t a b c simm s = .next s.advance) ∨
       (a ≠ 0 ∧ ∃ f, s.stage a (lineNumber (s.effectiveAddress b c simm)) = .error f ∧
          storeLar t a b c simm s = .fault f) ∨
       (a ≠ 0 ∧ ∃ s', s.stage a (lineNumber (s.effectiveAddress b c simm)) = .ok s' ∧
          storeLar t a b c simm s = .next (s'.relabel a (s.effectiveAddress b c simm) t).advance))) := by
  unfold storeLar State.checked
  cases hu : s.untaggedOperand [a, b, c] with
  | some i => exact Or.inl ⟨i, rfl, rfl⟩
  | none =>
    refine Or.inr ⟨rfl, ?_⟩
    by_cases ha : a = 0
    · exact Or.inl ⟨ha, by simp [ha]⟩
    · cases hq : s.stage a (lineNumber (s.effectiveAddress b c simm)) with
      | error f => exact Or.inr (Or.inl ⟨ha, f, rfl, by simp [ha, hq]⟩)
      | ok s' => exact Or.inr (Or.inr ⟨ha, s', rfl, by simp [ha, hq]⟩)

end Sys2Proof.Machine
end

