-- ==== Sys2Proof/Laws/Alu.lean ====
section
/-!
SUPPORT. Laws of the ALU: what a scalar or vector write leaves, the bounds of the lane functions, casts, and the two
schemes as equations, so that a proof about an instruction unfolds no scheme.
-/

namespace Sys2Proof.Machine

/-! ## Writing a scalar, writing lanes -/

@[simp] theorem State.takeDraws_zero (s : State) (a : Reg) : s.takeDraws a 0 = s := by
  unfold State.takeDraws
  split <;> rfl

@[simp] theorem State.takeDraws_type (s : State) (a : Reg) (n : Nat) (i : Reg) :
    (s.takeDraws a n).type i = s.type i := by
  rw [State.type, State.takeDraws_dlar, State.type]
@[simp] theorem State.takeDraws_lane (s : State) (a : Reg) (n : Nat) (i : Reg) (k : Nat) :
    (s.takeDraws a n).lane i k = s.lane i k := by
  rw [State.lane, State.takeDraws_dlar, State.takeDraws_type, State.takeDraws_params, State.lane]
@[simp] theorem State.takeDraws_sdata (s : State) (a : Reg) (n : Nat) (i : Reg) :
    (s.takeDraws a n).sdata i = s.sdata i := by
  rw [State.sdata, State.takeDraws_dlar, State.takeDraws_lane, State.sdata]
@[simp] theorem State.takeDraws_untaggedOperand (s : State) (a : Reg) (n : Nat) (l : List Reg) :
    (s.takeDraws a n).untaggedOperand l = s.untaggedOperand l := by
  simp [State.untaggedOperand]

theorem LaneType.two_pow_width (t : LaneType) : 2 ^ t.width = 256 ^ t.bytes := by
  rw [LaneType.width, pow_mul]
  norm_num

theorem State.sdata_lt (s : State) (i : Reg) : s.sdata i < 2 ^ (s.type i).width := by
  rw [LaneType.two_pow_width]
  exact laneOf_lt _ _ _ _

theorem State.lane_lt (s : State) (i : Reg) (k : Nat) : s.lane i k < 2 ^ (s.type i).width := by
  rw [LaneType.two_pow_width]
  exact laneOf_lt _ _ _ _

/-- `WriteScalar` leaves what the statements say (40_alu.md R113). -/
theorem scalarWritten_writeScalar (s : State) {a : Reg} (ha : a ≠ 0) (n : Nat) {r : Nat}
    (hr : r < 2 ^ (s.type a).width) : ScalarWritten s ((s.takeDraws a n).writeScalar a r).advance a n r := by
  have he : (s.takeDraws a n).writeScalar a r = (s.takeDraws a n).setData a
      (setLane s.params.endian (s.type a).bytes (s.dlar a).data (s.dlar a).idx r) := by
    simp [State.writeScalar]
  rw [LaneType.two_pow_width] at hr
  rw [he]
  refine { dataWritten_setData s ha _ n with lane := ?_, otherBytes := ?_ }
  · have hk : (s.dlar a).idx < 32 / (s.type a).bytes := (s.dlar a).idx_lt
    rw [State.advance_sdata, State.sdata, State.lane, State.setData_idx, State.setData_type, State.setData_params,
      State.setData_data_self _ ha, State.takeDraws_dlar, State.takeDraws_type, State.takeDraws_params,
      laneOf_setLane_same _ _ _ hk, Nat.mod_eq_of_lt hr]
  · intro j hj hne
    rw [State.advance_dlar, State.setData_data_self _ ha, lineByte_setLane _ _ _ _ _ hj, if_neg hne]

/-- A vector write leaves what the statements say (40_alu.md R114). -/
theorem lanesWritten_writeLanes (s : State) {a : Reg} (ha : a ≠ 0) (n : Nat) {r : Nat → Nat}
    (hr : ∀ k, r k < 2 ^ (s.type a).width) : LanesWritten s ((s.takeDraws a n).writeLanes a r).advance a n r := by
  have he : (s.takeDraws a n).writeLanes a r =
      (s.takeDraws a n).setData a (lineOfLanes s.params.endian (s.type a).bytes r) := by
    simp [State.writeLanes]
  rw [LaneType.two_pow_width] at hr
  rw [he]
  refine { dataWritten_setData s ha _ n with lanes := ?_ }
  intro k hk
  rw [State.advance_lane, State.lane, State.setData_type, State.setData_params, State.setData_data_self _ ha,
    State.takeDraws_type, State.takeDraws_params, laneOf_lineOfLanes _ _ hk, Nat.mod_eq_of_lt (hr k)]

/-! ## Bounds: every lane function gives a pattern of the destination's width -/

theorem trunc_lt (n : Nat) (x : Int) : trunc n x < 2 ^ n := by
  have h1 : (0 : Int) < (2 ^ n : Nat) := by positivity
  have h2 := Int.emod_lt_of_pos x h1
  have h3 := Int.emod_nonneg x h1.ne'
  rw [trunc]
  omega

theorem trunc_cast (n : Nat) (x : Int) : (trunc n x : Int) = x % (2 ^ n : Nat) := by
  have h1 : (0 : Int) < (2 ^ n : Nat) := by positivity
  rw [trunc, Int.toNat_of_nonneg (Int.emod_nonneg x h1.ne')]

theorem trunc_natCast (n x : Nat) : trunc n (x : Int) = x % 2 ^ n := by
  rw [trunc, ← Int.natCast_mod, Int.toNat_natCast]

theorem LaneType.width_pos (t : LaneType) : 0 < t.width := by
  have := t.bytes_pos
  rw [LaneType.width]
  omega

theorem LaneType.one_lt_two_pow_width (t : LaneType) : 1 < 2 ^ t.width :=
  Nat.one_lt_two_pow t.width_pos.ne'

theorem truthLane_lt (td : LaneType) (b : Bool) : truthLane td b < 2 ^ td.width := by
  have := td.one_lt_two_pow_width
  cases td with
  | int z g =>
    rw [truthLane]
    split <;> omega
  | f16 => exact (Config.bf16Truth b).isLt

theorem cast_lt {td ts : LaneType} {v : Nat} (hv : v < 2 ^ ts.width) : cast td ts v < 2 ^ td.width := by
  cases td with
  | int z g =>
    cases ts with
    | int z' g' => exact trunc_lt _ _
    | f16 => exact (Config.intOfBf16 _ _ _).isLt
  | f16 =>
    cases ts with
    | int z' g' => exact (Config.bf16OfInt _).isLt
    | f16 => exact hv

theorem bf16Binary_lt (f : BitVec 16 → BitVec 16 → BitVec 16) (x y : Nat) :
    bf16Binary f x y < 2 ^ LaneType.f16.width := (f _ _).isLt

theorem addLane_lt (td : LaneType) (x y : Nat) : addLane td x y < 2 ^ td.width := by
  cases td with
  | int z g => exact trunc_lt _ _
  | f16 => exact bf16Binary_lt _ _ _

theorem subLane_lt (td : LaneType) (x y : Nat) : subLane td x y < 2 ^ td.width := by
  cases td with
  | int z g => exact trunc_lt _ _
  | f16 => exact bf16Binary_lt _ _ _

theorem sltLane_lt (td : LaneType) (x y : Nat) : sltLane td x y < 2 ^ td.width := by
  unfold sltLane
  split <;> exact truthLane_lt _ _

theorem mulLane_lt (td : LaneType) (x y : Nat) : mulLane td x y < 2 ^ td.width := by
  cases td with
  | int z g => exact trunc_lt _ _
  | f16 => exact bf16Binary_lt _ _ _

theorem divLane_lt (d : Nat) (td : LaneType) (x y : Nat) : divLane d td x y < 2 ^ td.width := by
  cases td with
  | int z g =>
    rw [divLane]
    split
    · exact BitVec.isLt _
    · exact trunc_lt _ _
  | f16 => exact bf16Binary_lt _ _ _

theorem shlLane_lt (td : LaneType) (x n : Nat) : shlLane td x n < 2 ^ td.width := by
  rw [shlLane]
  split
  · positivity
  · exact trunc_lt _ _

theorem shrLogical_lt {td : LaneType} {x : Nat} (hx : x < 2 ^ td.width) (n : Nat) :
    shrLogical td x n < 2 ^ td.width := by
  rw [shrLogical]
  split
  · positivity
  · exact lt_of_le_of_lt (Nat.div_le_self _ _) hx

theorem shrArithmetic_lt (td : LaneType) (x n : Nat) : shrArithmetic td x n < 2 ^ td.width := by
  have : 0 < 2 ^ td.width := by positivity
  rw [shrArithmetic]
  split
  · split <;> omega
  · exact trunc_lt _ _

theorem invLane_lt (td : LaneType) (x : Nat) : invLane td x < 2 ^ td.width := trunc_lt _ _

theorem notLane_lt (td : LaneType) (x : Nat) : notLane td x < 2 ^ td.width := by
  unfold notLane
  split <;> exact truthLane_lt _ _

theorem pcLane_lt (td : LaneType) (v : Word) : pcLane td v < 2 ^ td.width := by
  cases td with
  | int z g => exact trunc_lt _ _
  | f16 => exact (Config.bf16OfInt _).isLt

theorem LaneType.asUnsigned_width (t : LaneType) : t.asUnsigned.width = t.width := by
  cases t with
  | int z g => cases z <;> rfl
  | f16 => rfl

theorem shrOperation_lt {td tb : LaneType} (tc : LaneType) {vb : Nat} (vc : Nat) (hb : vb < 2 ^ tb.width) :
    shrOperation td tb tc vb vc < 2 ^ td.width := by
  unfold shrOperation
  split
  · exact shrLogical_lt (cast_lt hb) _
  · exact shrArithmetic_lt _ _ _

theorem mulOperation_lt (reading : MulWidenSign) (td tb tc : LaneType) (vb vc : Nat) :
    mulOperation reading td tb tc vb vc < 2 ^ td.width := by
  unfold mulOperation
  split <;> exact mulLane_lt _ _ _

/-! ## The schemes as equations -/

/-- The scalar scheme where no operand stops it (40_alu.md R110). -/
theorem scalarBinary_next {view : LaneType → LaneType} {op : LaneType → LaneType → LaneType → Nat → Nat → Nat}
    {a b c : Reg} {s : State} (h : s.untaggedOperand [a, b, c] = none) (n : Nat) :
    scalarBinary view op a b c (s.takeDraws a n) = .next ((s.takeDraws a n).writeScalar a
      (op (view (s.type a)) (view (s.type b)) (view (s.type c)) (s.sdata b) (s.sdata c))).advance := by
  simp [scalarBinary, State.checked_of_none, h]

theorem scalarUnary_next {view : LaneType → LaneType} {op : LaneType → LaneType → Nat → Nat} {a b : Reg} {s : State}
    (h : s.untaggedOperand [a, b] = none) :
    scalarUnary view op a b s =
      .next (s.writeScalar a (op (view (s.type a)) (view (s.type b)) (s.sdata b))).advance := by
  simp [scalarUnary, State.checked_of_none, h]

/-- The vector scheme where no operand stops it and the lane counts agree (40_alu.md R114). -/
theorem vectorBinary_next {view : LaneType → LaneType}
    {op : Nat → LaneType → LaneType → LaneType → Nat → Nat → Nat} {a b c : Reg} {s : State}
    (h : s.untaggedOperand [a, b, c] = none) (hl : s.sameLanes a [b, c]) (n : Nat) :
    vectorBinary view op a b c (s.takeDraws a n) = .next ((s.takeDraws a n).writeLanes a fun k =>
      op k (view (s.type a)) (view (s.type b)) (view (s.type c)) (s.lane b k) (s.lane c k)).advance := by
  simp only [State.sameLanes, List.mem_cons, List.not_mem_nil, or_false, forall_eq_or_imp, forall_eq] at hl
  simp [vectorBinary, State.checked_of_none, h, hl.1, hl.2]

theorem vectorUnary_next {view : LaneType → LaneType} {op : LaneType → LaneType → Nat → Nat} {a b : Reg} {s : State}
    (h : s.untaggedOperand [a, b] = none) (hl : s.sameLanes a [b]) :
    vectorUnary view op a b s =
      .next (s.writeLanes a fun k => op (view (s.type a)) (view (s.type b)) (s.lane b k)).advance := by
  simp only [State.sameLanes, List.mem_singleton, forall_eq] at hl
  simp [vectorUnary, State.checked_of_none, h, hl]

/-! ## The lane functions in the words of the rules -/

theorem addLane_eq (td : LaneType) (x y : Nat) : addLane td x y =
    match td with
    | .int _ _ => (x + y) % 2 ^ td.width
    | .f16 => (Config.bf16Add (BitVec.ofNat 16 x) (BitVec.ofNat 16 y)).toNat := by
  cases td with
  | int z g => exact trunc_natCast _ (x + y)
  | f16 => rfl

theorem subLane_eq (td : LaneType) (x y : Nat) : y < 2 ^ td.width → subLane td x y =
    match td with
    | .int _ _ => (2 ^ td.width + x - y) % 2 ^ td.width
    | .f16 => (Config.bf16Sub (BitVec.ofNat 16 x) (BitVec.ofNat 16 y)).toNat := by
  intro hy
  cases td with
  | int z g =>
    have h : ((2 ^ (LaneType.int z g).width + x - y : Nat) : Int) =
        (x - y : Int) + (2 ^ (LaneType.int z g).width : Nat) := by omega
    simp only [subLane]
    rw [← trunc_natCast, h, trunc, trunc, Int.add_emod_right]
  | f16 => rfl

theorem mulLane_eq (td : LaneType) (x y : Nat) : mulLane td x y =
    match td with
    | .int _ _ => x * y % 2 ^ td.width
    | .f16 => (Config.bf16Mul (BitVec.ofNat 16 x) (BitVec.ofNat 16 y)).toNat := by
  cases td with
  | int z g => exact trunc_natCast _ (x * y)
  | f16 => rfl

theorem sltLane_eq (td : LaneType) (x y : Nat) : sltLane td x y =
    match td with
    | .int _ false => if x < y then 1 else 0
    | .int _ true => if sval td.width x < sval td.width y then 1 else 0
    | .f16 => (Config.bf16Truth (Config.bf16Lt (BitVec.ofNat 16 x) (BitVec.ofNat 16 y))).toNat := by
  rcases td with ⟨z, _ | _⟩ | _
  · simp [sltLane, truthLane, LaneType.value]
  · change (if decide (sval (LaneType.int z true).width x < sval (LaneType.int z true).width y) then 1 else 0) = _
    simp only [decide_eq_true_eq]
  · rfl

theorem notLane_eq (td : LaneType) (x : Nat) : notLane td x =
    match td with
    | .int _ _ => if x = 0 then 1 else 0
    | .f16 => (Config.bf16Truth (Config.bf16IsZero (BitVec.ofNat 16 x))).toNat := by
  cases td <;> simp [notLane, truthLane]

theorem invLane_eq (td : LaneType) {x : Nat} (hx : x < 2 ^ td.width) : invLane td x = 2 ^ td.width - 1 - x := by
  have h : ((2 ^ td.width : Nat) - 1 - x : Int) = (2 ^ td.width - 1 - x : Nat) := by omega
  rw [invLane, h, trunc_natCast, Nat.mod_eq_of_lt]
  omega

theorem divLane_eq (draw : Nat) (td : LaneType) (x y : Nat) : x < 2 ^ td.width → divLane draw td x y =
    match td with
    | .int _ signed =>
      if y = 0 then (Config.divZero draw td.width signed x).toNat
      else if signed then trunc td.width ((sval td.width x).tdiv (sval td.width y))
      else x / y
    | .f16 => (Config.bf16Div (BitVec.ofNat 16 x) (BitVec.ofNat 16 y)).toNat := by
  intro hx
  rcases td with ⟨z, _ | _⟩ | _
  · have h : ((x : Int).tdiv y) = ((x / y : Nat) : Int) := by simp
    simp only [divLane, LaneType.value, h, trunc_natCast, Bool.false_eq_true, if_false]
    rw [Nat.mod_eq_of_lt (lt_of_le_of_lt (Nat.div_le_self _ _) hx)]
  · simp only [divLane, LaneType.value, if_true]
  · rfl

theorem shlLane_eq (td : LaneType) (x n : Nat) : shlLane td x n = x * 2 ^ n % 2 ^ td.width := by
  rw [shlLane]
  split
  · rename_i h
    exact (Nat.mod_eq_zero_of_dvd (Dvd.dvd.mul_left (Nat.pow_dvd_pow 2 h) x)).symm
  · rw [← Int.natCast_mul, trunc_natCast]

theorem shrLogical_eq {td : LaneType} {x : Nat} (hx : x < 2 ^ td.width) (n : Nat) :
    shrLogical td x n = x / 2 ^ n := by
  rw [shrLogical]
  split
  · rename_i h
    exact (Nat.div_eq_of_lt (lt_of_lt_of_le hx (Nat.pow_le_pow_right (by omega) h))).symm
  · rfl

/-- The two's-complement value lies between `-2^(W-1)` and `2^(W-1) - 1`. -/
theorem sval_bounds (td : LaneType) {x : Nat} (hx : x < 2 ^ td.width) :
    -(2 ^ (td.width - 1) : Nat) ≤ sval td.width x ∧ sval td.width x < (2 ^ (td.width - 1) : Nat) := by
  have h : 2 ^ td.width = 2 * 2 ^ (td.width - 1) := by
    rw [← Nat.pow_succ']
    congr 1
    have := td.width_pos
    omega
  rw [sval]
  split <;> omega

theorem shrArithmetic_eq {td : LaneType} {x : Nat} (hx : x < 2 ^ td.width) (n : Nat) :
    shrArithmetic td x n = trunc td.width (sval td.width x / (2 ^ n : Nat)) := by
  rw [shrArithmetic]
  split
  · rename_i h
    have h2 : 2 ^ (td.width - 1) ≤ 2 ^ n := Nat.pow_le_pow_right (by omega) (by omega)
    have hb := sval_bounds td hx
    have hp : (0 : Int) < (2 ^ n : Nat) := by positivity
    have hw := td.one_lt_two_pow_width
    split
    · have h3 : sval td.width x / (2 ^ n : Nat) = -1 := by
        rw [Int.ediv_eq_iff_of_pos hp]
        omega
      have h4 : ((2 ^ td.width - 1 : Nat) : Int) = -1 + (2 ^ td.width : Nat) := by omega
      have h5 : trunc td.width (-1) = trunc td.width ((2 ^ td.width - 1 : Nat) : Int) := by
        rw [h4, trunc, trunc, Int.add_emod_right]
      rw [h3, h5, trunc_natCast, Nat.mod_eq_of_lt]
      omega
    · have h3 : sval td.width x / (2 ^ n : Nat) = 0 := Int.ediv_eq_zero_of_lt (by omega) (by omega)
      rw [h3]
      simp [trunc]
  · rfl

/-! ## Where an instruction of a scheme completes, and with what result -/

/-- A scalar instruction with two sources completes and writes the result of its operation. -/
theorem scalarBinary_writes {view : LaneType → LaneType} {op : LaneType → LaneType → LaneType → Nat → Nat → Nat}
    {a b c : Reg} {s : State} (ha : a ≠ 0) (hu : s.untaggedOperand [a, b, c] = none) (n : Nat) {r : Nat}
    (hr : op (view (s.type a)) (view (s.type b)) (view (s.type c)) (s.sdata b) (s.sdata c) = r)
    (hlt : op (view (s.type a)) (view (s.type b)) (view (s.type c)) (s.sdata b) (s.sdata c) < 2 ^ (s.type a).width) :
    ∃ t, scalarBinary view op a b c (s.takeDraws a n) = .next t ∧ ScalarWritten s t a n r := by
  subst hr
  exact ⟨_, scalarBinary_next hu n, scalarWritten_writeScalar s ha n hlt⟩

/-- A scalar instruction with one source completes and writes the result of its operation. -/
theorem scalarUnary_writes {view : LaneType → LaneType} {op : LaneType → LaneType → Nat → Nat} {a b : Reg}
    {s : State} (ha : a ≠ 0) (hu : s.untaggedOperand [a, b] = none) {r : Nat}
    (hr : op (view (s.type a)) (view (s.type b)) (s.sdata b) = r)
    (hlt : op (view (s.type a)) (view (s.type b)) (s.sdata b) < 2 ^ (s.type a).width) :
    ∃ t, scalarUnary view op a b s = .next t ∧ ScalarWritten s t a 0 r := by
  subst hr
  have := scalarWritten_writeScalar s ha 0 hlt
  rw [State.takeDraws_zero] at this
  exact ⟨_, scalarUnary_next hu, this⟩

/-- A vector instruction with two sources completes and writes the result of its operation to every lane. -/
theorem vectorBinary_writes {view : LaneType → LaneType}
    {op : Nat → LaneType → LaneType → LaneType → Nat → Nat → Nat} {a b c : Reg} {s : State} (ha : a ≠ 0)
    (hu : s.untaggedOperand [a, b, c] = none) (hl : s.sameLanes a [b, c]) (n : Nat) {r : Nat → Nat}
    (hr : ∀ k, op k (view (s.type a)) (view (s.type b)) (view (s.type c)) (s.lane b k) (s.lane c k) = r k)
    (hlt : ∀ k, op k (view (s.type a)) (view (s.type b)) (view (s.type c)) (s.lane b k) (s.lane c k) <
      2 ^ (s.type a).width) :
    ∃ t, vectorBinary view op a b c (s.takeDraws a n) = .next t ∧ LanesWritten s t a n r := by
  obtain rfl : _ = r := funext hr
  exact ⟨_, vectorBinary_next hu hl n, lanesWritten_writeLanes s ha n hlt⟩

/-- A vector instruction with one source completes and writes the result of its operation to every lane. -/
theorem vectorUnary_writes {view : LaneType → LaneType} {op : LaneType → LaneType → Nat → Nat} {a b : Reg}
    {s : State} (ha : a ≠ 0) (hu : s.untaggedOperand [a, b] = none) (hl : s.sameLanes a [b]) {r : Nat → Nat}
    (hr : ∀ k, op (view (s.type a)) (view (s.type b)) (s.lane b k) = r k)
    (hlt : ∀ k, op (view (s.type a)) (view (s.type b)) (s.lane b k) < 2 ^ (s.type a).width) :
    ∃ t, vectorUnary view op a b s = .next t ∧ LanesWritten s t a 0 r := by
  obtain rfl : _ = r := funext hr
  have := lanesWritten_writeLanes s ha 0 hlt
  rw [State.takeDraws_zero] at this
  exact ⟨_, vectorUnary_next hu hl, this⟩

end Sys2Proof.Machine
end

