-- ==== Sys2Proof/Laws/Decode.lean ====
section
/-!
SUPPORT. Laws of instruction words: the fields of a word put together by format are the fields it was put together from,
and what its opcode mask keeps of it.
-/

namespace Sys2Proof

@[simp] theorem regBits_toFin (r : Reg) : (regBits r).toFin = r := rfl

/-- An immediate that fits its field is read back (30_encoding.md R87). -/
theorem toInt_ofInt_of_fits {n : Nat} (hn : 0 < n) {i : Int} (h : fitsSigned n i = true) :
    (BitVec.ofInt n i).toInt = i := by
  rw [fitsSigned, Bool.and_eq_true, decide_eq_true_eq, decide_eq_true_eq] at h
  have h2 : (2 : Int) ^ n = 2 * 2 ^ (n - 1) := by
    rw [← pow_succ']
    congr 1
    omega
  have h3 : (((2 ^ n : Nat) : Int)) = (2 : Int) ^ n := by norm_cast
  rw [BitVec.toInt_ofInt, Int.bmod_def, h3]
  rcases lt_or_ge i 0 with hi | hi
  · have : i % 2 ^ n = i + 2 ^ n := by
      rw [← Int.add_emod_right]
      exact Int.emod_eq_of_lt (by omega) (by omega)
    rw [this, if_neg (by omega)]
    omega
  · rw [Int.emod_eq_of_lt hi (by omega), if_pos (by omega)]

/-! ## Format ALU (30_encoding.md R82) -/

/-- The bits of a word of this format, one by one. -/
theorem aluWord_bit (t : BitVec 1) (o : BitVec 4) (a b c : Reg) (i : Int) (k : Nat) :
    (aluWord t o a b c i).getLsbD k =
      (0b000#3 ++ t ++ regBits a ++ regBits b ++ regBits c ++ o ++ BitVec.ofInt 12 i).getLsbD k := rfl

theorem aluWord_bits29 (t : BitVec 1) (o : BitVec 4) (a b c : Reg) (i : Int) :
    (aluWord t o a b c i).extractLsb' 29 3 = 0 := by
  apply BitVec.eq_of_getLsbD_eq
  intro k hk
  rw [BitVec.getLsbD_extractLsb', aluWord_bit]
  simp only [BitVec.getLsbD_append]
  interval_cases k <;> simp

theorem aluWord_bits28 (t : BitVec 1) (o : BitVec 4) (a b c : Reg) (i : Int) :
    (aluWord t o a b c i).extractLsb' 28 1 = t := by
  apply BitVec.eq_of_getLsbD_eq
  intro k hk
  rw [BitVec.getLsbD_extractLsb', aluWord_bit]
  simp only [BitVec.getLsbD_append]
  interval_cases k
  simp

theorem aluWord_bits24 (t : BitVec 1) (o : BitVec 4) (a b c : Reg) (i : Int) :
    (aluWord t o a b c i).extractLsb' 24 4 = regBits a := by
  apply BitVec.eq_of_getLsbD_eq
  intro k hk
  rw [BitVec.getLsbD_extractLsb', aluWord_bit]
  simp only [BitVec.getLsbD_append]
  interval_cases k <;> simp

theorem aluWord_bits20 (t : BitVec 1) (o : BitVec 4) (a b c : Reg) (i : Int) :
    (aluWord t o a b c i).extractLsb' 20 4 = regBits b := by
  apply BitVec.eq_of_getLsbD_eq
  intro k hk
  rw [BitVec.getLsbD_extractLsb', aluWord_bit]
  simp only [BitVec.getLsbD_append]
  interval_cases k <;> simp

theorem aluWord_bits16 (t : BitVec 1) (o : BitVec 4) (a b c : Reg) (i : Int) :
    (aluWord t o a b c i).extractLsb' 16 4 = regBits c := by
  apply BitVec.eq_of_getLsbD_eq
  intro k hk
  rw [BitVec.getLsbD_extractLsb', aluWord_bit]
  simp only [BitVec.getLsbD_append]
  interval_cases k <;> simp

theorem aluWord_bits12 (t : BitVec 1) (o : BitVec 4) (a b c : Reg) (i : Int) :
    (aluWord t o a b c i).extractLsb' 12 4 = o := by
  apply BitVec.eq_of_getLsbD_eq
  intro k hk
  rw [BitVec.getLsbD_extractLsb', aluWord_bit]
  simp only [BitVec.getLsbD_append]
  interval_cases k <;> simp

theorem aluWord_bits0 (t : BitVec 1) (o : BitVec 4) (a b c : Reg) (i : Int) :
    (aluWord t o a b c i).extractLsb' 0 12 = BitVec.ofInt 12 i := by
  apply BitVec.eq_of_getLsbD_eq
  intro k hk
  rw [BitVec.getLsbD_extractLsb', aluWord_bit]
  simp only [BitVec.getLsbD_append]
  generalize BitVec.ofInt 12 i = j
  interval_cases k <;> simp

/-- The mask of the format keeps the fixed bits and the opcode (30_encoding.md R93). -/
theorem aluWord_mask (t : BitVec 1) (o : BitVec 4) (a b c : Reg) (i : Int) :
    aluWord t o a b c i &&& 0xF000F000 = aluWord t o 0 0 0 0 := by
  apply BitVec.eq_of_getLsbD_eq
  intro k hk
  rw [BitVec.getLsbD_and, aluWord_bit, aluWord_bit]
  simp only [BitVec.getLsbD_append]
  interval_cases k <;> simp [regBits]

@[simp] theorem aluWord_group (t : BitVec 1) (o : BitVec 4) (a b c : Reg) (i : Int) :
    group (aluWord t o a b c i) = 0 := by
  rw [group, aluWord_bits29]
  rfl
@[simp] theorem aluWord_bit28 (t : BitVec 1) (o : BitVec 4) (a b c : Reg) (i : Int) :
    bit28 (aluWord t o a b c i) = t.toNat := by
  rw [bit28, aluWord_bits28]
@[simp] theorem aluWord_fieldA (t : BitVec 1) (o : BitVec 4) (a b c : Reg) (i : Int) :
    fieldA (aluWord t o a b c i) = a := by
  rw [fieldA, aluWord_bits24, regBits_toFin]
@[simp] theorem aluWord_fieldB (t : BitVec 1) (o : BitVec 4) (a b c : Reg) (i : Int) :
    fieldB (aluWord t o a b c i) = b := by
  rw [fieldB, aluWord_bits20, regBits_toFin]
@[simp] theorem aluWord_fieldC (t : BitVec 1) (o : BitVec 4) (a b c : Reg) (i : Int) :
    fieldC (aluWord t o a b c i) = c := by
  rw [fieldC, aluWord_bits16, regBits_toFin]
@[simp] theorem aluWord_opcode (t : BitVec 1) (o : BitVec 4) (a b c : Reg) (i : Int) :
    opcode (aluWord t o a b c i) = o.toNat := by
  rw [opcode, aluWord_bits12]
theorem aluWord_simm12 (t : BitVec 1) (o : BitVec 4) (a b c : Reg) (i : Int) (h : fitsSigned 12 i = true) :
    simm12 (aluWord t o a b c i) = i := by
  rw [simm12, aluWord_bits0, toInt_ofInt_of_fits (by omega) h]

/-! ## Format LD (30_encoding.md R84) -/

/-- The bits of a word of this format, one by one. -/
theorem loadWord_bit (o : BitVec 4) (a b c : Reg) (i : Int) (k : Nat) :
    (loadWord o a b c i).getLsbD k =
      (0b0100#4 ++ regBits a ++ regBits b ++ regBits c ++ o ++ BitVec.ofInt 12 i).getLsbD k := rfl

theorem loadWord_bits29 (o : BitVec 4) (a b c : Reg) (i : Int) :
    (loadWord o a b c i).extractLsb' 29 3 = 2 := by
  apply BitVec.eq_of_getLsbD_eq
  intro k hk
  rw [BitVec.getLsbD_extractLsb', loadWord_bit]
  simp only [BitVec.getLsbD_append]
  interval_cases k <;> simp

theorem loadWord_bits28 (o : BitVec 4) (a b c : Reg) (i : Int) :
    (loadWord o a b c i).extractLsb' 28 1 = 0 := by
  apply BitVec.eq_of_getLsbD_eq
  intro k hk
  rw [BitVec.getLsbD_extractLsb', loadWord_bit]
  simp only [BitVec.getLsbD_append]
  interval_cases k
  simp

theorem loadWord_bits24 (o : BitVec 4) (a b c : Reg) (i : Int) :
    (loadWord o a b c i).extractLsb' 24 4 = regBits a := by
  apply BitVec.eq_of_getLsbD_eq
  intro k hk
  rw [BitVec.getLsbD_extractLsb', loadWord_bit]
  simp only [BitVec.getLsbD_append]
  interval_cases k <;> simp

theorem loadWord_bits20 (o : BitVec 4) (a b c : Reg) (i : Int) :
    (loadWord o a b c i).extractLsb' 20 4 = regBits b := by
  apply BitVec.eq_of_getLsbD_eq
  intro k hk
  rw [BitVec.getLsbD_extractLsb', loadWord_bit]
  simp only [BitVec.getLsbD_append]
  interval_cases k <;> simp

theorem loadWord_bits16 (o : BitVec 4) (a b c : Reg) (i : Int) :
    (loadWord o a b c i).extractLsb' 16 4 = regBits c := by
  apply BitVec.eq_of_getLsbD_eq
  intro k hk
  rw [BitVec.getLsbD_extractLsb', loadWord_bit]
  simp only [BitVec.getLsbD_append]
  interval_cases k <;> simp

theorem loadWord_bits12 (o : BitVec 4) (a b c : Reg) (i : Int) :
    (loadWord o a b c i).extractLsb' 12 4 = o := by
  apply BitVec.eq_of_getLsbD_eq
  intro k hk
  rw [BitVec.getLsbD_extractLsb', loadWord_bit]
  simp only [BitVec.getLsbD_append]
  interval_cases k <;> simp

theorem loadWord_bits0 (o : BitVec 4) (a b c : Reg) (i : Int) :
    (loadWord o a b c i).extractLsb' 0 12 = BitVec.ofInt 12 i := by
  apply BitVec.eq_of_getLsbD_eq
  intro k hk
  rw [BitVec.getLsbD_extractLsb', loadWord_bit]
  simp only [BitVec.getLsbD_append]
  generalize BitVec.ofInt 12 i = j
  interval_cases k <;> simp

/-- The mask of the format keeps the fixed bits and the opcode (30_encoding.md R93). -/
theorem loadWord_mask (o : BitVec 4) (a b c : Reg) (i : Int) :
    loadWord o a b c i &&& 0xF000F000 = loadWord o 0 0 0 0 := by
  apply BitVec.eq_of_getLsbD_eq
  intro k hk
  rw [BitVec.getLsbD_and, loadWord_bit, loadWord_bit]
  simp only [BitVec.getLsbD_append]
  interval_cases k <;> simp [regBits]

@[simp] theorem loadWord_group (o : BitVec 4) (a b c : Reg) (i : Int) :
    group (loadWord o a b c i) = 2 := by
  rw [group, loadWord_bits29]
  rfl
@[simp] theorem loadWord_bit28 (o : BitVec 4) (a b c : Reg) (i : Int) :
    bit28 (loadWord o a b c i) = 0 := by
  rw [bit28, loadWord_bits28]
  rfl
@[simp] theorem loadWord_fieldA (o : BitVec 4) (a b c : Reg) (i : Int) :
    fieldA (loadWord o a b c i) = a := by
  rw [fieldA, loadWord_bits24, regBits_toFin]
@[simp] theorem loadWord_fieldB (o : BitVec 4) (a b c : Reg) (i : Int) :
    fieldB (loadWord o a b c i) = b := by
  rw [fieldB, loadWord_bits20, regBits_toFin]
@[simp] theorem loadWord_fieldC (o : BitVec 4) (a b c : Reg) (i : Int) :
    fieldC (loadWord o a b c i) = c := by
  rw [fieldC, loadWord_bits16, regBits_toFin]
@[simp] theorem loadWord_opcode (o : BitVec 4) (a b c : Reg) (i : Int) :
    opcode (loadWord o a b c i) = o.toNat := by
  rw [opcode, loadWord_bits12]
theorem loadWord_simm12 (o : BitVec 4) (a b c : Reg) (i : Int) (h : fitsSigned 12 i = true) :
    simm12 (loadWord o a b c i) = i := by
  rw [simm12, loadWord_bits0, toInt_ofInt_of_fits (by omega) h]

/-! ## Format ST (30_encoding.md R85) -/

/-- The bits of a word of this format, one by one. -/
theorem storeWord_bit (o : BitVec 4) (a b c : Reg) (i : Int) (k : Nat) :
    (storeWord o a b c i).getLsbD k =
      (0b0110#4 ++ regBits a ++ regBits b ++ regBits c ++ o ++ BitVec.ofInt 12 i).getLsbD k := rfl

theorem storeWord_bits29 (o : BitVec 4) (a b c : Reg) (i : Int) :
    (storeWord o a b c i).extractLsb' 29 3 = 3 := by
  apply BitVec.eq_of_getLsbD_eq
  intro k hk
  rw [BitVec.getLsbD_extractLsb', storeWord_bit]
  simp only [BitVec.getLsbD_append]
  interval_cases k <;> simp

theorem storeWord_bits28 (o : BitVec 4) (a b c : Reg) (i : Int) :
    (storeWord o a b c i).extractLsb' 28 1 = 0 := by
  apply BitVec.eq_of_getLsbD_eq
  intro k hk
  rw [BitVec.getLsbD_extractLsb', storeWord_bit]
  simp only [BitVec.getLsbD_append]
  interval_cases k
  simp

theorem storeWord_bits24 (o : BitVec 4) (a b c : Reg) (i : Int) :
    (storeWord o a b c i).extractLsb' 24 4 = regBits a := by
  apply BitVec.eq_of_getLsbD_eq
  intro k hk
  rw [BitVec.getLsbD_extractLsb', storeWord_bit]
  simp only [BitVec.getLsbD_append]
  interval_cases k <;> simp

theorem storeWord_bits20 (o : BitVec 4) (a b c : Reg) (i : Int) :
    (storeWord o a b c i).extractLsb' 20 4 = regBits b := by
  apply BitVec.eq_of_getLsbD_eq
  intro k hk
  rw [BitVec.getLsbD_extractLsb', storeWord_bit]
  simp only [BitVec.getLsbD_append]
  interval_cases k <;> simp

theorem storeWord_bits16 (o : BitVec 4) (a b c : Reg) (i : Int) :
    (storeWord o a b c i).extractLsb' 16 4 = regBits c := by
  apply BitVec.eq_of_getLsbD_eq
  intro k hk
  rw [BitVec.getLsbD_extractLsb', storeWord_bit]
  simp only [BitVec.getLsbD_append]
  interval_cases k <;> simp

theorem storeWord_bits12 (o : BitVec 4) (a b c : Reg) (i : Int) :
    (storeWord o a b c i).extractLsb' 12 4 = o := by
  apply BitVec.eq_of_getLsbD_eq
  intro k hk
  rw [BitVec.getLsbD_extractLsb', storeWord_bit]
  simp only [BitVec.getLsbD_append]
  interval_cases k <;> simp

theorem storeWord_bits0 (o : BitVec 4) (a b c : Reg) (i : Int) :
    (storeWord o a b c i).extractLsb' 0 12 = BitVec.ofInt 12 i := by
  apply BitVec.eq_of_getLsbD_eq
  intro k hk
  rw [BitVec.getLsbD_extractLsb', storeWord_bit]
  simp only [BitVec.getLsbD_append]
  generalize BitVec.ofInt 12 i = j
  interval_cases k <;> simp

/-- The mask of the format keeps the fixed bits and the opcode (30_encoding.md R93). -/
theorem storeWord_mask (o : BitVec 4) (a b c : Reg) (i : Int) :
    storeWord o a b c i &&& 0xF000F000 = storeWord o 0 0 0 0 := by
  apply BitVec.eq_of_getLsbD_eq
  intro k hk
  rw [BitVec.getLsbD_and, storeWord_bit, storeWord_bit]
  simp only [BitVec.getLsbD_append]
  interval_cases k <;> simp [regBits]

@[simp] theorem storeWord_group (o : BitVec 4) (a b c : Reg) (i : Int) :
    group (storeWord o a b c i) = 3 := by
  rw [group, storeWord_bits29]
  rfl
@[simp] theorem storeWord_bit28 (o : BitVec 4) (a b c : Reg) (i : Int) :
    bit28 (storeWord o a b c i) = 0 := by
  rw [bit28, storeWord_bits28]
  rfl
@[simp] theorem storeWord_fieldA (o : BitVec 4) (a b c : Reg) (i : Int) :
    fieldA (storeWord o a b c i) = a := by
  rw [fieldA, storeWord_bits24, regBits_toFin]
@[simp] theorem storeWord_fieldB (o : BitVec 4) (a b c : Reg) (i : Int) :
    fieldB (storeWord o a b c i) = b := by
  rw [fieldB, storeWord_bits20, regBits_toFin]
@[simp] theorem storeWord_fieldC (o : BitVec 4) (a b c : Reg) (i : Int) :
    fieldC (storeWord o a b c i) = c := by
  rw [fieldC, storeWord_bits16, regBits_toFin]
@[simp] theorem storeWord_opcode (o : BitVec 4) (a b c : Reg) (i : Int) :
    opcode (storeWord o a b c i) = o.toNat := by
  rw [opcode, storeWord_bits12]
theorem storeWord_simm12 (o : BitVec 4) (a b c : Reg) (i : Int) (h : fitsSigned 12 i = true) :
    simm12 (storeWord o a b c i) = i := by
  rw [simm12, storeWord_bits0, toInt_ofInt_of_fits (by omega) h]

/-! ## Format CTL (30_encoding.md R83) -/

/-- The bits of a word of this format, one by one. -/
theorem ctlWord_bit (o : BitVec 4) (a : Reg) (i : Int) (k : Nat) :
    (ctlWord o a i).getLsbD k =
      (0b0010#4 ++ regBits a ++ o ++ BitVec.ofInt 20 i).getLsbD k := rfl

theorem ctlWord_bits29 (o : BitVec 4) (a : Reg) (i : Int) :
    (ctlWord o a i).extractLsb' 29 3 = 1 := by
  apply BitVec.eq_of_getLsbD_eq
  intro k hk
  rw [BitVec.getLsbD_extractLsb', ctlWord_bit]
  simp only [BitVec.getLsbD_append]
  interval_cases k <;> simp

theorem ctlWord_bits28 (o : BitVec 4) (a : Reg) (i : Int) :
    (ctlWord o a i).extractLsb' 28 1 = 0 := by
  apply BitVec.eq_of_getLsbD_eq
  intro k hk
  rw [BitVec.getLsbD_extractLsb', ctlWord_bit]
  simp only [BitVec.getLsbD_append]
  interval_cases k
  simp

theorem ctlWord_bits24 (o : BitVec 4) (a : Reg) (i : Int) :
    (ctlWord o a i).extractLsb' 24 4 = regBits a := by
  apply BitVec.eq_of_getLsbD_eq
  intro k hk
  rw [BitVec.getLsbD_extractLsb', ctlWord_bit]
  simp only [BitVec.getLsbD_append]
  interval_cases k <;> simp

theorem ctlWord_bits20 (o : BitVec 4) (a : Reg) (i : Int) :
    (ctlWord o a i).extractLsb' 20 4 = o := by
  apply BitVec.eq_of_getLsbD_eq
  intro k hk
  rw [BitVec.getLsbD_extractLsb', ctlWord_bit]
  simp only [BitVec.getLsbD_append]
  interval_cases k <;> simp

theorem ctlWord_bits0 (o : BitVec 4) (a : Reg) (i : Int) :
    (ctlWord o a i).extractLsb' 0 20 = BitVec.ofInt 20 i := by
  apply BitVec.eq_of_getLsbD_eq
  intro k hk
  rw [BitVec.getLsbD_extractLsb', ctlWord_bit]
  simp only [BitVec.getLsbD_append]
  generalize BitVec.ofInt 20 i = j
  interval_cases k <;> simp

/-- The mask of the format keeps the fixed bits and the opcode (30_encoding.md R93). -/
theorem ctlWord_mask (o : BitVec 4) (a : Reg) (i : Int) :
    ctlWord o a i &&& 0xF0F00000 = ctlWord o 0 0 := by
  apply BitVec.eq_of_getLsbD_eq
  intro k hk
  rw [BitVec.getLsbD_and, ctlWord_bit, ctlWord_bit]
  simp only [BitVec.getLsbD_append]
  interval_cases k <;> simp [regBits]

@[simp] theorem ctlWord_group (o : BitVec 4) (a : Reg) (i : Int) :
    group (ctlWord o a i) = 1 := by
  rw [group, ctlWord_bits29]
  rfl
@[simp] theorem ctlWord_bit28 (o : BitVec 4) (a : Reg) (i : Int) :
    bit28 (ctlWord o a i) = 0 := by
  rw [bit28, ctlWord_bits28]
  rfl
@[simp] theorem ctlWord_fieldA (o : BitVec 4) (a : Reg) (i : Int) :
    fieldA (ctlWord o a i) = a := by
  rw [fieldA, ctlWord_bits24, regBits_toFin]
@[simp] theorem ctlWord_ctlOpcode (o : BitVec 4) (a : Reg) (i : Int) :
    ctlOpcode (ctlWord o a i) = o.toNat := by
  rw [ctlOpcode, ctlWord_bits20]
theorem ctlWord_simm20 (o : BitVec 4) (a : Reg) (i : Int) (h : fitsSigned 20 i = true) :
    simm20 (ctlWord o a i) = i := by
  rw [simm20, ctlWord_bits0, toInt_ofInt_of_fits (by omega) h]

end Sys2Proof
end

