-- ==== Sys2Proof/Laws/PerInstr.lean ====
section
/-!
SUPPORT. One law per instruction: its word, whatever its operands, selects its own row of the opcode table
(30_encoding.md R93).
-/

namespace Sys2Proof.Laws

/-- The word of the instruction selects the instruction's row. -/
def RowBits.Statement (i : Instr) : Prop := encode i &&& i.row.mask = i.row.pattern

theorem RowBits.adds (dDest dSrc0 dSrc1 : Reg) : RowBits.Statement (.adds dDest dSrc0 dSrc1) :=
  aluWord_mask _ _ _ _ _ _
theorem RowBits.addv (dDest dSrc0 dSrc1 : Reg) : RowBits.Statement (.addv dDest dSrc0 dSrc1) :=
  aluWord_mask _ _ _ _ _ _
theorem RowBits.subs (dDest dSrc0 dSrc1 : Reg) : RowBits.Statement (.subs dDest dSrc0 dSrc1) :=
  aluWord_mask _ _ _ _ _ _
theorem RowBits.subv (dDest dSrc0 dSrc1 : Reg) : RowBits.Statement (.subv dDest dSrc0 dSrc1) :=
  aluWord_mask _ _ _ _ _ _
theorem RowBits.slts (dDest dSrc0 dSrc1 : Reg) : RowBits.Statement (.slts dDest dSrc0 dSrc1) :=
  aluWord_mask _ _ _ _ _ _
theorem RowBits.sltv (dDest dSrc0 dSrc1 : Reg) : RowBits.Statement (.sltv dDest dSrc0 dSrc1) :=
  aluWord_mask _ _ _ _ _ _
theorem RowBits.muls (dDest dSrc0 dSrc1 : Reg) : RowBits.Statement (.muls dDest dSrc0 dSrc1) :=
  aluWord_mask _ _ _ _ _ _
theorem RowBits.mulv (dDest dSrc0 dSrc1 : Reg) : RowBits.Statement (.mulv dDest dSrc0 dSrc1) :=
  aluWord_mask _ _ _ _ _ _
theorem RowBits.divs (dDest dSrc0 dSrc1 : Reg) : RowBits.Statement (.divs dDest dSrc0 dSrc1) :=
  aluWord_mask _ _ _ _ _ _
theorem RowBits.divv (dDest dSrc0 dSrc1 : Reg) : RowBits.Statement (.divv dDest dSrc0 dSrc1) :=
  aluWord_mask _ _ _ _ _ _
theorem RowBits.ands (dDest dSrc0 dSrc1 : Reg) : RowBits.Statement (.ands dDest dSrc0 dSrc1) :=
  aluWord_mask _ _ _ _ _ _
theorem RowBits.andv (dDest dSrc0 dSrc1 : Reg) : RowBits.Statement (.andv dDest dSrc0 dSrc1) :=
  aluWord_mask _ _ _ _ _ _
theorem RowBits.orrs (dDest dSrc0 dSrc1 : Reg) : RowBits.Statement (.orrs dDest dSrc0 dSrc1) :=
  aluWord_mask _ _ _ _ _ _
theorem RowBits.orrv (dDest dSrc0 dSrc1 : Reg) : RowBits.Statement (.orrv dDest dSrc0 dSrc1) :=
  aluWord_mask _ _ _ _ _ _
theorem RowBits.xors (dDest dSrc0 dSrc1 : Reg) : RowBits.Statement (.xors dDest dSrc0 dSrc1) :=
  aluWord_mask _ _ _ _ _ _
theorem RowBits.xorv (dDest dSrc0 dSrc1 : Reg) : RowBits.Statement (.xorv dDest dSrc0 dSrc1) :=
  aluWord_mask _ _ _ _ _ _
theorem RowBits.shls (dDest dSrc0 dSrc1 : Reg) : RowBits.Statement (.shls dDest dSrc0 dSrc1) :=
  aluWord_mask _ _ _ _ _ _
theorem RowBits.shlv (dDest dSrc0 dSrc1 : Reg) : RowBits.Statement (.shlv dDest dSrc0 dSrc1) :=
  aluWord_mask _ _ _ _ _ _
theorem RowBits.shrs (dDest dSrc0 dSrc1 : Reg) : RowBits.Statement (.shrs dDest dSrc0 dSrc1) :=
  aluWord_mask _ _ _ _ _ _
theorem RowBits.shrv (dDest dSrc0 dSrc1 : Reg) : RowBits.Statement (.shrv dDest dSrc0 dSrc1) :=
  aluWord_mask _ _ _ _ _ _
theorem RowBits.invs (dDest dSrc0 : Reg) : RowBits.Statement (.invs dDest dSrc0) :=
  aluWord_mask _ _ _ _ _ _
theorem RowBits.invv (dDest dSrc0 : Reg) : RowBits.Statement (.invv dDest dSrc0) :=
  aluWord_mask _ _ _ _ _ _
theorem RowBits.nots (dDest dSrc0 : Reg) : RowBits.Statement (.nots dDest dSrc0) :=
  aluWord_mask _ _ _ _ _ _
theorem RowBits.notv (dDest dSrc0 : Reg) : RowBits.Statement (.notv dDest dSrc0) :=
  aluWord_mask _ _ _ _ _ _
theorem RowBits.addsPc (dDest : Reg) (simm12 : Int) : RowBits.Statement (.addsPc dDest simm12) :=
  aluWord_mask _ _ _ _ _ _
theorem RowBits.addvPc (dDest : Reg) (simm12 : Int) : RowBits.Statement (.addvPc dDest simm12) :=
  aluWord_mask _ _ _ _ _ _
theorem RowBits.btru (dA : Reg) (simm20 : Int) : RowBits.Statement (.btru dA simm20) :=
  ctlWord_mask _ _ _
theorem RowBits.bfal (dA : Reg) (simm20 : Int) : RowBits.Statement (.bfal dA simm20) :=
  ctlWord_mask _ _ _
theorem RowBits.jmp (dA : Reg) : RowBits.Statement (.jmp dA) :=
  ctlWord_mask _ _ _
theorem RowBits.ldu8 (dA dB dC : Reg) (simm12 : Int) : RowBits.Statement (.ldu8 dA dB dC simm12) :=
  loadWord_mask _ _ _ _ _
theorem RowBits.lds8 (dA dB dC : Reg) (simm12 : Int) : RowBits.Statement (.lds8 dA dB dC simm12) :=
  loadWord_mask _ _ _ _ _
theorem RowBits.ldu16 (dA dB dC : Reg) (simm12 : Int) : RowBits.Statement (.ldu16 dA dB dC simm12) :=
  loadWord_mask _ _ _ _ _
theorem RowBits.lds16 (dA dB dC : Reg) (simm12 : Int) : RowBits.Statement (.lds16 dA dB dC simm12) :=
  loadWord_mask _ _ _ _ _
theorem RowBits.ldu32 (dA dB dC : Reg) (simm12 : Int) : RowBits.Statement (.ldu32 dA dB dC simm12) :=
  loadWord_mask _ _ _ _ _
theorem RowBits.lds32 (dA dB dC : Reg) (simm12 : Int) : RowBits.Statement (.lds32 dA dB dC simm12) :=
  loadWord_mask _ _ _ _ _
theorem RowBits.ldu64 (dA dB dC : Reg) (simm12 : Int) : RowBits.Statement (.ldu64 dA dB dC simm12) :=
  loadWord_mask _ _ _ _ _
theorem RowBits.lds64 (dA dB dC : Reg) (simm12 : Int) : RowBits.Statement (.lds64 dA dB dC simm12) :=
  loadWord_mask _ _ _ _ _
theorem RowBits.ldf16 (dA dB dC : Reg) (simm12 : Int) : RowBits.Statement (.ldf16 dA dB dC simm12) :=
  loadWord_mask _ _ _ _ _
theorem RowBits.stu8 (dA dB dC : Reg) (simm12 : Int) : RowBits.Statement (.stu8 dA dB dC simm12) :=
  storeWord_mask _ _ _ _ _
theorem RowBits.sts8 (dA dB dC : Reg) (simm12 : Int) : RowBits.Statement (.sts8 dA dB dC simm12) :=
  storeWord_mask _ _ _ _ _
theorem RowBits.stu16 (dA dB dC : Reg) (simm12 : Int) : RowBits.Statement (.stu16 dA dB dC simm12) :=
  storeWord_mask _ _ _ _ _
theorem RowBits.sts16 (dA dB dC : Reg) (simm12 : Int) : RowBits.Statement (.sts16 dA dB dC simm12) :=
  storeWord_mask _ _ _ _ _
theorem RowBits.stu32 (dA dB dC : Reg) (simm12 : Int) : RowBits.Statement (.stu32 dA dB dC simm12) :=
  storeWord_mask _ _ _ _ _
theorem RowBits.sts32 (dA dB dC : Reg) (simm12 : Int) : RowBits.Statement (.sts32 dA dB dC simm12) :=
  storeWord_mask _ _ _ _ _
theorem RowBits.stu64 (dA dB dC : Reg) (simm12 : Int) : RowBits.Statement (.stu64 dA dB dC simm12) :=
  storeWord_mask _ _ _ _ _
theorem RowBits.sts64 (dA dB dC : Reg) (simm12 : Int) : RowBits.Statement (.sts64 dA dB dC simm12) :=
  storeWord_mask _ _ _ _ _
theorem RowBits.stf16 (dA dB dC : Reg) (simm12 : Int) : RowBits.Statement (.stf16 dA dB dC simm12) :=
  storeWord_mask _ _ _ _ _

end Sys2Proof.Laws
end

