-- ==== Sys2Proof/Tests/Slice0.lean ====
section
/-!
SUPPORT. The model's own tests. Expected results are those of 95_test_vectors.md (the section is named at each group),
or follow by hand from the rule named; after them a witness for every statement that has hypotheses.
-/

set_option Elab.async false

namespace Sys2Proof.Tests

open Sys2Proof.Machine

/-! ## Small states -/

abbrev u8 : LaneType := .int .b8 false
abbrev s8 : LaneType := .int .b8 true
abbrev u16 : LaneType := .int .b16 false
abbrev s16 : LaneType := .int .b16 true
abbrev u32 : LaneType := .int .b32 false
abbrev s32 : LaneType := .int .b32 true
abbrev u64 : LaneType := .int .b64 false
abbrev s64 : LaneType := .int .b64 true
abbrev f16 : LaneType := .f16

/-- A tagged Data LAR. -/
def lar (t : LaneType) (addr : Word) (data : Line) (dirty : Bool) : DataLar :=
  { DataLar.zero.retype t with data := data, addr := addr, dirty := dirty, tagged := true }

/-- The bytes 0x00, 0x01, ..., 0x1f. -/
def rising : Line := lineOfBytes fun j => BitVec.ofNat 8 j

/-- Line 0x100 holds the bytes 0x00 to 0x1f, line 0x200 holds 0xaa in every byte. -/
def memory : Memory := (Memory.writeLine [] 8 rising).writeLine 16 (lineOfBytes fun _ => 0xaa)

/-- Launched at 0x1000 with that memory. -/
def start (p : Params) : State := State.launch p 0x1000 memory

/-- Lines 0x100 and 0x1000 are backed, no other. -/
def narrow : Params := { Params.standard with memMap := [⟨8, 8⟩, ⟨128, 128⟩] }

/-- du0, du1 and du2 on lines of their own, with the scalars 0, `x` and `y` in lane 0. -/
def alu (ta tb tc : LaneType) (x y : Nat) : State :=
  (((start Params.standard).setDlar du0 (lar ta 0x300 0 false)).setDlar du1
    (lar tb 0x320 (BitVec.ofNat 256 x) false)).setDlar du2 (lar tc 0x340 (BitVec.ofNat 256 y) false)

/-- The data field with the given lanes. -/
def lanesOf (t : LaneType) (l : List Nat) : Line := lineOfLanes .little t.bytes fun k => l.getD k 0

/-- du0, du1 and du2 on lines of their own, du1 and du2 with the given lanes. -/
def vec (ta tb tc : LaneType) (x y : List Nat) : State :=
  (((start Params.standard).setDlar du0 (lar ta 0x300 0 false)).setDlar du1
    (lar tb 0x320 (lanesOf tb x) false)).setDlar du2 (lar tc 0x340 (lanesOf tc y) false)

/-- One step from `s` with the word `w` at `pc`. -/
def run (w : IWord) (s : State) : Outcome := step (s.placeWord w)

/-- A property of the next state. -/
def next (o : Outcome) (p : State → Bool) : Bool :=
  match o with
  | .next t => p t
  | _ => false

/-- The fault a step ended in. -/
def fault (o : Outcome) (f : Fault) : Bool :=
  match o with
  | .fault g => g == f
  | _ => false

/-- The scalar of `r` after a step. -/
def scalar (o : Outcome) (r : Reg) (x : Nat) : Bool := next o fun t => t.sdata r == x

/-- The lanes of `r` after a step. -/
def lanes (o : Outcome) (r : Reg) (l : List Nat) : Bool :=
  next o fun t => (List.range (t.type r).lanes).map (t.lane r) == l

/-- `pc` after a step. -/
def pcIs (o : Outcome) (v : Word) : Bool := next o fun t => t.pc == v

/-! ## Well-formedness: an immediate that does not fit is refused (30_encoding.md R87) -/

theorem test_illformed_addsPc_low :
    (Instr.addsPc du0 (-2049)).wellFormed = false := by
  decide +kernel

theorem test_illformed_addvPc_high :
    (Instr.addvPc du0 2048).wellFormed = false := by
  decide +kernel

theorem test_illformed_btru_low :
    (Instr.btru du0 (-524289)).wellFormed = false := by
  decide +kernel

theorem test_illformed_bfal_high :
    (Instr.bfal du0 524288).wellFormed = false := by
  decide +kernel

theorem test_illformed_load_high :
    (Instr.ldu8 du0 du1 du2 2048).wellFormed = false := by
  decide +kernel

theorem test_illformed_store_low :
    (Instr.stf16 du0 du1 du2 (-2049)).wellFormed = false := by
  decide +kernel

/-! ## Decoding: words written out from the encodings (95_test_vectors.md 2.1; the rest by 30_encoding.md R82 to R90) -/

theorem test_words_alu_scalar :
    [0x01230000,
      0x01231000,
      0x01232000,
      0x01233000,
      0x01234000,
      0x01235000,
      0x01236000,
      0x01237000,
      0x01238000,
      0x01239000,
      0x0120a000,
      0x0120b000,
      0x0d00c008,
      0x0100cffc].map decodeWord =
    [.ok (.adds du0 du1 du2),
      .ok (.subs du0 du1 du2),
      .ok (.slts du0 du1 du2),
      .ok (.muls du0 du1 du2),
      .ok (.divs du0 du1 du2),
      .ok (.ands du0 du1 du2),
      .ok (.orrs du0 du1 du2),
      .ok (.xors du0 du1 du2),
      .ok (.shls du0 du1 du2),
      .ok (.shrs du0 du1 du2),
      .ok (.invs du0 du1),
      .ok (.nots du0 du1),
      .ok (.addsPc dlr 8),
      .ok (.addsPc du0 (-4))] := by
  decide +kernel

theorem test_words_alu_vector :
    [0x11230000,
      0x11231000,
      0x11232000,
      0x11233000,
      0x11234000,
      0x11235000,
      0x11236000,
      0x11237000,
      0x11238000,
      0x11239000,
      0x1120a000,
      0x1120b000,
      0x1100c008].map decodeWord =
    [.ok (.addv du0 du1 du2),
      .ok (.subv du0 du1 du2),
      .ok (.sltv du0 du1 du2),
      .ok (.mulv du0 du1 du2),
      .ok (.divv du0 du1 du2),
      .ok (.andv du0 du1 du2),
      .ok (.orrv du0 du1 du2),
      .ok (.xorv du0 du1 du2),
      .ok (.shlv du0 du1 du2),
      .ok (.shrv du0 du1 du2),
      .ok (.invv du0 du1),
      .ok (.notv du0 du1),
      .ok (.addvPc du0 8)] := by
  decide +kernel

theorem test_words_control :
    [0x21000010,
      0x210ffff8,
      0x211ffff8,
      0x2017fffc,
      0x2d200000].map decodeWord =
    [.ok (.btru du0 16),
      .ok (.btru du0 (-8)),
      .ok (.bfal du0 (-8)),
      .ok (.bfal dzero 0x7fffc),
      .ok (.jmp dlr)] := by
  decide +kernel

theorem test_words_load :
    [0x41360fff,
      0x41361fff,
      0x41362fff,
      0x41363fff,
      0x41364fff,
      0x41365fff,
      0x41366fff,
      0x41367fff,
      0x41368fff,
      0x42103003].map decodeWord =
    [.ok (.ldu8 du0 du2 du5 (-1)),
      .ok (.lds8 du0 du2 du5 (-1)),
      .ok (.ldu16 du0 du2 du5 (-1)),
      .ok (.lds16 du0 du2 du5 (-1)),
      .ok (.ldu32 du0 du2 du5 (-1)),
      .ok (.lds32 du0 du2 du5 (-1)),
      .ok (.ldu64 du0 du2 du5 (-1)),
      .ok (.lds64 du0 du2 du5 (-1)),
      .ok (.ldf16 du0 du2 du5 (-1)),
      .ok (.lds16 du1 du0 dzero 3)] := by
  decide +kernel

theorem test_words_store :
    [0x61360104,
      0x61361104,
      0x61362104,
      0x61363104,
      0x61364104,
      0x61365104,
      0x61366104,
      0x61367104,
      0x61368104,
      0x61126100].map decodeWord =
    [.ok (.stu8 du0 du2 du5 0x104),
      .ok (.sts8 du0 du2 du5 0x104),
      .ok (.stu16 du0 du2 du5 0x104),
      .ok (.sts16 du0 du2 du5 0x104),
      .ok (.stu32 du0 du2 du5 0x104),
      .ok (.sts32 du0 du2 du5 0x104),
      .ok (.stu64 du0 du2 du5 0x104),
      .ok (.sts64 du0 du2 du5 0x104),
      .ok (.stf16 du0 du2 du5 0x104),
      .ok (.stu64 du0 du0 du1 0x100)] := by
  decide +kernel

theorem test_words_unused_fields :
    [0x0123a000,
      0x212fffff,
      0x00000000].map decodeWord =
    [.ok (.invs du0 du1),
      .ok (.jmp du0),
      .ok (.adds dzero dzero dzero)] := by
  decide +kernel

theorem test_words_invalid :
    [0x0123d000, 0x0123e000, 0x1123f000, 0x21300000, 0x21f00010, 0x41009105, 0x4100f105, 0x61009205, 0x31000010,
      0x51000105, 0x71000205, 0x80000000, 0xa1234567, 0xc0000000, 0xffffffff].map decodeWord =
    [.error .aluOpcode, .error .aluOpcode, .error .aluOpcode, .error .ctlOpcode, .error .ctlOpcode,
      .error .loadOpcode, .error .loadOpcode, .error .storeOpcode, .error .bit28Set, .error .bit28Set,
      .error .bit28Set, .error .undefinedGroup, .error .undefinedGroup, .error .undefinedGroup,
      .error .undefinedGroup] := by
  decide +kernel

theorem test_table_word : decodeTableWord 32 0x42103003 = some (.lds16 du1 du0 dzero 3) := by
  decide +kernel

theorem test_too_few_bytes : decodeBytes .little [0x03, 0x30, 0x10] = .error .truncated := by
  decide +kernel

theorem test_big_endian_bytes :
    decodeBytes .big [0x42, 0x10, 0x30, 0x03, 0xff] = .ok (.lds16 du1 du0 dzero 3, [0xff]) := by
  decide +kernel

/-- An invalid word moves only `pc` (95_test_vectors.md 2.1). -/
theorem test_invalid_is_nop :
    next (run 0xffffffff (start Params.standard)) (fun t =>
      t == ((start Params.standard).placeWord 0xffffffff).advance) = true := by
  decide +kernel

/-- With nothing placed, the zero word runs from reset: `adds dzero, dzero, dzero` (30_encoding.md R90). -/
theorem test_step_from_reset : next (step State.reset) (fun t => t == State.reset.advance) = true := by
  decide +kernel

/-- The first instruction after reset is the one placed by `withFetchWord`. -/
theorem test_first_instruction :
    next (step (State.reset.withFetchWord 32 0x41000105)) (fun t => (t.dlar du0).addr == 0x105 && t.pc == 0x1004) =
      true := by
  decide +kernel

/-! ## Scalar ALU (95_test_vectors.md 2.2) -/

theorem test_adds_wraps :
    scalar (run 0x01230000 (alu u8 u8 u8 0xc8 0x64)) du0 0x2c = true := by
  decide +kernel

theorem test_subs_borrow :
    scalar (run 0x01231000 (alu u8 u8 u8 0x5 0xa)) du0 0xfb = true := by
  decide +kernel

theorem test_subs_signed :
    scalar (run 0x01231000 (alu s32 s8 s8 0x80 0x7f)) du0 0xffffff01 = true := by
  decide +kernel

theorem test_slts_signed :
    scalar (run 0x01232000 (alu s8 s8 s8 0x80 0x7f)) du0 1 = true := by
  decide +kernel

theorem test_slts_unsigned_dest :
    scalar (run 0x01232000 (alu u8 s8 s8 0x80 0x7f)) du0 0 = true := by
  decide +kernel

theorem test_muls_in_band_source :
    scalar (run 0x01233000 (alu s64 u8 s8 0xff 0x2)) du0 0x1fe = true := by
  decide +kernel

theorem test_divs_most_negative :
    scalar (run 0x01234000 (alu s8 s8 s8 0x80 0xff)) du0 0x80 = true := by
  decide +kernel

theorem test_ands_extends :
    scalar (run 0x01235000 (alu u64 s8 u8 0x80 0xff)) du0 0x80 = true := by
  decide +kernel

theorem test_ands_f16_bits :
    scalar (run 0x01235000 (alu f16 f16 f16 0x3f80 0x7f80)) du0 0x3f80 = true := by
  decide +kernel

theorem test_orrs_extends :
    scalar (run 0x01236000 (alu s32 s8 u16 0x80 0x1)) du0 0xffffff81 = true := by
  decide +kernel

theorem test_xors :
    scalar (run 0x01237000 (alu u8 u8 u8 0xff 0xf)) du0 0xf0 = true := by
  decide +kernel

theorem test_shls_amount_cast_first :
    scalar (run 0x01238000 (alu u8 u8 u64 0x1 0x100)) du0 1 = true := by
  decide +kernel

theorem test_shls_amount_width :
    scalar (run 0x01238000 (alu u64 u8 u8 0x1 0x40)) du0 0 = true := by
  decide +kernel

theorem test_shrs_arithmetic :
    scalar (run 0x01239000 (alu u8 s8 u8 0x80 0x1)) du0 0xc0 = true := by
  decide +kernel

theorem test_shrs_amount_unsigned :
    scalar (run 0x01239000 (alu u8 s8 s8 0x80 0xff)) du0 0xff = true := by
  decide +kernel

theorem test_invs_cast_first :
    scalar (run 0x0120a000 (alu u64 s8 u8 0x80 0x0)) du0 0x7f = true := by
  decide +kernel

theorem test_nots_cast_first :
    scalar (run 0x0120b000 (alu u8 u64 u8 0x100 0x0)) du0 1 = true := by
  decide +kernel

/-- Only the lane that the address selects is written (95_test_vectors.md 2.2, lane selection). -/
theorem test_adds_lane :
    next (run 0x01230000 ((alu u16 u16 u16 0x1234 1).setDlar du0 (lar u16 0x306 0 false))) (fun t =>
      (t.dlar du0).data == BitVec.ofNat 256 (0x1235 * 2 ^ 48) && (t.dlar du0).dirty && t.pc == 0x1004) = true := by
  decide +kernel

/-- The other reading of the `mul` note (95_test_vectors.md 2.2). -/
theorem test_muls_in_band_dest :
    scalar (exec (.muls du0 du1 du2)
      ({ alu s64 u8 s8 0xff 2 with params := { Params.standard with mulWidenSign := .dest } })) du0 0xfffffffffffffffe =
      true := by
  decide +kernel

/-- A division by zero gives the next free value, and the run goes on (95_test_vectors.md 2.2). -/
theorem test_divs_by_zero :
    next (run 0x01234000 (alu u32 u32 u32 5 0)) (fun t => t.pc == 0x1004 && t.draws == 1 && (t.dlar du0).dirty) =
      true := by
  decide +kernel

theorem test_addsPc_back :
    scalar (run 0x0100cffc (alu u64 u8 u8 0 0)) du0 0xffc = true := by
  decide +kernel

theorem test_addsPc_following :
    scalar (run 0x0100c7ff { alu s8 u8 u8 0 0 with params := { Params.standard with pcrelBase := .following } }) du0 3 =
      true := by
  decide +kernel

/-! ## Vector ALU (95_test_vectors.md 2.3) -/

theorem test_addv :
    lanes (run 0x11230000 (vec u64 u64 u64
      [1, 0xffffffffffffffff, 5, 0]
      [2, 1, 0xffffffffffffffff, 0])) du0
      [3, 0, 4, 0] = true := by
  decide +kernel

theorem test_subv :
    lanes (run 0x11231000 (vec u32 u32 s32
      [0, 1, 2, 3, 4, 5, 6, 7]
      [1, 1, 1, 1, 1, 1, 1, 1])) du0
      [0xffffffff, 0, 1, 2, 3, 4, 5, 6] = true := by
  decide +kernel

theorem test_sltv_signed :
    lanes (run 0x11232000 (vec s16 s16 s16
      [0xfff8, 0xfff9, 0xfffa, 0xfffb, 0xfffc, 0xfffd, 0xfffe, 0xffff, 0, 1, 2, 3, 4, 5, 6, 7]
      [0, 0, 0, 0, 0, 0, 0, 0, 0, 0, 0, 0, 0, 0, 0, 0])) du0
      [1, 1, 1, 1, 1, 1, 1, 1, 0, 0, 0, 0, 0, 0, 0, 0] = true := by
  decide +kernel

theorem test_sltv_unsigned :
    lanes (run 0x11232000 (vec u16 s16 s16
      [0xfff8, 0xfff9, 0xfffa, 0xfffb, 0xfffc, 0xfffd, 0xfffe, 0xffff, 0, 1, 2, 3, 4, 5, 6, 7]
      [0, 0, 0, 0, 0, 0, 0, 0, 0, 0, 0, 0, 0, 0, 0, 0])) du0
      [0, 0, 0, 0, 0, 0, 0, 0, 0, 0, 0, 0, 0, 0, 0, 0] = true := by
  decide +kernel

theorem test_mulv :
    lanes (run 0x11233000 (vec u64 u64 s64
      [3, 0x100000000, 0xffffffffffffffff, 0]
      [5, 0x100000000, 0xffffffffffffffff, 9])) du0
      [15, 0, 1, 0] = true := by
  decide +kernel

theorem test_divv :
    lanes (run 0x11234000 (vec s64 s64 s64
      [0x64, 0xffffffffffffff9c, 0x8000000000000000, 7]
      [7, 7, 0xffffffffffffffff, 1])) du0
      [14, 0xfffffffffffffff2, 0x8000000000000000, 7] = true := by
  decide +kernel

theorem test_andv_f16 :
    lanes (run 0x11235000 (vec f16 s16 u16
      [0xffff, 0x8000, 0, 0, 0, 0, 0, 0, 0, 0, 0, 0, 0, 0, 0, 0]
      [0x7fff, 0xffff, 0, 0, 0, 0, 0, 0, 0, 0, 0, 0, 0, 0, 0, 0])) du0
      [0x7fff, 0x8000, 0, 0, 0, 0, 0, 0, 0, 0, 0, 0, 0, 0, 0, 0] = true := by
  decide +kernel

theorem test_orrv :
    lanes (run 0x11236000 (vec u64 u64 u64
      [1, 2, 4, 8]
      [0x10, 0x20, 0x40, 0x80])) du0
      [0x11, 0x22, 0x44, 0x88] = true := by
  decide +kernel

theorem test_xorv :
    lanes (run 0x11237000 (vec u64 u64 u64
      [0xffffffffffffffff, 0, 0xff, 0xf0]
      [0xffffffffffffffff, 0xffffffffffffffff, 15, 0xf0])) du0
      [0, 0xffffffffffffffff, 0xf0, 0] = true := by
  decide +kernel

theorem test_shlv :
    lanes (run 0x11238000 (vec u64 u64 u64
      [1, 1, 1, 0xffffffffffffffff]
      [0, 0x3f, 0x40, 4])) du0
      [1, 0x8000000000000000, 0, 0xfffffffffffffff0] = true := by
  decide +kernel

theorem test_shrv_arithmetic :
    lanes (run 0x11239000 (vec u64 s64 u64
      [0x8000000000000000, 0x8000000000000000, 0x100, 0xffffffffffffffff]
      [0x3f, 0x40, 4, 1])) du0
      [0xffffffffffffffff, 0xffffffffffffffff, 0x10, 0xffffffffffffffff] = true := by
  decide +kernel

theorem test_shrv_logical :
    lanes (run 0x11239000 (vec s64 u64 u64
      [0x8000000000000000, 0x8000000000000000, 0x100, 0xffffffffffffffff]
      [0x3f, 0x40, 4, 1])) du0
      [1, 0, 0x10, 0x7fffffffffffffff] = true := by
  decide +kernel

theorem test_invv :
    lanes (run 0x1120a000 (vec u64 u64 u8
      [0, 0xffffffffffffffff, 0xff, 0x8000000000000000]
      [])) du0
      [0xffffffffffffffff, 0, 0xffffffffffffff00, 0x7fffffffffffffff] = true := by
  decide +kernel

theorem test_notv :
    lanes (run 0x1120b000 (vec u64 u64 u8
      [0, 0xffffffffffffffff, 0xff, 0]
      [])) du0
      [1, 0, 0, 1] = true := by
  decide +kernel

theorem test_addvPc :
    lanes (run 0x1100c008 (alu u64 u8 u8 0 0)) du0 [0x1008, 0x1008, 0x1008, 0x1008] = true := by
  decide +kernel

theorem test_addv_mismatch :
    fault (run 0x11230000 (alu u8 u16 u8 0 0)) .vectorLaneCountMismatch = true := by
  decide +kernel

theorem test_addv_mismatch_dzero :
    fault (run 0x10230000 (alu u8 u16 u8 0 0)) .vectorLaneCountMismatch = true := by
  decide +kernel

theorem test_notv_mismatch :
    fault (run 0x1120b000 (alu u8 u64 u8 0 0)) .vectorLaneCountMismatch = true := by
  decide +kernel

/-! ## Control (95_test_vectors.md 2.4) -/

theorem test_btru_taken :
    pcIs (run 0x21000010 (alu u8 u8 u8 0 0 |>.setDlar du0 (lar u8 0x300 1 false))) 0x1010 = true := by
  decide +kernel

theorem test_btru_only_scalar :
    pcIs (run 0x21000010 (alu u8 u8 u8 0 0 |>.setDlar du0 (lar u8 0x305 (setLane .little 1 (~~~0) 5 0) false)))
      0x1004 = true := by
  decide +kernel

theorem test_bfal_following :
    pcIs (run 0x211ffff8 { alu u64 u8 u8 0 0 with params := { Params.standard with pcrelBase := .following } }) 0xffc =
      true := by
  decide +kernel

theorem test_bfal_negative_zero :
    pcIs (run 0x21100010 (alu f16 u8 u8 0 0 |>.setDlar du0 (lar f16 0x300 0x8000 false))) 0x1004 = true := by
  decide +kernel

theorem test_jmp_sign_extends :
    pcIs (run 0x21200000 (alu s16 u8 u8 0 0 |>.setDlar du0 (lar s16 0x300 0x8000 false))) 0xffffffffffff8000 =
      true := by
  decide +kernel

theorem test_jmp_dzero :
    pcIs (run 0x20200000 (start Params.standard)) 0 = true := by
  decide +kernel

/-! ## Loads (95_test_vectors.md 2.5: each type at one address, L-b, L-d, L-e, L-f, L-i) -/

/-- Memory 0x108 to 0x10f is 88 99 aa bb cc dd ee ff. -/
def typed (p : Params) : State :=
  { start p with mem := memory.write 0x108 8 fun j => BitVec.ofNat 8 (0x88 + 0x11 * j) }

/-- The type and the scalar of du0 after a step, in a clean and tagged Data LAR of address `a`. -/
def loaded (o : Outcome) (a : Word) (t : LaneType) (x : Nat) (dirty : Bool) : Bool :=
  next o fun u => u.type du0 == t && u.sdata du0 == x && (u.dlar du0).addr == a && (u.dlar du0).dirty == dirty &&
    (u.dlar du0).tagged && u.pc == 0x1004

theorem test_ldu8 :
    loaded (run 0x41000108 (typed Params.standard)) 0x108 u8 0x88 false = true := by
  decide +kernel

theorem test_lds8 :
    loaded (run 0x41001108 (typed Params.standard)) 0x108 s8 0x88 false = true := by
  decide +kernel

theorem test_ldu16 :
    loaded (run 0x41002108 (typed Params.standard)) 0x108 u16 0x9988 false = true := by
  decide +kernel

theorem test_lds16 :
    loaded (run 0x41003108 (typed Params.standard)) 0x108 s16 0x9988 false = true := by
  decide +kernel

theorem test_ldu32 :
    loaded (run 0x41004108 (typed Params.standard)) 0x108 u32 0xbbaa9988 false = true := by
  decide +kernel

theorem test_lds32 :
    loaded (run 0x41005108 (typed Params.standard)) 0x108 s32 0xbbaa9988 false = true := by
  decide +kernel

theorem test_ldu64 :
    loaded (run 0x41006108 (typed Params.standard)) 0x108 u64 0xffeeddccbbaa9988 false = true := by
  decide +kernel

theorem test_lds64 :
    loaded (run 0x41007108 (typed Params.standard)) 0x108 s64 0xffeeddccbbaa9988 false = true := by
  decide +kernel

theorem test_ldf16 :
    loaded (run 0x41008108 (typed Params.standard)) 0x108 f16 0x9988 false = true := by
  decide +kernel

theorem test_ldu64_big_endian :
    loaded (run 0x41006108 (typed { Params.standard with endian := .big })) 0x108 u64 0x8899aabbccddeeff false = true := by
  decide +kernel

/-- A load of a line another Data LAR holds copies that one's data, not memory (L-b). -/
theorem test_lds16_hit :
    next (run 0x42103003 ((start Params.standard).setDlar du0 (lar u8 0x105 (rising + 1) true))) (fun t =>
      t.dlar du1 == lar s16 0x108 (rising + 1) true && t.mem.read 0x100 == 0) = true := by
  decide +kernel

/-- A signed index is sign-extended, an unsigned one zero-extended (L-d, L-e). -/
theorem test_index_extension :
    ((alu u64 s8 u8 0xf8 0).setDlar du0 (lar u64 0x110 0 false)).effectiveAddress du0 du1 0 = 0x108 ∧
    ((alu u64 u8 u8 0xf8 0).setDlar du0 (lar u64 0x110 0 false)).effectiveAddress du0 du1 0 = 0x208 := by
  decide +kernel

/-- The address wraps: the top byte of the address space (L-f). -/
theorem test_ldu8_top :
    loaded (run 0x41000fff { start Params.standard with mem := [(2 ^ 64 - 1, 0xff)] }) (~~~0) u8 0xff false = true := by
  decide +kernel

theorem test_load_untagged_base :
    fault (run 0x41201000 (start { Params.standard with untaggedStops := true })) (.untaggedLarRead du1) = true := by
  decide +kernel

/-- A load into dzero only moves `pc` (L-h). -/
theorem test_load_into_dzero :
    next (run 0x40002105 (start Params.standard)) (fun t =>
      t == ((start Params.standard).placeWord 0x40002105).advance) = true := by
  decide +kernel

/-! ## Stores (95_test_vectors.md 2.6: each type, S1 to S5) -/

/-- du0 holds line 0x100, clean. -/
def held (p : Params) : State := (start p).setDlar du0 (lar u8 0x100 rising false)

theorem test_stu8 :
    loaded (run 0x61000208 (held Params.standard)) 0x208 u8 8 true = true := by
  decide +kernel

theorem test_sts8 :
    loaded (run 0x61001208 (held Params.standard)) 0x208 s8 8 true = true := by
  decide +kernel

theorem test_stu16 :
    loaded (run 0x61002208 (held Params.standard)) 0x208 u16 0x0908 true = true := by
  decide +kernel

theorem test_sts16 :
    loaded (run 0x61003208 (held Params.standard)) 0x208 s16 0x0908 true = true := by
  decide +kernel

theorem test_stu32 :
    loaded (run 0x61004208 (held Params.standard)) 0x208 u32 0x0b0a0908 true = true := by
  decide +kernel

theorem test_sts32 :
    loaded (run 0x61005208 (held Params.standard)) 0x208 s32 0x0b0a0908 true = true := by
  decide +kernel

theorem test_stu64 :
    loaded (run 0x61006208 (held Params.standard)) 0x208 u64 0x0f0e0d0c0b0a0908 true = true := by
  decide +kernel

theorem test_sts64 :
    loaded (run 0x61007208 (held Params.standard)) 0x208 s64 0x0f0e0d0c0b0a0908 true = true := by
  decide +kernel

theorem test_stf16 :
    loaded (run 0x61008208 (held Params.standard)) 0x208 f16 0x0908 true = true := by
  decide +kernel

/-- A store writes no memory, and the view of its line is the data of `dA` (S1). -/
theorem test_stu32_view :
    next (run 0x61004204 (held Params.standard)) (fun t =>
      t.mem.read 0x204 == 0xaa && t.mem.read 0x105 == 5 && t.viewLine 16 == rising) = true := by
  decide +kernel

/-- A store onto a line that another Data LAR holds gives that one the data (S2). -/
theorem test_sts32_onto_holder :
    next (run 0x61005204 ((held Params.standard).setDlar du1 (lar u64 0x208 0 false))) (fun t =>
      t.dlar du1 == lar u64 0x208 rising true && t.sdata du1 == 0x0f0e0d0c0b0a0908) = true := by
  decide +kernel

/-- A store to the line `dA` holds already moves nothing and marks the other holder dirty (S3). -/
theorem test_sts64_same_line :
    next (run 0x61007108 ((held Params.standard).setDlar du1 (lar u8 0x100 rising false))) (fun t =>
      t.dlar du0 == lar s64 0x108 rising true && t.dlar du1 == lar u8 0x100 rising true && t.mem.read 0x108 == 8) =
      true := by
  decide +kernel

/-- Dirty data is written back when its Data LAR moves away (S4). -/
theorem test_stu8_release :
    next (run 0x61000205 ((start Params.standard).setDlar du0 (lar u8 0x105 (rising + 5) true))) (fun t =>
      t.mem.read 0x100 == 5 && t.mem.read 0x205 == 0xaa && (t.dlar du0).dirty) = true := by
  decide +kernel

theorem test_store_untagged :
    fault (run 0x61001205 (start { Params.standard with untaggedStops := true })) (.untaggedLarRead du0) = true := by
  decide +kernel

/-- A store of dzero only moves `pc` (S7). -/
theorem test_store_of_dzero :
    next (run 0x60002105 (start Params.standard)) (fun t =>
      t == ((start Params.standard).placeWord 0x60002105).advance) = true := by
  decide +kernel

/-! ## Aliasing, the fetch, write-back (95_test_vectors.md 2.7; 20_memory.md R62, R72) -/

/-- Two Data LARs on one line share a write (A1). -/
theorem test_aliases :
    next (run 0x02220000 (((start Params.standard).setDlar du0 (lar u8 0x104 rising false)).setDlar du1
        (lar u32 0x104 rising false))) (fun t =>
      t.sdata du1 == 0x0e0c0a08 && t.sdata du0 == 8 && (t.dlar du0).dirty && (t.dlar du1).dirty &&
        t.mem.read 0x104 == 4 && lineByte (t.viewLine 8) 5 == 0x0a) = true := by
  decide +kernel

/-- A fetch from a line that is held clean reads memory; held dirty, it stops (A2). -/
theorem test_fetch_dirty_line :
    pcIs (run 0x00000000 ((start Params.standard).setDlar du0 (lar u8 0x1008 rising false))) 0x1004 = true ∧
    fault (run 0x00000000 ((start Params.standard).setDlar du0 (lar u8 0x1008 0 true))) .fetchFromDirtyLine = true := by
  decide +kernel

theorem test_fetch_misaligned :
    fault (step (State.launch Params.standard 0x1002 memory)) .misalignedPc = true := by
  decide +kernel

theorem test_fetch_unbacked :
    fault (step (State.launch narrow 0x1020 memory)) (.unbackedLine 129) = true := by
  decide +kernel

/-- Untagged operands stop in the order dDest, dSrc0, dSrc1 (A4). -/
theorem test_untagged_order :
    fault (run 0x01230000 (start { Params.standard with untaggedStops := true })) (.untaggedLarRead du0) = true ∧
    fault (run 0x01230000 ((start { Params.standard with untaggedStops := true }).setDlar du0 (lar u8 0x300 0 false)))
      (.untaggedLarRead du1) = true := by
  decide +kernel

/-- The internal write-back fires before the instruction where it is scheduled (20_memory.md R62). -/
theorem test_early_write_back :
    next (run 0x00000000 { (held Params.standard).setDlar du0 (lar u8 0x100 (rising + 5) true) with schedule := [[8]] })
      (fun t => t.mem.read 0x100 == 5 && !(t.dlar du0).dirty && t.schedule == []) = true := by
  decide +kernel

/-- The flush of a harness writes a dirty line back (70_reset_and_hazards.md R235). -/
theorem test_flush :
    (((held Params.standard).setDlar du0 (lar u8 0x100 (rising + 5) true)).flush.mem.read 0x100 == 5) = true := by
  decide +kernel

theorem test_run_over : (start Params.standard).runOver [0x1014, 0x1000] = true := by
  decide +kernel

/-- A load of a line that nothing backs is stuck (20_memory.md R72). -/
theorem test_load_unbacked :
    fault (run 0x41000205 (start narrow)) (.unbackedLine 16) = true := by
  decide +kernel

/-! ## Witnesses: states and operands that meet the hypotheses of the statements -/

/-- A statement about a well-formed instruction: immediates at both ends of their fields. -/
theorem test_witness_wellFormed :
    (Instr.btru du0 (-524288)).wellFormed = true ∧ (Instr.bfal du0 524287).wellFormed = true ∧
    (Instr.addsPc du0 (-2048)).wellFormed = true ∧ (Instr.stf16 dsp dfp dlr 2047).wellFormed = true ∧
    (Instr.adds du0 du1 du2).wellFormed = true := by
  decide +kernel

/-- EncodeOfDecodeGivesTheWord: a word of each of its five kinds, the unused bits of the first four not all 0. -/
theorem test_witness_encode_of_decode :
    (decodeWord 0x11239fff = .ok (.shrv du0 du1 du2) ∧ group 0x11239fff = 0 ∧ opcode 0x11239fff < 0xa) ∧
    (decodeWord 0x0123a123 = .ok (.invs du0 du1) ∧ group 0x0123a123 = 0 ∧ opcode 0x0123a123 = 0xa) ∧
    (decodeWord 0x0123cffc = .ok (.addsPc du0 (-4)) ∧ group 0x0123cffc = 0 ∧ opcode 0x0123cffc = 0xc) ∧
    (decodeWord 0x212fffff = .ok (.jmp du0) ∧ group 0x212fffff = 1 ∧ ctlOpcode 0x212fffff = 2) ∧
    (decodeWord 0x61126100 = .ok (.stu64 du0 du0 du1 0x100) ∧ group 0x61126100 = 3) ∧
    (decodeWord 0x211ffff8 = .ok (.bfal du0 (-8)) ∧ group 0x211ffff8 = 1 ∧ ctlOpcode 0x211ffff8 < 2) := by
  decide +kernel

/-- ImmediatesAreSignedAndUnscaled: a word of each kind, at the ends of the two fields. -/
theorem test_witness_immediate :
    (decodeWord 0x41000fff = .ok (.ldu8 du0 dzero dzero (-1)) ∧ group 0x41000fff = 2) ∧
    (decodeWord 0x0100c800 = .ok (.addsPc du0 (-2048)) ∧ group 0x0100c800 = 0 ∧ opcode 0x0100c800 = 0xc) ∧
    (decodeWord 0x2107ffff = .ok (.btru du0 524287) ∧ group 0x2107ffff = 1 ∧ ctlOpcode 0x2107ffff < 2) := by
  decide +kernel

/-- StepRunsTheDecodedInstruction, OnlyControlTransfersWritePc, StepKeepsTaggedBitsAndParameters: a placed instruction is fetched, decoded, and the
step completes; the write-back of line 8 is due before it. -/
theorem test_witness_step :
    let s := ((held Params.standard).placeWord 0x42103003)
    let t := { s with schedule := [[8]] }
    t.betweenInstructions.fetch = .ok 0x42103003 ∧ decodeWord 0x42103003 = .ok (.lds16 du1 du0 dzero 3) ∧
      next (step t) (fun _ => true) = true := by
  decide +kernel

/-- InvalidWordsAreNops: an invalid word is fetched. -/
theorem test_witness_invalid :
    ((start Params.standard).placeWord 0x31000010).betweenInstructions.fetch = .ok 0x31000010 ∧
    decodeWord 0x31000010 = .error .bit28Set := by
  decide +kernel

/-- FetchStopsInOrderOrReadsFourBytes: each of its four clauses; in the first, `pc` is misaligned in an unbacked line. -/
theorem test_witness_fetch :
    ((0x1022 : Word).toNat % 4 ≠ 0 ∧ (State.launch narrow 0x1022 memory).fetch = .error .misalignedPc) ∧
    ((0x1020 : Word).toNat % 4 = 0 ∧ (State.launch narrow 0x1020 memory).backed (0x1020 / 32) = false) ∧
    ((start narrow).backed (0x1000 / 32) = true ∧
      ((start narrow).setDlar du0 (lar u8 0x101f 0 true)).holds (0x1000 / 32) du0 = true) ∧
    ∀ i, ((start narrow).setDlar du0 (lar u8 0x101f 0 false)).holds (0x1000 / 32) i = true →
      (((start narrow).setDlar du0 (lar u8 0x101f 0 false)).dlar i).dirty = false := by
  decide +kernel

/-- StepRunsTheDecodedInstruction, its second clause: the fetch stops, and the step with it. -/
theorem test_witness_step_stops :
    (State.launch narrow 0x1022 memory).betweenInstructions.fetch = .error .misalignedPc ∧
    fault (step (State.launch narrow 0x1022 memory)) .misalignedPc = true := by
  decide +kernel

/-- EncodeOfDecodeGivesTheWord: the fields of 0x0123900f, `shrs`, and of 0x413680ff, `ldf16` (30_encoding.md R82, R84). -/
theorem test_witness_fields :
    ((0x0123900f : IWord).toNat / 2 ^ 28 = 0b0000 ∧ (0x0123900f : IWord).toNat / 2 ^ 12 % 16 = 9 ∧
      (0x0123900f : IWord).toNat / 2 ^ 24 % 16 = 1 ∧ (0x0123900f : IWord).toNat / 2 ^ 20 % 16 = 2 ∧
      (0x0123900f : IWord).toNat / 2 ^ 16 % 16 = 3) ∧
    decodeWord 0x0123900f = .ok (.shrs 1 2 3) ∧
    ((0x413680ff : IWord).toNat / 2 ^ 28 = 0b0100 ∧ (0x413680ff : IWord).toNat / 2 ^ 12 % 16 = 8) ∧
    decodeWord 0x413680ff = .ok (.ldf16 1 3 6 255) := by
  decide +kernel

/-- LoadEffect, StoreEffect: the three tag fields after `lds64` and `stf16` (42_load.md R173). -/
theorem test_tag_fields :
    next (run 0x41007108 (typed Params.standard)) (fun t =>
      !(t.dlar du0).isFloat16 && (t.dlar du0).typeOfInt == 0b11 && (t.dlar du0).unsgnOrSgn) = true ∧
    next (run 0x61008208 (held Params.standard)) (fun t =>
      (t.dlar du0).isFloat16 && (t.dlar du0).typeOfInt == 0b01 && (t.dlar du0).unsgnOrSgn) = true := by
  decide +kernel

/-- PlacedWordIsFetched, in both byte orders, at the last word of the address space. -/
theorem test_witness_placed :
    let s := State.launch { Params.standard with endian := .big } (-4) memory
    (s.pc.toNat % 4 = 0 ∧ s.backed (s.pc.toNat / 32) = true ∧
      ∀ i, s.holds (s.pc.toNat / 32) i = true → (s.dlar i).dirty = false) ∧
    (s.withFetchWord 32 0x42103003).fetch = .ok 0x42103003 := by
  decide +kernel

/-- Line 0x100 is held dirty by du0 and du1, line 0x200 clean by du2; all invariants hold. -/
def busy (p : Params) : State :=
  (((start p).setDlar du0 (lar u8 0x105 (rising + 5) true)).setDlar du1
    (lar f16 0x11e (rising + 5) true)).setDlar du2 (lar s64 0x208 (lineOfBytes fun _ => 0xaa) false)

/-- The invariants together in a state with dirty, shared and clean lines; each statement that assumes some of them. -/
theorem test_witness_invariants :
    (busy Params.standard).mem.wf = true ∧ (busy Params.standard).Coherent ∧ (busy Params.standard).CleanUpToDate ∧
    (busy Params.standard).TagsRegular := by
  decide +kernel

/-- The invariant statements about a step: such a state steps to a next state. -/
theorem test_witness_invariants_step :
    next (run 0x41000300 (busy Params.standard)) (fun _ => true) = true := by
  decide +kernel

/-- EarlyWriteBackKeepsTheView: line 8 is due, which du0 and du1 hold dirty; lines 16 (clean) and 24 (not held) with it; and
after the write-back memory has the data (20_memory.md R62). -/
theorem test_witness_scheduled :
    let s := { busy Params.standard with schedule := [[16, 8, 24], [8]] }
    s.Coherent ∧ s.backed (0x105 / 32) = true ∧ s.holds (0x105 / 32) du1 = true ∧ (s.dlar du1).dirty = true ∧
    s.betweenInstructions.mem.read 0x105 = lineByte (rising + 5) 5 ∧ s.betweenInstructions.schedule = [[8]] ∧
    (s.betweenInstructions.dlar du0).dirty = false := by
  decide +kernel

/-- EarlyWriteBackOfOneLine, FlushLeavesNothingDirty. -/
theorem test_witness_early :
    (busy Params.standard).Coherent ∧ (busy Params.standard).holds 8 du1 = true ∧
    ((busy Params.standard).dlar du1).dirty = true ∧ (busy Params.standard).backed 8 = true ∧
    ((busy Params.standard).flush.dlar du1).tagged = true ∧ (busy Params.standard).CleanUpToDate ∧
    (busy narrow).Coherent ∧ (busy narrow).backed (0x208 / 32) = false := by
  decide +kernel

/-- InvariantsHoldAtReset: a launch with canonical memory that is not empty. -/
theorem test_witness_launch : memory.wf = true ∧ memory ≠ [] := by
  decide +kernel

/-- OnlyLoadsAndStoresRepointADataLar, MemoryChangesOnlyByRelease: a load that writes line 0x100 back. -/
theorem test_witness_release :
    next (exec (.ldu8 du0 dzero dzero 0x300) (busy Params.standard)) (fun t =>
      t.mem.read 0x100 != (busy Params.standard).mem.read 0x100) = true ∧
    (Instr.ldu8 du0 dzero dzero 0x300).repointed ≠ some du1 := by
  decide +kernel

/-- WriteBackIsUnobservable: two states that differ in what has been written back. -/
theorem test_witness_unobservable :
    SameButWriteBack (busy Params.standard) ((busy Params.standard).writeBack 8 (rising + 5)) where
  pc := by decide +kernel
  params := by decide +kernel
  draws := by decide +kernel
  dlars := by decide +kernel
  view K := (State.writeBack_viewLine _ (by decide +kernel) K).symm

/-- The rest of its hypotheses. -/
theorem test_witness_unobservable_runs :
    ((busy Params.standard).writeBack 8 (rising + 5)).Coherent ∧
    ((busy Params.standard).writeBack 8 (rising + 5)).CleanUpToDate ∧
    next (exec (.adds du0 du0 du1) (busy Params.standard)) (fun _ => true) = true ∧
    next (exec (.adds du0 du0 du1) ((busy Params.standard).writeBack 8 (rising + 5))) (fun _ => true) = true := by
  decide +kernel

/-- WritingDzeroOnlyAdvancesPc: a vector form whose sources have 32 lanes, a load and a store. -/
theorem test_witness_dzero :
    ((Instr.addv dzero du0 dzero).dest = some 0 ∧
      (busy Params.standard).untaggedOperand (Instr.addv dzero du0 dzero).operands = none ∧
      (busy Params.standard).sameLanes 0 (Instr.addv dzero du0 dzero).laneSources) ∧
    ((Instr.ldu8 dzero du0 du1 0).dest = some 0 ∧
      (busy { Params.standard with untaggedStops := true }).untaggedOperand (Instr.ldu8 dzero du0 du1 0).operands = none) ∧
    ((Instr.stu8 dzero du0 du1 0).dest = some 0 ∧
      (busy { Params.standard with untaggedStops := true }).untaggedOperand (Instr.stu8 dzero du0 du1 0).operands = none)
    := by
  decide +kernel

/-- UntaggedOperandStopsWhenAsked: the second operand is the first that is untagged; and the switch off. -/
theorem test_witness_untagged :
    let s := busy { Params.standard with untaggedStops := true }
    (s.params.untaggedStops = true ∧ (Instr.adds du0 du5 du6).operands = [du0] ++ du5 :: [du6] ∧
      (∀ q ∈ [du0], q = 0 ∨ (s.dlar q).tagged = true) ∧ du5 ≠ 0 ∧ (s.dlar du5).tagged = false) ∧
    (busy Params.standard).params.untaggedStops = false := by
  decide +kernel

/-- VectorLaneCountMismatchStops; with dzero as destination too. -/
theorem test_witness_mismatch :
    (busy Params.standard).untaggedOperand [du0, du1, du2] = none ∧
    ¬ (busy Params.standard).sameLanes du0 [du1, du2] ∧ ¬ (busy Params.standard).sameLanes dzero [du0, du1] ∧
    (busy Params.standard).untaggedOperand [du0, du1] = none ∧ ¬ (busy Params.standard).sameLanes du0 [du1] ∧
    ¬ (busy Params.standard).sameLanes dzero [du1] := by
  decide +kernel

/-- LanesLieInAddressOrder: the last lane of each width, its first and last byte in both orders; CastExtendsByTheSource: the
largest pattern. -/
theorem test_witness_lanes :
    (8 ∈ [1, 2, 4, 8] ∧ 3 < 32 / 8) ∧ (1 ∈ [1, 2, 4, 8] ∧ 31 < 32 / 1) ∧ 2 ^ 64 - 1 < 2 ^ s64.width ∧
    255 < 2 ^ (LaneType.int .b8 true).width ∧
    laneOf .little 8 rising 3 = 0x1f1e1d1c1b1a1918 ∧ laneOf .big 8 rising 3 = 0x18191a1b1c1d1e1f ∧
    laneOf .big 4 rising 7 = 0x1c1d1e1f ∧ laneOf .big 2 rising 15 = 0x1e1f := by
  decide +kernel

/-- LanesLieInAddressOrder, the scalar: byte 5 of the line; the last 64-bit lane; and a misaligned address, 0x109 as s16
(95_test_vectors.md 2.5, L-c). -/
theorem test_scalar_lane :
    ((start Params.standard).setDlar du0 (lar u8 0x105 rising false)).sdata du0 = 0x05 ∧
    ((start { Params.standard with endian := .big }).setDlar du0 (lar u64 0x11f rising false)).sdata du0 =
      0x18191a1b1c1d1e1f ∧
    ((start Params.standard).setDlar du0 (lar s16 0x109 rising false)).sdata du0 = 0x0908 := by
  decide +kernel

/-- FetchStopsInOrderOrReadsFourBytes, its last clause: bytes 03 30 10 42 at `pc`, in both orders. -/
theorem test_fetch_byte_order :
    let m := Memory.write [] 0x1000 4 fun j => [(0x03 : Byte), 0x30, 0x10, 0x42].getD j 0
    (State.launch Params.standard 0x1000 m).fetch = .ok 0x42103003 ∧
    (State.launch { Params.standard with endian := .big } 0x1000 m).fetch = .ok 0x03301042 := by
  decide +kernel

/-- TypeOfIntGivesTheLaneWidth: a record with each value of the field. -/
theorem test_witness_type_of_int :
    ∀ p ∈ [((0b00 : BitVec 2), u8), (0b01, s16), (0b10, u32), (0b11, s64)],
      (lar p.2 0 0 false).typeOfInt = p.1 ∧ (lar p.2 0 0 false).isFloat16 = false := by
  decide +kernel

/-- Bf16FormatHasSignExponentMantissa: the fields of 1.0, of -3.0, and of the greatest finite number (10_state.md R23). -/
theorem test_bf16_fields :
    [(0x3f80 : BitVec 16), 0xc040, 0x7f7f].map (fun v => (bf16Sign v, bf16Exp v, bf16Mant v)) =
      [(false, 0x7f, 0), (true, 0x80, 0x40), (false, 0xfe, 0x7f)] ∧
    bf16Pack true 0x80 0x40 = 0xc040 := by
  decide +kernel

/-- The values of 1.0 and -3.0; a zero, a subnormal and an infinity have none. -/
theorem test_bf16_value :
    bf16Value 0x3f80 = some 1 ∧ bf16Value 0xc040 = some (-3) ∧ bf16Value 0 = none ∧ bf16Value 0x0001 = none ∧
    bf16Value 0x7f80 = none := by
  decide +kernel

/-- EffectiveAddressSumsBaseIndexDisplacement, Ext64ExtendsByTheTag, JmpGoesToTheScalar: an index of each kind. -/
theorem test_witness_index :
    (busy Params.standard).type du0 = .int .b8 false ∧ (busy Params.standard).type du2 = .int .b64 true ∧
    (busy Params.standard).type du1 = .f16 := by
  decide +kernel

/-- The results of the scalar instructions and of `btru`, `bfal`, `jmp`: operands in both settings of the switch. -/
theorem test_witness_scalar :
    (busy { Params.standard with untaggedStops := true }).untaggedOperand [du0, du1, du2] = none ∧
    (busy Params.standard).untaggedOperand [du0, du5, du6] = none ∧
    (busy Params.standard).untaggedOperand [du0, du1] = none ∧ (busy Params.standard).untaggedOperand [du0] = none ∧
    (du0 : Reg) ≠ 0 := by
  decide +kernel

/-- MulsResult: the `source` reading; the `dest` reading in a widening. -/
theorem test_witness_muls :
    (alu s64 u8 s8 0xff 2).params.mulWidenSign = .source ∧
    (let s := { alu s64 u8 s8 0xff 2 with params := { Params.standard with mulWidenSign := .dest } }
     s.params.mulWidenSign = .dest ∧ s.type du0 = .int .b64 true ∧ s.type du1 = .int .b8 false ∧
       s.type du2 = .int .b8 true ∧ (s.type du1).width < (s.type du0).width ∧
       (s.type du2).width < (s.type du0).width) := by
  decide +kernel

/-- MulReadingsAgreeOutsideTheBand: the readings differ inside it, and agree at its edge. -/
theorem test_witness_mul_band :
    mulOperation .source s64 u8 s8 0xff 2 ≠ mulOperation .dest s64 u8 s8 0xff 2 ∧
    mulOperation .source s64 u8 s8 0x7f 2 = mulOperation .dest s64 u8 s8 0x7f 2 ∧ 0xff < 2 ^ u8.width := by
  decide +kernel

/-- SignedDivisionCorners: 7 / 2, -7 / 2, 7 / -2 (40_alu.md R128) and -7 / -2 at 8 bits. -/
theorem test_witness_division :
    divLane 0 s8 ((2 ^ 8 - 7) % 2 ^ 8) 2 = 0xfd ∧ divLane 0 s8 7 2 = 3 ∧ divLane 0 s8 0x80 0xff = 0x80 ∧
    divLane 0 s8 7 (2 ^ 8 - 2) = 0xfd ∧ divLane 0 s8 ((2 ^ 8 - 7) % 2 ^ 8) (2 ^ 8 - 2) = 3 ∧
    (8 = s8.width ∧ 127 < 2 ^ (8 - 1)) := by
  decide +kernel

/-- AddPcResult: the sum wraps (95_test_vectors.md 2.2). -/
theorem test_witness_addPc :
    ((0xfffffffffffffc00 : Nat) : Int) = (((0x400 : Word).toNat : Int) +
      (if Params.standard.pcrelBase = .own then 0 else 4) + (-2048)) % 2 ^ 64 := by
  decide +kernel

/-- The results of the vector instructions: equal lane counts under different types. -/
theorem test_witness_vector :
    (alu f16 s16 u16 0 0).sameLanes du0 [du1, du2] ∧ (alu f16 s16 u16 0 0).sameLanes du0 [du1] ∧
    (alu f16 s16 u16 0 0).untaggedOperand [du0, du1, du2] = none := by
  decide +kernel

/-- AluWritesTheViewOfItsLine: a write to a shared line. -/
theorem test_witness_alu_view :
    (Instr.adds du0 du0 du2).dest = some du0 ∧ (Instr.adds du0 du0 du2).repointed = none ∧
    next (exec (.adds du0 du0 du2) (busy Params.standard)) (fun _ => true) = true ∧
    ((busy Params.standard).dlar du0).tagged = true := by
  decide +kernel

/-- LoadEffect, LoadReadsTheView: the line is held already (0x110); it is another's (0x200); it is nobody's (0x300),
with a release owed and its line backed. -/
theorem test_witness_load :
    (busy Params.standard).untaggedOperand [dzero, dzero] = none ∧
    (busy Params.standard).holds (((busy Params.standard).effectiveAddress dzero dzero 0x110).toNat / 32) du0 = true ∧
    (busy Params.standard).holds (((busy Params.standard).effectiveAddress dzero dzero 0x200).toNat / 32) du2 = true ∧
    (∀ i, (busy Params.standard).holds (((busy Params.standard).effectiveAddress dzero dzero 0x300).toNat / 32) i =
      false) ∧
    (busy Params.standard).owesWriteBack du0 = true ∧
    (busy Params.standard).backed ((busy Params.standard).dlar du0).base = true ∧
    (busy Params.standard).backed (((busy Params.standard).effectiveAddress dzero dzero 0x300).toNat / 32) = true := by
  decide +kernel

/-- The load, store and vector forms those statements range over, the last of each list. -/
theorem test_witness_forms :
    (Instr.ldf16, f16) ∈ loadInstrs ∧ (Instr.stf16, f16) ∈ storeInstrs ∧
    Instr.shrv ∈ [Instr.addv, .subv, .sltv, .mulv, .divv, .andv, .orrv, .xorv, .shlv, .shrv] ∧
    Instr.notv ∈ [Instr.invv, .notv] := by
  simp [loadInstrs, storeInstrs]

/-- LoadStuckOnUnbackedLine: no line but 0x1000 is backed, and du0 owes a write-back; or none is owed. -/
theorem test_witness_load_stuck :
    let p := { Params.standard with memMap := [⟨128, 128⟩] }
    ((busy p).holds (((busy p).effectiveAddress dzero dzero 0x300).toNat / 32) du0 = false ∧
      (busy p).owesWriteBack du0 = true ∧ (busy p).backed ((busy p).dlar du0).base = false) ∧
    ((busy p).holds (((busy p).effectiveAddress dzero dzero 0x300).toNat / 32) du2 = false ∧
      (busy p).owesWriteBack du2 = false ∧
      (∀ i, (busy p).holds (((busy p).effectiveAddress dzero dzero 0x300).toNat / 32) i = false) ∧
      (busy p).backed (((busy p).effectiveAddress dzero dzero 0x300).toNat / 32) = false) := by
  decide +kernel

/-- StoreEffect, StoreWritesTheViewOfItsLine: to the line held, and to a line another holds with a release owed. -/
theorem test_witness_store :
    (busy Params.standard).untaggedOperand [du0, dzero, dzero] = none ∧
    (busy Params.standard).holds (((busy Params.standard).effectiveAddress dzero dzero 0x110).toNat / 32) du0 = true ∧
    (busy Params.standard).holds (((busy Params.standard).effectiveAddress dzero dzero 0x200).toNat / 32) du0 = false ∧
    (busy Params.standard).holds (((busy Params.standard).effectiveAddress dzero dzero 0x200).toNat / 32) du2 = true ∧
    (busy Params.standard).owesWriteBack du0 = true ∧
    (busy Params.standard).backed ((busy Params.standard).dlar du0).base = true ∧
    next (exec (.stu8 du0 dzero dzero 0x200) (busy Params.standard)) (fun _ => true) = true := by
  decide +kernel

/-- StoreStuckOnUnbackedRelease: stuck; and, with line 0x100 backed, a store to line 0x200, which is not. -/
theorem test_witness_store_stuck :
    let p := { Params.standard with memMap := [⟨128, 128⟩] }
    (busy p).untaggedOperand [du0, dzero, dzero] = none ∧
    (busy p).holds (((busy p).effectiveAddress dzero dzero 0x200).toNat / 32) du0 = false ∧
    (busy p).owesWriteBack du0 = true ∧ (busy p).backed ((busy p).dlar du0).base = false ∧
    (busy narrow).backed ((busy narrow).dlar du0).base = true ∧
    (busy narrow).backed (((busy narrow).effectiveAddress dzero dzero 0x200).toNat / 32) = false ∧
    next (exec (.stu8 du0 dzero dzero 0x200) (busy narrow)) (fun _ => true) = true := by
  decide +kernel

end Sys2Proof.Tests
end

section
/-!
What an instruction that completes has done to the state, said once (`exec_effect`, `step_effect`); from it, what a step
leaves of memory, the tagged bits and the parameters (the statements O18 and O22).
-/

namespace Sys2Proof.Machine

/-! ## What an instruction that completes has done -/

/-- The forms a next state of `exec` can have, where `r` is the Data LAR the instruction may give a new address: only
`pc` is written; the data of one Data LAR and its aliases is written (40_alu.md R113, R114); a load or a store has
relabelled `r` (42_load.md R172, 43_store.md R190). -/
inductive ExecEffect (r : Option Reg) (s : State) : State → Prop
  | jumps (v : Word) : ExecEffect r s (s.setPc v)
  | writesData (a : Reg) (n : Nat) (v : Line) : ExecEffect r s ((s.takeDraws a n).setData a v).advance
  | loads {a : Reg} {ea : Word} {u : State} (ty : LaneType) (hr : r = some a) (ha : a ≠ 0)
      (hu : s.acquire a (lineNumber ea) = .ok u) : ExecEffect r s (u.pointAt a ea ty).advance
  | stores {a : Reg} {ea : Word} {u : State} (ty : LaneType) (hr : r = some a) (ha : a ≠ 0)
      (hu : s.stage a (lineNumber ea) = .ok u) : ExecEffect r s (u.relabel a ea ty).advance

theorem ExecEffect.advances (r : Option Reg) (s : State) : ExecEffect r s s.advance := .jumps (s.pc + 4)

theorem ExecEffect.writesDataDrawingNone {r : Option Reg} (s : State) (a : Reg) (v : Line) :
    ExecEffect r s (s.setData a v).advance := by
  simpa using ExecEffect.writesData (r := r) (s := s) a 0 v

/-- A checked instruction that completes was not stopped by an untagged operand. -/
theorem State.checked_next {s t : State} {l : List Reg} {o : Outcome} (h : s.checked l o = .next t) : o = .next t := by
  rcases s.checked_cases l o with ⟨i, -, hf⟩ | ⟨-, ho⟩
  · rw [hf] at h
    cases h
  · rw [← ho, h]

section Schemes

variable {view : LaneType → LaneType} {a b c : Reg} {s t : State}

theorem scalarBinary_setData {op : LaneType → LaneType → LaneType → Nat → Nat → Nat}
    (h : scalarBinary view op a b c s = .next t) : ∃ v, t = (s.setData a v).advance := by
  cases State.checked_next h
  exact ⟨_, rfl⟩

theorem scalarUnary_setData {op : LaneType → LaneType → Nat → Nat} (h : scalarUnary view op a b s = .next t) :
    ∃ v, t = (s.setData a v).advance := by
  cases State.checked_next h
  exact ⟨_, rfl⟩

theorem vectorBinary_setData {op : Nat → LaneType → LaneType → LaneType → Nat → Nat → Nat}
    (h : vectorBinary view op a b c s = .next t) : ∃ v, t = (s.setData a v).advance := by
  have h' := State.checked_next h
  split at h'
  · cases h'
  · cases h'
    exact ⟨_, rfl⟩

theorem vectorUnary_setData {op : LaneType → LaneType → Nat → Nat} (h : vectorUnary view op a b s = .next t) :
    ∃ v, t = (s.setData a v).advance := by
  have h' := State.checked_next h
  split at h'
  · cases h'
  · cases h'
    exact ⟨_, rfl⟩

theorem ExecEffect.of_setData {r : Option Reg} (h : ∃ v, t = (s.setData a v).advance) : ExecEffect r s t := by
  obtain ⟨v, rfl⟩ := h
  exact .writesDataDrawingNone s a v

theorem ExecEffect.of_takeDraws_setData {r : Option Reg} {n : Nat}
    (h : ∃ v, t = ((s.takeDraws a n).setData a v).advance) : ExecEffect r s t := by
  obtain ⟨v, rfl⟩ := h
  exact .writesData a n v

theorem loadLar_effect {ty : LaneType} {simm : Int} (h : loadLar ty a b c simm s = .next t) :
    ExecEffect (some a) s t := by
  rcases loadLar_cases ty a b c simm s with ⟨i, -, hl⟩ | ⟨-, ⟨-, hl⟩ | ⟨-, f, -, hl⟩ | ⟨ha, u, hu, hl⟩⟩ <;>
    cases hl.symm.trans h
  · exact .advances _ s
  · exact .loads ty rfl ha hu

theorem storeLar_effect {ty : LaneType} {simm : Int} (h : storeLar ty a b c simm s = .next t) :
    ExecEffect (some a) s t := by
  rcases storeLar_cases ty a b c simm s with ⟨i, -, hl⟩ | ⟨-, ⟨-, hl⟩ | ⟨-, f, -, hl⟩ | ⟨ha, u, hu, hl⟩⟩ <;>
    cases hl.symm.trans h
  · exact .advances _ s
  · exact .stores ty rfl ha hu

end Schemes

/-- Every instruction that completes has one of the four effects. -/
theorem exec_effect {i : Instr} {s t : State} (h : exec i s = .next t) : ExecEffect i.repointed s t := by
  cases i with
  | adds | subs | slts | muls | ands | orrs | xors | shls | shrs => exact .of_setData (scalarBinary_setData h)
  | addv | subv | sltv | mulv | andv | orrv | xorv | shlv | shrv => exact .of_setData (vectorBinary_setData h)
  | divs => exact .of_takeDraws_setData (scalarBinary_setData h)
  | divv => exact .of_takeDraws_setData (vectorBinary_setData h)
  | invs | nots => exact .of_setData (scalarUnary_setData h)
  | invv | notv => exact .of_setData (vectorUnary_setData h)
  | addsPc | addvPc =>
    cases State.checked_next h
    exact .writesDataDrawingNone s _ _
  | btru | bfal =>
    cases State.checked_next h
    split
    all_goals exact .jumps _
  | jmp =>
    cases State.checked_next h
    exact .jumps _
  | ldu8 | lds8 | ldu16 | lds16 | ldu32 | lds32 | ldu64 | lds64 | ldf16 => exact loadLar_effect h
  | stu8 | sts8 | stu16 | sts16 | stu32 | sts32 | stu64 | sts64 | stf16 => exact storeLar_effect h

/-- A step that completes is the write-backs due before the instruction, then the advance over an invalid word or an
instruction (60_exceptions.md R211, R213). -/
theorem step_cases {s t : State} (h : step s = .next t) :
    t = s.betweenInstructions.advance ∨ ∃ i, exec i s.betweenInstructions = .next t := by
  simp only [step] at h
  split at h
  · cases h
  · split at h
    · exact Or.inl (Host.Outcome.next.inj h).symm
    · exact Or.inr ⟨_, h⟩

theorem step_effect {s t : State} (h : step s = .next t) : ∃ r, ExecEffect r s.betweenInstructions t := by
  rcases step_cases h with rfl | ⟨i, hi⟩
  · exact ⟨none, .advances none _⟩
  · exact ⟨i.repointed, exec_effect hi⟩

/-! ## What a step leaves of memory -/

/-- `m` is the memory of `s`, or that memory with the line of `a` written back, which `a` owed (20_memory.md R61). -/
def MaybeWrittenBack (s : State) (a : Reg) (m : Memory) : Prop :=
  m = s.mem ∨ s.owesWriteBack a = true ∧ s.backed (s.dlar a).base = true ∧
    m = s.mem.writeLine (s.dlar a).base (s.dlar a).data

theorem State.release_mem {s r : State} {a : Reg} (h : s.release a = .ok r) : MaybeWrittenBack s a r.mem := by
  rcases s.release_cases a with ⟨-, hr⟩ | ⟨ht, hd, hb, hr⟩ | ⟨-, -, -, hr⟩ <;> cases hr.symm.trans h
  · exact Or.inl rfl
  · exact Or.inr ⟨by rw [State.owesWriteBack, ht, hd, Bool.and_self], hb, State.writeBack_mem ..⟩

theorem State.fillFrom_mem {s u : State} {a : Reg} {L : Nat} (h : s.fillFrom a L = .ok u) : u.mem = s.mem := by
  rcases s.fillFrom_cases a L with ⟨k, -, hf⟩ | ⟨-, -, hf⟩ | ⟨-, -, hf⟩ <;> cases hf.symm.trans h
  all_goals exact State.setDlar_mem ..

theorem State.acquire_mem {s u : State} {a : Reg} {L : Nat} (h : s.acquire a L = .ok u) :
    MaybeWrittenBack s a u.mem := by
  rcases State.acquire_cases h with ⟨-, rfl⟩ | ⟨-, r, hr, hf⟩
  · exact Or.inl rfl
  · rw [State.fillFrom_mem hf]
    exact State.release_mem hr

theorem State.stage_mem {s u : State} {a : Reg} {L : Nat} (h : s.stage a L = .ok u) : MaybeWrittenBack s a u.mem := by
  rcases State.stage_cases h with ⟨-, rfl⟩ | ⟨-, r, hr, rfl⟩
  · exact Or.inl (State.dirtyHolders_mem ..)
  · rw [State.giveHolders_mem]
    exact State.release_mem hr

/-- An instruction changes memory only by the release of the Data LAR it repoints (20_memory.md R57, R61). -/
theorem ExecEffect.mem {r : Option Reg} {s t : State} (h : ExecEffect r s t) :
    t.mem = s.mem ∨ ∃ a, r = some a ∧ MaybeWrittenBack s a t.mem := by
  cases h with
  | jumps => exact Or.inl rfl
  | writesData => exact Or.inl (by simp)
  | loads ty hr ha hu => exact Or.inr ⟨_, hr, by simpa using State.acquire_mem hu⟩
  | stores ty hr ha hu => exact Or.inr ⟨_, hr, by simpa using State.stage_mem hu⟩

/-! ## The canonical form of memory -/

theorem DataLar.base_lt (d : DataLar) : d.base < 2 ^ 59 := lineNumber_lt d.addr

theorem MaybeWrittenBack.wf {s : State} {a : Reg} {m : Memory} (h : MaybeWrittenBack s a m) (hs : s.mem.wf = true) :
    m.wf = true := by
  rcases h with rfl | ⟨-, -, rfl⟩
  · exact hs
  · exact Memory.wf_writeLine hs (DataLar.base_lt _) _

theorem ExecEffect.mem_wf {r : Option Reg} {s t : State} (h : ExecEffect r s t) (hs : s.mem.wf = true) :
    t.mem.wf = true := by
  rcases h.mem with hm | ⟨a, -, hm⟩
  · rwa [hm]
  · exact hm.wf hs

theorem State.betweenInstructions_mem_wf {s : State} (hs : s.mem.wf = true) : s.betweenInstructions.mem.wf = true := by
  refine State.betweenInstructions_induction (P := fun u => u.mem.wf = true) s hs fun u L k hu hk _ => ?_
  obtain ⟨-, rfl⟩ := State.holds_iff.mp hk
  rw [State.writeBack_mem]
  exact Memory.wf_writeLine hu (DataLar.base_lt _) _

/-- Settles O18: memory changes only by whole lines of the 64-bit space, and writing one keeps the form. -/
theorem stepKeepsMemoryCanonical : Obligations.StepKeepsMemoryCanonical := by
  intro s t hs h
  obtain ⟨r, he⟩ := step_effect h
  exact he.mem_wf (State.betweenInstructions_mem_wf hs)

/-! ## Tagged bits and parameters -/

/-- The parameters of `t` are those of `s`, and every Data LAR tagged in `s` is tagged in `t`. -/
structure KeepsTagged (s t : State) : Prop where
  params : t.params = s.params
  tagged : ∀ i, (s.dlar i).tagged = true → (t.dlar i).tagged = true

theorem KeepsTagged.refl (s : State) : KeepsTagged s s := ⟨rfl, fun _ h => h⟩

theorem KeepsTagged.trans {s t u : State} (h : KeepsTagged s t) (h' : KeepsTagged t u) : KeepsTagged s u :=
  ⟨h'.params.trans h.params, fun i hi => h'.tagged i (h.tagged i hi)⟩

/-- An update of the Data LARs keeps what is tagged if it does so record by record. -/
theorem KeepsTagged.withDlars {s : State} {f : Reg → DataLar}
    (h : ∀ i, (s.dlar i).tagged = true → (f i).tagged = true) : KeepsTagged s (s.withDlars f) := by
  refine ⟨State.withDlars_params s f, fun i hi => ?_⟩
  rw [State.withDlars_dlar]
  split
  · next h0 =>
    rw [h0] at hi
    exact hi
  · exact h i hi

theorem KeepsTagged.setDlar {s : State} {a : Reg} {d : DataLar} (h : (s.dlar a).tagged = true → d.tagged = true) :
    KeepsTagged s (s.setDlar a d) := by
  refine .withDlars fun i hi => ?_
  split
  · next ha => exact h (ha ▸ hi)
  · exact hi

theorem KeepsTagged.setPc (s : State) (v : Word) : KeepsTagged s (s.setPc v) := ⟨rfl, fun _ h => h⟩

theorem KeepsTagged.setData (s : State) (a : Reg) (v : Line) : KeepsTagged s (s.setData a v) :=
  ⟨State.setData_params .., fun i hi => by rwa [State.setData_tagged]⟩

theorem KeepsTagged.takeDraws (s : State) (a : Reg) (n : Nat) : KeepsTagged s (s.takeDraws a n) :=
  ⟨State.takeDraws_params .., fun i hi => by rwa [State.takeDraws_dlar]⟩

theorem KeepsTagged.pointAt (s : State) (a : Reg) (ea : Word) (ty : LaneType) : KeepsTagged s (s.pointAt a ea ty) :=
  .setDlar fun _ => rfl

theorem KeepsTagged.relabel (s : State) (a : Reg) (ea : Word) (ty : LaneType) : KeepsTagged s (s.relabel a ea ty) :=
  .setDlar fun _ => rfl

theorem KeepsTagged.writeBack (s : State) (L : Nat) (v : Line) : KeepsTagged s (s.writeBack L v) :=
  ⟨State.writeBack_params .., fun i hi => by rwa [State.writeBack_tagged]⟩

theorem KeepsTagged.release {s r : State} {a : Reg} (h : s.release a = .ok r) : KeepsTagged s r := by
  rcases s.release_cases a with ⟨-, hr⟩ | ⟨-, -, -, hr⟩ | ⟨-, -, -, hr⟩ <;> cases hr.symm.trans h
  · exact .refl s
  · exact .writeBack ..

theorem KeepsTagged.fillFrom {s u : State} {a : Reg} {L : Nat} (h : s.fillFrom a L = .ok u) : KeepsTagged s u := by
  rcases s.fillFrom_cases a L with ⟨k, -, hf⟩ | ⟨-, -, hf⟩ | ⟨-, -, hf⟩ <;> cases hf.symm.trans h
  all_goals exact .setDlar id

theorem KeepsTagged.acquire {s u : State} {a : Reg} {L : Nat} (h : s.acquire a L = .ok u) : KeepsTagged s u := by
  rcases State.acquire_cases h with ⟨-, rfl⟩ | ⟨-, r, hr, hf⟩
  · exact .refl u
  · exact (KeepsTagged.release hr).trans (.fillFrom hf)

theorem KeepsTagged.stage {s u : State} {a : Reg} {L : Nat} (h : s.stage a L = .ok u) : KeepsTagged s u := by
  rcases State.stage_cases h with ⟨-, rfl⟩ | ⟨-, r, hr, rfl⟩
  · exact .withDlars fun i hi => by split <;> exact hi
  · exact (KeepsTagged.release hr).trans (.withDlars fun i hi => by split <;> exact hi)

theorem ExecEffect.keepsTagged {r : Option Reg} {s t : State} (h : ExecEffect r s t) : KeepsTagged s t := by
  cases h with
  | jumps => exact .setPc ..
  | writesData => exact ((KeepsTagged.takeDraws ..).trans (.setData ..)).trans (.setPc ..)
  | loads ty hr ha hu => exact ((KeepsTagged.acquire hu).trans (.pointAt ..)).trans (.setPc ..)
  | stores ty hr ha hu => exact ((KeepsTagged.stage hu).trans (.relabel ..)).trans (.setPc ..)

theorem KeepsTagged.betweenInstructions (s : State) : KeepsTagged s s.betweenInstructions :=
  State.betweenInstructions_induction (P := KeepsTagged s) s ⟨rfl, fun _ h => h⟩ fun _ _ _ hu _ _ =>
    hu.trans (.writeBack ..)

/-- Settles O22: a load or store sets the tagged bit of its `dA`, and nothing else writes a tagged bit or a parameter. -/
theorem stepKeepsTaggedBitsAndParameters : Obligations.StepKeepsTaggedBitsAndParameters := by
  intro s t h
  obtain ⟨r, he⟩ := step_effect h
  obtain ⟨hp, ht⟩ := (KeepsTagged.betweenInstructions s).trans he.keepsTagged
  exact ⟨hp, ht⟩

end Sys2Proof.Machine
end

section
/-!
Addresses and immediates: the sums of 40_alu.md R144, 41_control.md R164 and 42_load.md R170 in numbers, the index by its
tag (R171), and the immediate of a decoded word (30_encoding.md R87) (the statements O5 and O32).
-/

namespace Sys2Proof

/-! ## Sums modulo 2^64 -/

/-- Adding a signed quantity to a word adds its value modulo 2^64 (00_scope.md R9). -/
theorem toNat_add_ofInt (x : Word) (v : Int) : ((x + BitVec.ofInt 64 v).toNat : Int) = (x.toNat + v) % 2 ^ 64 := by
  rw [BitVec.toNat_add, BitVec.toNat_ofInt, Int.natCast_mod, Int.natCast_add,
    Int.toNat_of_nonneg (Int.emod_nonneg v (by norm_num))]
  exact Int.add_emod_emod ..

namespace Machine

theorem State.branchTarget_toNat (s : State) (v : Int) :
    ((s.branchTarget v).toNat : Int) = (s.pcv.toNat + v) % 2 ^ 64 := toNat_add_ofInt s.pcv v

theorem State.pcPlus_toNat (s : State) (v : Int) : ((s.pcPlus v).toNat : Int) = (s.pcv.toNat + v) % 2 ^ 64 :=
  toNat_add_ofInt s.pcv v

theorem State.effectiveAddress_toNat (s : State) (b c : Reg) (v : Int) :
    ((s.effectiveAddress b c v).toNat : Int) = ((s.dlar b).addr.toNat + (s.ext64 c).toNat + v) % 2 ^ 64 := by
  rw [State.effectiveAddress, toNat_add_ofInt, BitVec.toNat_add, Int.natCast_mod, Int.natCast_add]
  exact Int.emod_add_emod ..

/-! ## The index by its tag -/

theorem State.ext64_of_int {s : State} {c : Reg} {z : IntSize} {g : Bool} (h : s.type c = .int z g) :
    s.ext64 c = BitVec.ofInt 64 ((LaneType.int z g).value (s.sdata c)) := by
  rw [State.ext64, h]

theorem State.ext64_of_f16 {s : State} {c : Reg} (h : s.type c = .f16) :
    s.ext64 c = Config.intOfBf16 (BitVec.ofNat 16 (s.sdata c)) 64 true := by
  rw [State.ext64, h]

theorem LaneType.width_le (t : LaneType) : t.width ≤ 64 := by
  rcases t with ⟨_ | _ | _ | _, _⟩ | _ <;> norm_num [LaneType.width, LaneType.bytes]

/-- `sval` is the two's-complement value of the bit pattern. -/
theorem toInt_ofNat_eq_sval {n p : Nat} (hn : 0 < n) (hp : p < 2 ^ n) : (BitVec.ofNat n p).toInt = sval n p := by
  obtain ⟨m, rfl⟩ : ∃ m, n = m + 1 := ⟨n - 1, by omega⟩
  rw [BitVec.toInt_eq_toNat_cond, BitVec.toNat_ofNat, Nat.mod_eq_of_lt hp, sval, Nat.add_sub_cancel, Nat.pow_succ]
  split <;> split <;> omega

theorem LaneType.value_unsigned (z : IntSize) (v : Nat) : (LaneType.int z false).value v = v := rfl

theorem LaneType.value_signed (z : IntSize) (v : Nat) :
    (LaneType.int z true).value v = sval (LaneType.int z true).width v := rfl

theorem State.ext64_unsigned {s : State} {c : Reg} {z : IntSize} (h : s.type c = .int z false) :
    (s.ext64 c).toNat = s.sdata c := by
  have hlt : s.sdata c < 2 ^ 64 :=
    (s.sdata_lt c).trans_le (Nat.pow_le_pow_right (by norm_num) (s.type c).width_le)
  rw [State.ext64_of_int h, LaneType.value_unsigned, BitVec.ofInt_natCast, BitVec.toNat_ofNat, Nat.mod_eq_of_lt hlt]

theorem State.ext64_signed {s : State} {c : Reg} {z : IntSize} (h : s.type c = .int z true) :
    s.ext64 c = (BitVec.ofNat (LaneType.int z true).width (s.sdata c)).signExtend 64 := by
  have hlt := s.sdata_lt c
  rw [h] at hlt
  rw [State.ext64_of_int h, BitVec.signExtend, toInt_ofNat_eq_sval (LaneType.width_pos _) hlt,
    LaneType.value_signed]

/-- Settles O32, by the three kinds of tag and the sum of `effectiveAddress`. -/
theorem effectiveAddressSumsBaseIndexDisplacement : Obligations.EffectiveAddressSumsBaseIndexDisplacement :=
  fun s b c simm => ⟨fun _ => State.ext64_unsigned, fun _ => State.ext64_signed, State.ext64_of_f16,
    s.effectiveAddress_toNat b c simm⟩

end Machine

/-! ## The immediate of a decoded word -/

/-- Which part of the decoder answers for a word that decodes (30_encoding.md R81, R88 to R92). -/
theorem decodeWord_cases {w : IWord} {i : Instr} (h : decodeWord w = .ok i) :
    (group w = 0 ∧ bit28 w = 0 ∧ decodeAluScalar w = .ok i) ∨
    (group w = 0 ∧ bit28 w = 1 ∧ decodeAluVector w = .ok i) ∨
    (group w = 1 ∧ bit28 w = 0 ∧ decodeCtl w = .ok i) ∨
    (group w = 2 ∧ bit28 w = 0 ∧ decodeLoad w = .ok i) ∨
    (group w = 3 ∧ bit28 w = 0 ∧ decodeStore w = .ok i) := by
  have hb : bit28 w < 2 := BitVec.isLt _
  unfold decodeWord at h
  split at h
  · exact Or.inl ⟨‹_›, ‹_›, h⟩
  · next hg hne =>
    have h1 : bit28 w ≠ 0 := hne
    exact Or.inr (Or.inl ⟨hg, by omega, h⟩)
  · exact Or.inr (Or.inr (Or.inl ⟨‹_›, ‹_›, h⟩))
  · exact Or.inr (Or.inr (Or.inr (Or.inl ⟨‹_›, ‹_›, h⟩)))
  · exact Or.inr (Or.inr (Or.inr (Or.inr ⟨‹_›, ‹_›, h⟩)))
  all_goals cases h

theorem decodeAluScalar_immediate {w : IWord} {i : Instr} (h : decodeAluScalar w = .ok i) :
    i.immediate = if opcode w = 0xc then some (simm12 w) else none := by
  unfold decodeAluScalar at h
  split at h <;> cases h <;> simp [Instr.immediate, *]

theorem decodeAluVector_immediate {w : IWord} {i : Instr} (h : decodeAluVector w = .ok i) :
    i.immediate = if opcode w = 0xc then some (simm12 w) else none := by
  unfold decodeAluVector at h
  split at h <;> cases h <;> simp [Instr.immediate, *]

theorem decodeCtl_immediate {w : IWord} {i : Instr} (h : decodeCtl w = .ok i) :
    i.immediate = if ctlOpcode w < 2 then some (simm20 w) else none := by
  unfold decodeCtl at h
  split at h <;> cases h <;> simp [Instr.immediate, *]

theorem decodeLoad_immediate {w : IWord} {i : Instr} (h : decodeLoad w = .ok i) : i.immediate = some (simm12 w) := by
  unfold decodeLoad at h
  split at h <;> cases h <;> rfl

theorem decodeStore_immediate {w : IWord} {i : Instr} (h : decodeStore w = .ok i) : i.immediate = some (simm12 w) := by
  unfold decodeStore at h
  split at h <;> cases h <;> rfl

theorem simm12_eq (w : IWord) :
    simm12 w = (w.toNat % 2 ^ 12 : Nat) - if 2 ^ 11 ≤ w.toNat % 2 ^ 12 then (2 : Int) ^ 12 else 0 := by
  rw [simm12, BitVec.toInt_eq_toNat_cond, BitVec.extractLsb'_toNat, Nat.shiftRight_zero]
  split <;> split <;> omega

theorem simm20_eq (w : IWord) :
    simm20 w = (w.toNat % 2 ^ 20 : Nat) - if 2 ^ 19 ≤ w.toNat % 2 ^ 20 then (2 : Int) ^ 20 else 0 := by
  rw [simm20, BitVec.toInt_eq_toNat_cond, BitVec.extractLsb'_toNat, Nat.shiftRight_zero]
  split <;> split <;> omega

theorem simm12_range (w : IWord) : -2048 ≤ simm12 w ∧ simm12 w ≤ 2047 := by
  rw [simm12_eq]
  split <;> omega

theorem simm20_range (w : IWord) : -524288 ≤ simm20 w ∧ simm20 w ≤ 524287 := by
  rw [simm20_eq]
  split <;> omega

/-- The immediate that the bits of a word give it by group and opcode (30_encoding.md R87, R89, R91). -/
def immediateField (w : IWord) : Option Int :=
  if group w = 1 then if ctlOpcode w < 2 then some (simm20 w) else none
  else if group w = 0 ∧ opcode w ≠ 0xc then none
  else some (simm12 w)

/-- What a word decodes to has the immediate of the word. -/
theorem decodeWord_immediate {w : IWord} {i : Instr} (h : decodeWord w = .ok i) : i.immediate = immediateField w := by
  rcases decodeWord_cases h with ⟨hg, -, hd⟩ | ⟨hg, -, hd⟩ | ⟨hg, -, hd⟩ | ⟨hg, -, hd⟩ | ⟨hg, -, hd⟩
  · simp [immediateField, hg, decodeAluScalar_immediate hd]
  · simp [immediateField, hg, decodeAluVector_immediate hd]
  · simp [immediateField, hg, decodeCtl_immediate hd]
  · simp [immediateField, hg, decodeLoad_immediate hd]
  · simp [immediateField, hg, decodeStore_immediate hd]

theorem immediateField_group0 {w : IWord} (hg : group w = 0) : immediateField w ≠ none ↔ opcode w = 0xc := by
  simp [immediateField, hg]

theorem immediateField_group1 {w : IWord} (hg : group w = 1) : immediateField w ≠ none ↔ ctlOpcode w < 2 := by
  simp [immediateField, hg]

theorem immediateField_of_access {w : IWord} (hg : group w = 2 ∨ group w = 3) : immediateField w ≠ none := by
  rcases hg with hg | hg <;> simp [immediateField, hg]

theorem eq_simm20_of_immediateField {w : IWord} {v : Int} (h : immediateField w = some v) (hg : group w = 1) :
    v = simm20 w := by
  simp only [immediateField, if_pos hg, Option.ite_none_right_eq_some, Option.some.injEq] at h
  exact h.2.symm

theorem eq_simm12_of_immediateField {w : IWord} {v : Int} (h : immediateField w = some v) (hg : group w ≠ 1) :
    v = simm12 w := by
  simp only [immediateField, if_neg hg, Option.ite_none_left_eq_some, Option.some.injEq] at h
  exact h.2.symm

/-- Settles O5: the immediate of a decoded word is the signed field its group gives it, and each sum adds it as it is. -/
theorem immediatesAreSignedAndUnscaled : Obligations.ImmediatesAreSignedAndUnscaled := by
  refine ⟨fun w i h => ?_, fun s b c v =>
    ⟨s.branchTarget_toNat v, s.pcPlus_toNat v, s.effectiveAddress_toNat b c v⟩⟩
  rw [decodeWord_immediate h]
  refine ⟨immediateField_group0, immediateField_group1, immediateField_of_access, fun v hv =>
    ⟨fun hg => ?_, fun hg => ?_⟩⟩
  · obtain rfl := eq_simm20_of_immediateField hv hg
    exact ⟨(simm20_range w).1, (simm20_range w).2, simm20_eq w⟩
  · obtain rfl := eq_simm12_of_immediateField hv hg
    exact ⟨(simm12_range w).1, (simm12_range w).2, simm12_eq w⟩

end Sys2Proof
end

section
/-!
The meaning of a clear dirty bit (10_state.md R28), the nine type tags (42_load.md R173) and the forced write-back
(70_reset_and_hazards.md R235): what a launch has, what a write-back keeps, and what every step keeps (the statements
O15, O16, O17, O20 and O21).
-/

namespace Sys2Proof.Machine

/-! ## What a write-back of a holder's data keeps -/

theorem State.Coherent.writeBack {s : State} (hc : s.Coherent) (L : Nat) (v : Line) : (s.writeBack L v).Coherent := by
  intro i j hi hj hb
  rw [State.writeBack_tagged] at hi hj
  rw [State.writeBack_base, State.writeBack_base] at hb
  have hsame : s.holds L i = s.holds L j := by simp [State.holds, hi, hj, hb]
  obtain ⟨hdata, hdirty⟩ := hc i j hi hj hb
  rw [State.writeBack_data, State.writeBack_data, State.writeBack_dlar, State.writeBack_dlar, hsame]
  refine ⟨hdata, ?_⟩
  split
  · rfl
  · exact hdirty

/-- Writing a holder's data back leaves its line up to date, and touches no other line (20_memory.md R61). -/
theorem State.CleanUpToDate.writeBack {s : State} (hs : s.CleanUpToDate) (hc : s.Coherent) {L : Nat} {k : Reg}
    (hk : s.holds L k = true) : (s.writeBack L (s.dlar k).data).CleanUpToDate := by
  intro i hi hd
  rw [State.writeBack_tagged] at hi
  rw [State.writeBack_data, State.writeBack_base, State.writeBack_mem]
  by_cases hb : (s.dlar i).base = L
  · obtain ⟨ht, hkb⟩ := State.holds_iff.mp hk
    rw [hb, Memory.readLine_writeLine_same]
    exact (hc i k hi ht (hb.trans hkb.symm)).1
  · have hnot : s.holds L i = false := by simp [State.holds, hb]
    rw [State.writeBack_dlar, hnot] at hd
    rw [Memory.readLine_writeLine_other _ _ hb]
    exact hs i hi hd

/-- Holders are alike, and the clean ones among them are up to date with memory: what write-backs between two
instructions and `Release` keep together. -/
structure State.UpToDate (s : State) : Prop where
  coherent : s.Coherent
  clean : s.CleanUpToDate

theorem State.UpToDate.writeBack {s : State} (hs : s.UpToDate) {L : Nat} {k : Reg} (hk : s.holds L k = true) :
    (s.writeBack L (s.dlar k).data).UpToDate :=
  ⟨hs.coherent.writeBack _ _, hs.clean.writeBack hs.coherent hk⟩

theorem State.UpToDate.betweenInstructions {s : State} (hs : s.UpToDate) : s.betweenInstructions.UpToDate :=
  State.betweenInstructions_induction (P := State.UpToDate) s ⟨hs.coherent, hs.clean⟩ fun _ _ _ hu hk _ =>
    hu.writeBack hk

theorem State.UpToDate.release {s r : State} {a : Reg} (hs : s.UpToDate) (h : s.release a = .ok r) : r.UpToDate := by
  rcases s.release_cases a with ⟨-, hr⟩ | ⟨ht, -, -, hr⟩ | ⟨-, -, -, hr⟩ <;> cases hr.symm.trans h
  · exact hs
  · exact hs.writeBack (State.holds_iff.mpr ⟨ht, rfl⟩)

/-! ## A clear dirty bit -/

/-- Where memory stays and every record stays or is dirty, clean lines stay up to date. -/
theorem State.CleanUpToDate.of_dlars {s t : State} (hs : s.CleanUpToDate) (hm : t.mem = s.mem)
    (h : ∀ i, t.dlar i = s.dlar i ∨ (t.dlar i).dirty = true) : t.CleanUpToDate := by
  intro i hi hd
  rcases h i with heq | hdirty
  · rw [heq] at hi hd ⊢
    rw [hm]
    exact hs i hi hd
  · rw [hdirty] at hd
    cases hd

theorem State.CleanUpToDate.setData {s : State} (hs : s.CleanUpToDate) (a : Reg) (v : Line) :
    (s.setData a v).CleanUpToDate := by
  refine hs.of_dlars (State.setData_mem ..) fun i => ?_
  by_cases ha : a = 0
  · rw [ha, State.setData_dzero]
    exact Or.inl rfl
  · rw [State.setData_dlar s ha]
    split
    · exact Or.inr rfl
    · exact Or.inl rfl

/-- Every record but that of `a` is up to date where it is clean, and `a`, where it is clean, has line `L` of memory:
what getting line `L` for `a` leaves before `a` has its new address (42_load.md R172). -/
structure State.FilledWith (s : State) (a : Reg) (L : Nat) : Prop where
  others : ∀ i, i ≠ a → (s.dlar i).tagged = true → (s.dlar i).dirty = false →
    (s.dlar i).data = s.mem.readLine (s.dlar i).base
  filled : (s.dlar a).dirty = false → (s.dlar a).data = s.mem.readLine L

theorem State.FilledWith.setDlar {s : State} (hs : s.CleanUpToDate) {a : Reg} (ha : a ≠ 0) {d : DataLar} {L : Nat}
    (hd : d.dirty = false → d.data = s.mem.readLine L) : (s.setDlar a d).FilledWith a L := by
  constructor
  · intro i hi
    rw [State.setDlar_dlar_other _ _ _ hi, State.setDlar_mem]
    exact hs i
  · rw [State.setDlar_dlar_same _ ha, State.setDlar_mem]
    exact hd

theorem State.fillFrom_filledWith {s u : State} (hs : s.CleanUpToDate) {a : Reg} (ha : a ≠ 0) {L : Nat}
    (h : s.fillFrom a L = .ok u) : u.FilledWith a L := by
  rcases s.fillFrom_cases a L with ⟨k, hk, hf⟩ | ⟨-, -, hf⟩ | ⟨-, -, hf⟩ <;> cases hf.symm.trans h
  · obtain ⟨hkt, hkb⟩ := State.holds_iff.mp (State.holds_of_holder hk)
    exact .setDlar hs ha fun hd => hkb ▸ hs k hkt hd
  · exact .setDlar hs ha fun _ => rfl

theorem State.acquire_filledWith {s u : State} (hs : s.UpToDate) {a : Reg} (ha : a ≠ 0) {L : Nat}
    (h : s.acquire a L = .ok u) : u.FilledWith a L := by
  rcases State.acquire_cases h with ⟨hh, rfl⟩ | ⟨-, r, hr, hf⟩
  · obtain ⟨ht, hb⟩ := State.holds_iff.mp hh
    exact ⟨fun i _ => hs.clean i, fun hd => hb ▸ hs.clean a ht hd⟩
  · exact State.fillFrom_filledWith (hs.release hr).clean ha hf

/-- Giving `a` the address of the line it has been filled with makes all clean lines up to date again. -/
theorem State.FilledWith.pointAt {u : State} {a : Reg} (ha : a ≠ 0) {ea : Word} (h : u.FilledWith a (lineNumber ea))
    (ty : LaneType) : (u.pointAt a ea ty).CleanUpToDate := by
  intro i hi hd
  rw [State.pointAt_mem]
  by_cases hia : i = a
  · subst hia
    rw [State.pointAt_dirty _ ha] at hd
    rw [DataLar.base, State.pointAt_data _ ha, State.pointAt_addr _ ha]
    exact h.filled hd
  · rw [State.pointAt_dlar_other _ hia] at hi hd ⊢
    exact h.others i hia hi hd

theorem State.UpToDate.stage {s u : State} (hs : s.UpToDate) {a : Reg} {L : Nat} (h : s.stage a L = .ok u) :
    u.CleanUpToDate := by
  rcases State.stage_cases h with ⟨-, rfl⟩ | ⟨-, r, hr, rfl⟩
  · refine hs.clean.of_dlars (State.dirtyHolders_mem ..) fun i => ?_
    rw [State.dirtyHolders_dlar]
    split
    · exact Or.inr rfl
    · exact Or.inl rfl
  · refine (hs.release hr).clean.of_dlars (State.giveHolders_mem ..) fun i => ?_
    rw [State.giveHolders_dlar]
    split
    · exact Or.inr rfl
    · exact Or.inl rfl

theorem State.CleanUpToDate.relabel {u : State} (hu : u.CleanUpToDate) {a : Reg} (ha : a ≠ 0) (ea : Word)
    (ty : LaneType) : (u.relabel a ea ty).CleanUpToDate := by
  refine hu.of_dlars (State.relabel_mem ..) fun i => ?_
  by_cases hia : i = a
  · subst hia
    exact Or.inr (State.relabel_dirty u ha ea ty)
  · exact Or.inl (State.relabel_dlar_other _ hia ..)

theorem ExecEffect.cleanUpToDate {r : Option Reg} {s t : State} (h : ExecEffect r s t) (hs : s.UpToDate) :
    t.CleanUpToDate := by
  cases h with
  | jumps => exact hs.clean
  | writesData a n v =>
    have htaken : (s.takeDraws a n).CleanUpToDate :=
      hs.clean.of_dlars (State.takeDraws_mem ..) fun i => Or.inl (State.takeDraws_dlar ..)
    exact htaken.setData a v
  | loads ty hr ha hu => exact (State.acquire_filledWith hs ha hu).pointAt ha ty
  | stores ty hr ha hu => exact (hs.stage hu).relabel ha _ ty

/-- Settles O20: a record is left clean only where it is unchanged, has been written back, or has been filled from
memory or from a clean holder. -/
theorem stepKeepsCleanLinesUpToDate : Obligations.StepKeepsCleanLinesUpToDate := by
  intro s t hc hs h
  obtain ⟨r, he⟩ := step_effect h
  exact he.cleanUpToDate (State.UpToDate.betweenInstructions ⟨hc, hs⟩)

/-! ## The nine type tags -/

/-- The tag of a record is one of nine (42_load.md R173). -/
def DataLar.TagRegular (d : DataLar) : Prop := d.isFloat16 = true → d.typeOfInt = 0b01 ∧ d.unsgnOrSgn = true

theorem DataLar.zero_tagRegular : DataLar.zero.TagRegular := fun h => by cases h

theorem DataLar.retype_tagRegular (d : DataLar) (t : LaneType) : (d.retype t).TagRegular := by
  cases t with
  | int => exact fun h => by cases h
  | f16 => exact fun _ => ⟨rfl, rfl⟩

theorem State.TagsRegular.withDlars (s : State) {f : Reg → DataLar} (hf : ∀ i, (f i).TagRegular) :
    (s.withDlars f).TagsRegular := by
  intro i
  rw [State.withDlars_dlar]
  split
  · exact DataLar.zero_tagRegular
  · exact hf i

theorem State.TagsRegular.setDlar {s : State} (hs : s.TagsRegular) (a : Reg) {d : DataLar} (hd : d.TagRegular) :
    (s.setDlar a d).TagsRegular :=
  .withDlars s fun i => by
    split
    · exact hd
    · exact hs i

theorem State.TagsRegular.writeBack {s : State} (hs : s.TagsRegular) (L : Nat) (v : Line) :
    (s.writeBack L v).TagsRegular := by
  intro i
  rw [State.writeBack_dlar]
  split <;> exact hs i

theorem State.TagsRegular.betweenInstructions {s : State} (hs : s.TagsRegular) : s.betweenInstructions.TagsRegular :=
  State.betweenInstructions_induction (P := State.TagsRegular) s hs fun _ _ _ hu _ _ => hu.writeBack _ _

theorem State.TagsRegular.setData {s : State} (hs : s.TagsRegular) (a : Reg) (v : Line) :
    (s.setData a v).TagsRegular := by
  unfold State.setData
  split
  · exact hs
  · exact .withDlars s fun i => by split <;> exact hs i

theorem State.TagsRegular.release {s r : State} {a : Reg} (hs : s.TagsRegular) (h : s.release a = .ok r) :
    r.TagsRegular := by
  rcases s.release_cases a with ⟨-, hr⟩ | ⟨-, -, -, hr⟩ | ⟨-, -, -, hr⟩ <;> cases hr.symm.trans h
  · exact hs
  · exact hs.writeBack _ _

theorem State.TagsRegular.fillFrom {s u : State} {a : Reg} {L : Nat} (hs : s.TagsRegular)
    (h : s.fillFrom a L = .ok u) : u.TagsRegular := by
  rcases s.fillFrom_cases a L with ⟨k, -, hf⟩ | ⟨-, -, hf⟩ | ⟨-, -, hf⟩ <;> cases hf.symm.trans h
  all_goals exact hs.setDlar a (hs a)

theorem State.TagsRegular.acquire {s u : State} {a : Reg} {L : Nat} (hs : s.TagsRegular)
    (h : s.acquire a L = .ok u) : u.TagsRegular := by
  rcases State.acquire_cases h with ⟨-, rfl⟩ | ⟨-, r, hr, hf⟩
  · exact hs
  · exact (hs.release hr).fillFrom hf

theorem State.TagsRegular.stage {s u : State} {a : Reg} {L : Nat} (hs : s.TagsRegular)
    (h : s.stage a L = .ok u) : u.TagsRegular := by
  rcases State.stage_cases h with ⟨-, rfl⟩ | ⟨-, r, hr, rfl⟩
  · exact .withDlars s fun i => by split <;> exact hs i
  · exact .withDlars r fun i => by split <;> exact hs.release hr i

theorem ExecEffect.tagsRegular {r : Option Reg} {s t : State} (h : ExecEffect r s t) (hs : s.TagsRegular) :
    t.TagsRegular := by
  cases h with
  | jumps => exact hs
  | writesData a n v =>
    have htaken : (s.takeDraws a n).TagsRegular := fun i => by
      rw [State.takeDraws_dlar]
      exact hs i
    exact htaken.setData a v
  | loads ty hr ha hu => exact (hs.acquire hu).setDlar _ (DataLar.retype_tagRegular _ ty)
  | stores ty hr ha hu => exact (hs.stage hu).setDlar _ (DataLar.retype_tagRegular _ ty)

/-- Settles O21: only a load or store writes a tag, and it writes a row of 42_load.md R173. -/
theorem stepKeepsTagsRegular : Obligations.StepKeepsTagsRegular := by
  intro s t hs h
  obtain ⟨r, he⟩ := step_effect h
  exact he.tagsRegular hs.betweenInstructions

/-! ## Reset -/

theorem State.launch_tagged (p : Params) (v : Word) (m : Memory) (i : Reg) :
    ((State.launch p v m).dlar i).tagged = false := by
  rw [State.launch_dlar, DataLar.zero_tagged]

/-- Settles O16: every Data LAR of a launch is the zero record, which is untagged. -/
theorem launchLeavesNoLineHeld : Obligations.LaunchLeavesNoLineHeld := by
  refine ⟨fun p v m => ⟨rfl, rfl, rfl, State.launch_dlar p v m, fun L i => ?_⟩, rfl⟩
  rw [State.holds, State.launch_tagged, Bool.false_and]

/-- Settles O17: the invariants speak of tagged Data LARs and of f16 tags, and a launch has neither. -/
theorem invariantsHoldAtReset : Obligations.InvariantsHoldAtReset := by
  refine ⟨fun p v m hm => ⟨hm, fun i j hi => ?_, fun i hi => ?_, fun i => ?_⟩, rfl⟩
  · cases (State.launch_tagged p v m i).symm.trans hi
  · cases (State.launch_tagged p v m i).symm.trans hi
  · rw [State.launch_dlar]
    exact DataLar.zero_tagRegular

/-! ## The forced write-back -/

theorem SameButWriteBack.refl (s : State) : SameButWriteBack s s := ⟨rfl, rfl, rfl, fun _ => rfl, fun _ => rfl⟩

theorem SameButWriteBack.trans {s t u : State} (h : SameButWriteBack s t) (h' : SameButWriteBack t u) :
    SameButWriteBack s u :=
  ⟨h.pc.trans h'.pc, h.params.trans h'.params, h.draws.trans h'.draws, fun i => (h.dlars i).trans (h'.dlars i),
    fun L => (h.view L).trans (h'.view L)⟩

theorem SameButWriteBack.writeBack {s : State} (hc : s.Coherent) {L : Nat} {k : Reg} (hk : s.holds L k = true) :
    SameButWriteBack s (s.writeBack L (s.dlar k).data) where
  pc := (State.writeBack_pc ..).symm
  params := (State.writeBack_params ..).symm
  draws := (State.writeBack_draws ..).symm
  dlars i := by
    rw [State.writeBack_dlar]
    split <;> rfl
  view K := (State.writeBack_viewLine s (State.viewLine_of_holds hc hk) K).symm

theorem SameButWriteBack.holds {s t : State} (h : SameButWriteBack s t) (L : Nat) (i : Reg) :
    t.holds L i = s.holds L i := by
  have hd := h.dlars i
  simp only [DataLar.mk.injEq] at hd
  obtain ⟨-, haddr, -, -, -, -, htagged⟩ := hd
  rw [State.holds, State.holds, DataLar.base, DataLar.base, haddr, htagged]

theorem SameButWriteBack.backed {s t : State} (h : SameButWriteBack s t) (L : Nat) : t.backed L = s.backed L := by
  rw [State.backed, State.backed, h.params]

/-- What holds of a coherent state and of what internal write-backs have made of it: some backed lines have been written
back, and nothing else has changed (20_memory.md R62). -/
structure WrittenBack (s t : State) : Prop where
  coherent : t.Coherent
  same : SameButWriteBack s t
  schedule : t.schedule = s.schedule
  dirty : ∀ i, (t.dlar i).dirty = true → (s.dlar i).dirty = true
  clean : s.CleanUpToDate → t.CleanUpToDate
  unbacked : ∀ x, s.backed (x / 32) = false → t.mem.read x = s.mem.read x

theorem WrittenBack.refl {s : State} (hc : s.Coherent) : WrittenBack s s :=
  ⟨hc, .refl s, rfl, fun _ h => h, id, fun _ _ => rfl⟩

theorem WrittenBack.writeBack {s : State} (hc : s.Coherent) {L : Nat} {k : Reg} (hk : s.holds L k = true)
    (hb : s.backed L = true) : WrittenBack s (s.writeBack L (s.dlar k).data) where
  coherent := hc.writeBack _ _
  same := .writeBack hc hk
  schedule := State.writeBack_schedule ..
  dirty i h := by
    rw [State.writeBack_dlar] at h
    split at h
    · cases h
    · exact h
  clean hs := hs.writeBack hc hk
  unbacked x hx := by
    rw [State.writeBack_mem, Memory.read_writeLine, if_neg]
    rintro rfl
    cases hb.symm.trans hx

theorem WrittenBack.trans {s t u : State} (h : WrittenBack s t) (h' : WrittenBack t u) : WrittenBack s u where
  coherent := h'.coherent
  same := h.same.trans h'.same
  schedule := h'.schedule.trans h.schedule
  dirty i hi := h.dirty i (h'.dirty i hi)
  clean hs := h'.clean (h.clean hs)
  unbacked x hx := (h'.unbacked x ((h.same.backed _).trans hx)).trans (h.unbacked x hx)

theorem WrittenBack.earlyWriteBack {s : State} (hc : s.Coherent) (L : Nat) : WrittenBack s (s.earlyWriteBack L) := by
  rcases s.earlyWriteBack_cases L with h | ⟨k, hk, -, hb, h⟩ <;> rw [h]
  · exact .refl hc
  · exact .writeBack hc hk hb

theorem WrittenBack.foldl (ls : List Nat) {s : State} (hc : s.Coherent) :
    WrittenBack s (ls.foldl State.earlyWriteBack s) := by
  induction ls generalizing s with
  | nil => exact .refl hc
  | cons L ls ih =>
    have hL := WrittenBack.earlyWriteBack hc L
    exact hL.trans (ih hL.coherent)

/-- The internal write-back step of a backed line leaves no holder of it dirty (20_memory.md R62). -/
theorem State.earlyWriteBack_clean {s : State} {L : Nat} (hb : s.backed L = true) {i : Reg}
    (hi : s.holds L i = true) : ((s.earlyWriteBack L).dlar i).dirty = false := by
  cases hd : s.dirtyHolder L with
  | none =>
    simp only [State.earlyWriteBack, hd]
    exact State.dirtyHolder_none.mp hd i hi
  | some k =>
    simp only [State.earlyWriteBack, hd, hb, if_true, State.writeBack_dlar, hi]

theorem State.foldl_earlyWriteBack_clean {ls : List Nat} {s : State} (hc : s.Coherent) {L : Nat} (hL : L ∈ ls)
    (hb : s.backed L = true) {i : Reg} (hi : s.holds L i = true) :
    ((ls.foldl State.earlyWriteBack s).dlar i).dirty = false := by
  induction ls generalizing s with
  | nil => cases hL
  | cons K ls ih =>
    have hK := WrittenBack.earlyWriteBack hc K
    rcases List.mem_cons.mp hL with rfl | hL
    · have hlater := (WrittenBack.foldl ls hK.coherent).dirty i
      rw [State.earlyWriteBack_clean hb hi] at hlater
      simpa using hlater
    · exact ih hK.coherent hL ((hK.same.backed L).trans hb) ((hK.same.holds L i).trans hi)

theorem State.flush_eq_foldl (s : State) :
    s.flush = ((List.finRange 16).map fun i => (s.dlar i).base).foldl State.earlyWriteBack s := by
  rw [State.flush, List.foldl_map]

theorem WrittenBack.flush {s : State} (hc : s.Coherent) : WrittenBack s s.flush := by
  rw [State.flush_eq_foldl]
  exact .foldl _ hc

theorem State.flush_clean {s : State} (hc : s.Coherent) {L : Nat} (hb : s.backed L = true) {i : Reg}
    (hi : s.holds L i = true) : (s.flush.dlar i).dirty = false := by
  obtain ⟨-, rfl⟩ := State.holds_iff.mp hi
  rw [State.flush_eq_foldl]
  exact State.foldl_earlyWriteBack_clean hc (List.mem_map_of_mem (List.mem_finRange i)) hb hi

/-- Where clean lines are up to date, memory has the view of every line that no holder has dirty (20_memory.md R63). -/
theorem State.readLine_eq_viewLine {s : State} (hs : s.CleanUpToDate) {L : Nat}
    (hL : ∀ i, s.holds L i = true → (s.dlar i).dirty = false) : s.mem.readLine L = s.viewLine L := by
  unfold State.viewLine
  split
  · next k hk =>
    have hh := State.holds_of_holder hk
    obtain ⟨ht, rfl⟩ := State.holds_iff.mp hh
    exact (hs k ht (hL k hh)).symm
  · rfl

theorem Memory.read_eq_lineByte (m : Memory) (x : Nat) : m.read x = lineByte (m.readLine (x / 32)) (x % 32) := by
  rw [Memory.lineByte_readLine _ _ (Nat.mod_lt x (by norm_num)), Nat.div_add_mod]

/-- Settles O15: the flush is a run of internal write-backs over the lines held, after which every backed one is
clean. -/
theorem flushLeavesNothingDirty : Obligations.FlushLeavesNothingDirty := by
  intro s hc
  have hw := WrittenBack.flush hc
  refine ⟨hw.same, hw.schedule, fun i hi hb => ?_, fun hs x hb => ?_, hw.unbacked⟩
  · have hh : s.flush.holds (s.flush.dlar i).base i = true := State.holds_iff.mpr ⟨hi, rfl⟩
    rw [hw.same.holds] at hh
    refine State.flush_clean hc ?_ hh
    rwa [← (State.holds_iff.mp hh).2]
  · rw [Memory.read_eq_lineByte, State.readLine_eq_viewLine (hw.clean hs), ← hw.same.view]
    intro i hi
    rw [hw.same.holds] at hi
    exact State.flush_clean hc hb hi

end Sys2Proof.Machine
end

section
/-!
The step, the fetch and `pc` (10_state.md R35, R37; 20_memory.md R52, R54; 60_exceptions.md R213), and the branches
(41_control.md R161, R162) (the statements O9, O10, O11 and O50).
-/

namespace Sys2Proof

/-! ## The bytes of a word -/

theorem toNat_append_eq_add {n m : Nat} (x : BitVec n) (y : BitVec m) :
    (x ++ y).toNat = x.toNat * 2 ^ m + y.toNat := by
  rw [BitVec.toNat_append, ← Nat.shiftLeft_add_eq_or_of_lt y.isLt, Nat.shiftLeft_eq]

theorem wordOfBytes_little_toNat (b0 b1 b2 b3 : Byte) : (wordOfBytes .little b0 b1 b2 b3).toNat =
    b0.toNat + b1.toNat * 256 + b2.toNat * 256 ^ 2 + b3.toNat * 256 ^ 3 := by
  simp only [wordOfBytes, toNat_append_eq_add]
  omega

theorem wordOfBytes_big_toNat (b0 b1 b2 b3 : Byte) : (wordOfBytes .big b0 b1 b2 b3).toNat =
    b0.toNat * 256 ^ 3 + b1.toNat * 256 ^ 2 + b2.toNat * 256 + b3.toNat := by
  simp only [wordOfBytes, toNat_append_eq_add]
  omega

theorem wordByte_toNat (e : Endian) (w : IWord) (j : Nat) :
    (wordByte e w j).toNat = w.toNat / 2 ^ (8 * Machine.bytePos e 4 j) % 256 := by
  cases e <;> simp [wordByte, Machine.bytePos, Nat.shiftRight_eq_div_pow]

/-- Each byte of a word is the byte it was put together from, in either order (20_memory.md R52, R54). -/
theorem wordByte_wordOfBytes (e : Endian) (g : Nat → Byte) {j : Nat} (hj : j < 4) :
    wordByte e (wordOfBytes e (g 0) (g 1) (g 2) (g 3)) j = g j := by
  apply BitVec.eq_of_toNat_eq
  have h0 := (g 0).isLt
  have h1 := (g 1).isLt
  have h2 := (g 2).isLt
  have h3 := (g 3).isLt
  rw [wordByte_toNat]
  cases e with
  | little =>
    rw [wordOfBytes_little_toNat, Machine.bytePos]
    interval_cases j <;> norm_num <;> omega
  | big =>
    rw [wordOfBytes_big_toNat, Machine.bytePos]
    interval_cases j <;> norm_num <;> omega

namespace Machine

/-! ## The fetch and the step -/

theorem State.fetch_misaligned {s : State} (h : s.pc.toNat % 4 ≠ 0) : s.fetch = .error .misalignedPc := by
  rw [State.fetch, if_pos h]

section Aligned

variable {s : State} (h4 : s.pc.toNat % 4 = 0)
include h4

theorem State.fetch_unbacked (hb : s.backed (s.pc.toNat / 32) = false) :
    s.fetch = .error (.unbackedLine (s.pc.toNat / 32)) := by
  rw [State.fetch, if_neg (not_not.mpr h4), lineNumber, if_pos hb]

theorem State.fetch_dirty (hb : s.backed (s.pc.toNat / 32) = true)
    (hd : ∃ i, s.holds (s.pc.toNat / 32) i = true ∧ (s.dlar i).dirty = true) :
    s.fetch = .error .fetchFromDirtyLine := by
  rw [State.fetch, if_neg (not_not.mpr h4), lineNumber, if_neg (by simp [hb]),
    if_pos (State.dirtyHolder_isSome.mpr hd)]

theorem State.fetch_ok (hb : s.backed (s.pc.toNat / 32) = true)
    (hc : ∀ i, s.holds (s.pc.toNat / 32) i = true → (s.dlar i).dirty = false) : s.fetch = .ok s.wordAtPc := by
  rw [State.fetch, if_neg (not_not.mpr h4), lineNumber, if_neg (by simp [hb]),
    if_neg (by simp [State.dirtyHolder_none.mpr hc])]

end Aligned

theorem State.wordAtPc_byte (s : State) {j : Nat} (hj : j < 4) :
    wordByte s.params.endian s.wordAtPc j = s.mem.read (s.pc.toNat + j) :=
  wordByte_wordOfBytes s.params.endian (fun j => s.mem.read (s.pc.toNat + j)) hj

/-- Settles O11: the three tests of the fetch in their order, then the four bytes at `pc`. -/
theorem fetchStopsInOrderOrReadsFourBytes : Obligations.FetchStopsInOrderOrReadsFourBytes := by
  refine fun s => ⟨State.fetch_misaligned, State.fetch_unbacked, State.fetch_dirty, fun h4 hb hc =>
    ⟨s.wordAtPc, State.fetch_ok h4 hb hc, fun j => s.wordAtPc_byte, fun he => ?_, fun he => ?_⟩⟩
  · rw [State.wordAtPc, he]
    exact wordOfBytes_little_toNat ..
  · rw [State.wordAtPc, he]
    exact wordOfBytes_big_toNat ..

theorem step_of_fetch_decode {s : State} {w : IWord} {i : Instr} (hf : s.betweenInstructions.fetch = .ok w)
    (hd : decodeWord w = .ok i) : step s = exec i s.betweenInstructions := by
  simp only [step, hf, hd]

theorem step_of_fetch_error {s : State} {f : Fault} (hf : s.betweenInstructions.fetch = .error f) :
    step s = .fault f := by
  simp only [step, hf]

/-- Settles O9: both clauses are arms of the step. -/
theorem stepRunsTheDecodedInstruction : Obligations.StepRunsTheDecodedInstruction :=
  ⟨fun _ _ _ => step_of_fetch_decode, fun _ _ => step_of_fetch_error⟩

/-! ## What is written to pc -/

theorem setData_advance_pc {s t : State} {a : Reg} (h : ∃ v, t = (s.setData a v).advance) : t.pc = s.pc + 4 := by
  obtain ⟨v, rfl⟩ := h
  rw [State.advance_pc, State.setData_pc]

theorem State.release_pc {s r : State} {a : Reg} (h : s.release a = .ok r) : r.pc = s.pc := by
  rcases s.release_cases a with ⟨-, hr⟩ | ⟨-, -, -, hr⟩ | ⟨-, -, -, hr⟩ <;> cases hr.symm.trans h
  · rfl
  · exact State.writeBack_pc ..

theorem State.fillFrom_pc {s u : State} {a : Reg} {L : Nat} (h : s.fillFrom a L = .ok u) : u.pc = s.pc := by
  rcases s.fillFrom_cases a L with ⟨k, -, hf⟩ | ⟨-, -, hf⟩ | ⟨-, -, hf⟩ <;> cases hf.symm.trans h
  all_goals exact State.setDlar_pc ..

theorem State.acquire_pc {s u : State} {a : Reg} {L : Nat} (h : s.acquire a L = .ok u) : u.pc = s.pc := by
  rcases State.acquire_cases h with ⟨-, rfl⟩ | ⟨-, r, hr, hf⟩
  · rfl
  · exact (State.fillFrom_pc hf).trans (State.release_pc hr)

theorem State.stage_pc {s u : State} {a : Reg} {L : Nat} (h : s.stage a L = .ok u) : u.pc = s.pc := by
  rcases State.stage_cases h with ⟨-, rfl⟩ | ⟨-, r, hr, rfl⟩
  · exact State.dirtyHolders_pc ..
  · exact (State.giveHolders_pc ..).trans (State.release_pc hr)

theorem loadLar_pc {ty : LaneType} {a b c : Reg} {simm : Int} {s t : State} (h : loadLar ty a b c simm s = .next t) :
    t.pc = s.pc + 4 := by
  rcases loadLar_cases ty a b c simm s with ⟨i, -, hl⟩ | ⟨-, ⟨-, hl⟩ | ⟨-, f, -, hl⟩ | ⟨-, u, hu, hl⟩⟩ <;>
    cases hl.symm.trans h
  · rfl
  · rw [State.advance_pc, State.pointAt_pc, State.acquire_pc hu]

theorem storeLar_pc {ty : LaneType} {a b c : Reg} {simm : Int} {s t : State} (h : storeLar ty a b c simm s = .next t) :
    t.pc = s.pc + 4 := by
  rcases storeLar_cases ty a b c simm s with ⟨i, -, hl⟩ | ⟨-, ⟨-, hl⟩ | ⟨-, f, -, hl⟩ | ⟨-, u, hu, hl⟩⟩ <;>
    cases hl.symm.trans h
  · rfl
  · rw [State.advance_pc, State.relabel_pc, State.stage_pc hu]

theorem State.scalarNonzero_eq_true {s : State} {a : Reg} : s.scalarNonzero a = true ↔ s.sdata a ≠ 0 := by
  simp [State.scalarNonzero]

/-- The instruction moves `pc` otherwise than to the next word (41_control.md R161 to R163). -/
def TransfersControl (i : Instr) (s : State) : Prop :=
  (∃ a v, i = .btru a v ∧ s.sdata a ≠ 0) ∨ (∃ a v, i = .bfal a v ∧ s.sdata a = 0) ∨ ∃ a, i = .jmp a

/-- An instruction that completes has moved `pc` by 4, or is a taken branch or a jump (10_state.md R35, R37). -/
theorem exec_pc {i : Instr} {s t : State} (h : exec i s = .next t) : t.pc = s.pc + 4 ∨ TransfersControl i s := by
  cases i with
  | adds | subs | slts | muls | ands | orrs | xors | shls | shrs =>
    exact Or.inl (setData_advance_pc (scalarBinary_setData h))
  | addv | subv | sltv | mulv | andv | orrv | xorv | shlv | shrv =>
    exact Or.inl (setData_advance_pc (vectorBinary_setData h))
  | divs a b c =>
    have hpc := setData_advance_pc (scalarBinary_setData h)
    rw [State.takeDraws_pc] at hpc
    exact Or.inl hpc
  | divv a b c =>
    have hpc := setData_advance_pc (vectorBinary_setData h)
    rw [State.takeDraws_pc] at hpc
    exact Or.inl hpc
  | invs | nots => exact Or.inl (setData_advance_pc (scalarUnary_setData h))
  | invv | notv => exact Or.inl (setData_advance_pc (vectorUnary_setData h))
  | addsPc | addvPc =>
    cases State.checked_next h
    exact Or.inl (setData_advance_pc ⟨_, rfl⟩)
  | btru a v =>
    cases State.checked_next h
    split
    · next hs => exact Or.inr (Or.inl ⟨a, v, rfl, State.scalarNonzero_eq_true.mp hs⟩)
    · exact Or.inl rfl
  | bfal a v =>
    cases State.checked_next h
    split
    · exact Or.inl rfl
    · next hs => exact Or.inr (Or.inr (Or.inl ⟨a, v, rfl, not_not.mp (mt State.scalarNonzero_eq_true.mpr hs)⟩))
  | jmp a => exact Or.inr (Or.inr (Or.inr ⟨a, rfl⟩))
  | ldu8 | lds8 | ldu16 | lds16 | ldu32 | lds32 | ldu64 | lds64 | ldf16 => exact Or.inl (loadLar_pc h)
  | stu8 | sts8 | stu16 | sts16 | stu32 | sts32 | stu64 | sts64 | stf16 => exact Or.inl (storeLar_pc h)

@[simp] theorem State.writeBack_sdata (s : State) (L : Nat) (v : Line) (i : Reg) :
    (s.writeBack L v).sdata i = s.sdata i := by
  have htype := State.writeBack_type s L v i
  rw [State.type, State.type] at htype
  simp [State.sdata, State.lane, DataLar.idx, htype]

theorem State.betweenInstructions_pc (s : State) : s.betweenInstructions.pc = s.pc :=
  State.betweenInstructions_induction (P := fun u => u.pc = s.pc) s rfl fun _ _ _ hu _ _ =>
    (State.writeBack_pc ..).trans hu

theorem State.betweenInstructions_sdata (s : State) (a : Reg) : s.betweenInstructions.sdata a = s.sdata a :=
  State.betweenInstructions_induction (P := fun u => u.sdata a = s.sdata a) s rfl fun _ _ _ hu _ _ =>
    (State.writeBack_sdata ..).trans hu

theorem transfersControl_betweenInstructions (i : Instr) (s : State) :
    TransfersControl i s.betweenInstructions ↔ TransfersControl i s := by
  simp only [TransfersControl, State.betweenInstructions_sdata]

/-- What a step that completes has fetched: an invalid word, over which it advances, or an instruction, which it runs
(60_exceptions.md R211, R213). -/
theorem step_fetched {s t : State} (h : step s = .next t) : ∃ w, s.betweenInstructions.fetch = .ok w ∧
    (t = s.betweenInstructions.advance ∨ ∃ i, decodeWord w = .ok i ∧ exec i s.betweenInstructions = .next t) := by
  simp only [step] at h
  split at h
  · cases h
  · next w hw =>
    refine ⟨w, hw, ?_⟩
    split at h
    · exact Or.inl (Host.Outcome.next.inj h).symm
    · next i hi => exact Or.inr ⟨i, hi, h⟩

/-- Settles O10: the write-backs before the instruction move neither `pc` nor a scalar, and of the instructions only the
taken branches and `jmp` set `pc` otherwise. -/
theorem onlyControlTransfersWritePc : Obligations.OnlyControlTransfersWritePc := by
  intro s t h
  obtain ⟨w, hw, rfl | ⟨i, hi, he⟩⟩ := step_fetched h
  · rw [State.advance_pc, State.betweenInstructions_pc]
    exact Or.inl rfl
  · rcases exec_pc he with hpc | htr
    · rw [hpc, State.betweenInstructions_pc]
      exact Or.inl rfl
    · exact Or.inr ⟨w, i, hw, hi, (transfersControl_betweenInstructions i s).mp htr⟩

/-! ## Branches -/

theorem pcrelOffset_eq (p : PcrelBase) : pcrelOffset p = if p = .own then 0 else 4 := by cases p <;> rfl

/-- Settles O50: each branch is one test of the scalar between its target and the next word. -/
theorem btruAndBfalBranch : Obligations.BtruAndBfalBranch := by
  intro s a simm hu
  rw [← pcrelOffset_eq]
  have htrue : exec (.btru a simm) s =
      .next (if s.scalarNonzero a then s.setPc (s.branchTarget simm) else s.advance) := State.checked_of_none hu _
  have hfalse : exec (.bfal a simm) s =
      .next (if s.scalarNonzero a then s.advance else s.setPc (s.branchTarget simm)) := State.checked_of_none hu _
  rw [htrue, hfalse]
  by_cases hs : s.sdata a = 0
  · have hn : ¬ s.scalarNonzero a = true := fun h => State.scalarNonzero_eq_true.mp h hs
    rw [if_neg hn, if_neg hn, if_neg (not_not.mpr hs), if_pos hs]
    exact ⟨rfl, rfl⟩
  · have hn : s.scalarNonzero a = true := State.scalarNonzero_eq_true.mpr hs
    rw [if_pos hn, if_pos hn, if_pos hs, if_neg hs]
    exact ⟨rfl, rfl⟩

end Machine
end Sys2Proof
end

section
/-!
Where an instruction stops, and what it does into dzero (10_state.md R32, R39; 40_alu.md R114; 60_exceptions.md R213,
R222) (the statements O25, O27 and O28).
-/

namespace Sys2Proof.Machine

/-! ## Untagged operands -/

theorem State.untaggedOperand_on {s : State} (h : s.params.untaggedStops = true) (l : List Reg) :
    s.untaggedOperand l = l.find? fun i => i != 0 && !(s.dlar i).tagged := by
  rw [State.untaggedOperand, if_pos h]

/-- An operand that stops an instruction is an untagged one other than dzero, and the switch is on. -/
theorem State.untaggedOperand_some {s : State} {l : List Reg} {r : Reg} (h : s.untaggedOperand l = some r) :
    r ∈ l ∧ r ≠ 0 ∧ (s.dlar r).tagged = false ∧ s.params.untaggedStops = true := by
  cases hon : s.params.untaggedStops with
  | false =>
    rw [State.untaggedOperand_off hon] at h
    cases h
  | true =>
    rw [State.untaggedOperand_on hon] at h
    have hr := List.find?_some h
    rw [Bool.and_eq_true, bne_iff_ne, Bool.not_eq_true'] at hr
    exact ⟨List.mem_of_find?_eq_some h, hr.1, hr.2, rfl⟩

/-- The operand that stops an instruction is the first that is untagged and not dzero. -/
theorem State.untaggedOperand_of_first {s : State} (hon : s.params.untaggedStops = true) {before after : List Reg}
    {r : Reg} (hb : ∀ q ∈ before, q = 0 ∨ (s.dlar q).tagged = true) (hr : r ≠ 0) (ht : (s.dlar r).tagged = false) :
    s.untaggedOperand (before ++ r :: after) = some r := by
  rw [State.untaggedOperand_on hon, List.find?_eq_some_iff_append]
  refine ⟨by simp [hr, ht], before, after, rfl, fun q hq => ?_⟩
  rcases hb q hq with rfl | hq
  · rfl
  · simp [hq]

theorem State.takeDraws_checked (s : State) (a : Reg) (n : Nat) (l : List Reg) (o : Outcome) :
    (s.takeDraws a n).checked l o = s.checked l o := by
  rw [State.checked, State.takeDraws_untaggedOperand, State.checked]

theorem State.takeDraws_sameLanes (s : State) (a : Reg) (n : Nat) (r : Reg) (l : List Reg) :
    (s.takeDraws a n).sameLanes r l ↔ s.sameLanes r l := by
  simp only [State.sameLanes, State.takeDraws_type]

/-- Every instruction answers through the check of its operands (10_state.md R39). -/
theorem exec_eq_checked (i : Instr) (s : State) : ∃ o, exec i s = s.checked i.operands o := by
  cases i with
  | divs a b c => exact ⟨_, State.takeDraws_checked s a 1 [a, b, c] _⟩
  | divv a b c => exact ⟨_, State.takeDraws_checked s a 32 [a, b, c] _⟩
  | _ => exact ⟨_, rfl⟩

theorem exec_of_untagged {i : Instr} {s : State} {r : Reg} (h : s.untaggedOperand i.operands = some r) :
    exec i s = .fault (.untaggedLarRead r) := by
  obtain ⟨o, ho⟩ := exec_eq_checked i s
  rw [ho, State.checked_of_some h]

/-- Settles O28: every instruction checks its operands in their order before anything else. -/
theorem untaggedOperandStopsWhenAsked : Obligations.UntaggedOperandStopsWhenAsked := by
  refine fun i s => ⟨fun hon before after r hops hb hr ht => exec_of_untagged ?_, fun hoff =>
    State.untaggedOperand_off hoff _⟩
  rw [hops]
  exact State.untaggedOperand_of_first hon hb hr ht

/-! ## Unbacked lines -/

/-- The fault is that of a line which is not backed (20_memory.md R72). -/
def UnbackedFault (s : State) (f : Fault) : Prop := ∃ L, f = .unbackedLine L ∧ s.backed L = false

theorem State.release_error {s : State} {a : Reg} {f : Fault} (h : s.release a = .error f) : UnbackedFault s f := by
  rcases s.release_cases a with ⟨-, hr⟩ | ⟨-, -, -, hr⟩ | ⟨-, -, hb, hr⟩ <;> cases hr.symm.trans h
  exact ⟨_, rfl, hb⟩

theorem State.release_backed {s r : State} {a : Reg} (h : s.release a = .ok r) (L : Nat) : r.backed L = s.backed L := by
  rcases s.release_cases a with ⟨-, hr⟩ | ⟨-, -, -, hr⟩ | ⟨-, -, -, hr⟩ <;> cases hr.symm.trans h
  · rfl
  · exact State.writeBack_backed ..

theorem State.fillFrom_error {s : State} {a : Reg} {L : Nat} {f : Fault} (h : s.fillFrom a L = .error f) :
    UnbackedFault s f := by
  rcases s.fillFrom_cases a L with ⟨k, -, hf⟩ | ⟨-, -, hf⟩ | ⟨-, hb, hf⟩ <;> cases hf.symm.trans h
  exact ⟨_, rfl, hb⟩

theorem State.acquire_error {s : State} {a : Reg} {L : Nat} {f : Fault} (h : s.acquire a L = .error f) :
    UnbackedFault s f := by
  unfold State.acquire at h
  split at h
  · cases h
  · split at h
    · next hr =>
      cases h
      exact State.release_error hr
    · next hr =>
      obtain ⟨K, hf, hb⟩ := State.fillFrom_error h
      exact ⟨K, hf, (State.release_backed hr K).symm.trans hb⟩

theorem State.stage_error {s : State} {a : Reg} {L : Nat} {f : Fault} (h : s.stage a L = .error f) :
    UnbackedFault s f := by
  unfold State.stage at h
  split at h
  · cases h
  · split at h
    · next hr =>
      cases h
      exact State.release_error hr
    · cases h

/-! ## The stops of an instruction -/

section Schemes

variable {view : LaneType → LaneType} {a b c : Reg} {s : State}

/-- A load that no operand stops completes or meets an unbacked line. -/
theorem loadLar_next_or_unbacked (ty : LaneType) (a : Reg) (simm : Int) (h : s.untaggedOperand [b, c] = none) :
    (∃ t, loadLar ty a b c simm s = .next t) ∨ ∃ f, loadLar ty a b c simm s = .fault f ∧ UnbackedFault s f := by
  rcases loadLar_cases ty a b c simm s with ⟨i, hi, -⟩ | ⟨-, ⟨-, hl⟩ | ⟨-, f, hf, hl⟩ | ⟨-, u, -, hl⟩⟩
  · cases hi.symm.trans h
  · exact Or.inl ⟨_, hl⟩
  · exact Or.inr ⟨f, hl, State.acquire_error hf⟩
  · exact Or.inl ⟨_, hl⟩

theorem storeLar_next_or_unbacked (ty : LaneType) (simm : Int) (h : s.untaggedOperand [a, b, c] = none) :
    (∃ t, storeLar ty a b c simm s = .next t) ∨ ∃ f, storeLar ty a b c simm s = .fault f ∧ UnbackedFault s f := by
  rcases storeLar_cases ty a b c simm s with ⟨i, hi, -⟩ | ⟨-, ⟨-, hl⟩ | ⟨-, f, hf, hl⟩ | ⟨-, u, -, hl⟩⟩
  · cases hi.symm.trans h
  · exact Or.inl ⟨_, hl⟩
  · exact Or.inr ⟨f, hl, State.stage_error hf⟩
  · exact Or.inl ⟨_, hl⟩

/-- Where the lane counts differ the vector scheme stops, whatever the destination (40_alu.md R114). -/
theorem vectorBinary_mismatch {op : Nat → LaneType → LaneType → LaneType → Nat → Nat → Nat}
    (h : s.untaggedOperand [a, b, c] = none) (hl : ¬ s.sameLanes a [b, c]) :
    vectorBinary view op a b c s = .fault .vectorLaneCountMismatch := by
  have hne : (s.type b).lanes ≠ (s.type a).lanes ∨ (s.type c).lanes ≠ (s.type a).lanes := by
    simpa [State.sameLanes, -not_and, not_and_or] using hl
  rw [vectorBinary, State.checked_of_none h, if_pos hne]

theorem vectorUnary_mismatch {op : LaneType → LaneType → Nat → Nat} (h : s.untaggedOperand [a, b] = none)
    (hl : ¬ s.sameLanes a [b]) : vectorUnary view op a b s = .fault .vectorLaneCountMismatch := by
  have hne : (s.type b).lanes ≠ (s.type a).lanes := by simpa [State.sameLanes] using hl
  rw [vectorUnary, State.checked_of_none h, if_pos hne]

theorem vectorBinary_next_or_mismatch (view : LaneType → LaneType)
    (op : Nat → LaneType → LaneType → LaneType → Nat → Nat → Nat) (h : s.untaggedOperand [a, b, c] = none) :
    (∃ t, vectorBinary view op a b c s = .next t) ∨
    (vectorBinary view op a b c s = .fault .vectorLaneCountMismatch ∧ ¬ s.sameLanes a [b, c]) := by
  by_cases hl : s.sameLanes a [b, c]
  · have hn := vectorBinary_next (view := view) (op := op) h hl 0
    rw [State.takeDraws_zero] at hn
    exact Or.inl ⟨_, hn⟩
  · exact Or.inr ⟨vectorBinary_mismatch h hl, hl⟩

theorem vectorUnary_next_or_mismatch (view : LaneType → LaneType) (op : LaneType → LaneType → Nat → Nat)
    (h : s.untaggedOperand [a, b] = none) : (∃ t, vectorUnary view op a b s = .next t) ∨
    (vectorUnary view op a b s = .fault .vectorLaneCountMismatch ∧ ¬ s.sameLanes a [b]) := by
  by_cases hl : s.sameLanes a [b]
  · exact Or.inl ⟨_, vectorUnary_next h hl⟩
  · exact Or.inr ⟨vectorUnary_mismatch h hl, hl⟩

end Schemes

/-- What an instruction that no operand stops can answer: a next state, the fault of an unbacked line for a load or
store, or that of different lane counts for a vector instruction. -/
def CompletesOrStops (i : Instr) (s : State) : Prop :=
  (∃ t, exec i s = .next t) ∨
  (∃ f, exec i s = .fault f ∧ UnbackedFault s f) ∧ i.repointed ≠ none ∨
  ∃ a, i.dest = some a ∧ exec i s = .fault .vectorLaneCountMismatch ∧ ¬ s.sameLanes a i.laneSources

theorem exec_completesOrStops {i : Instr} {s : State} (h : s.untaggedOperand i.operands = none) :
    CompletesOrStops i s := by
  cases i with
  | adds | subs | slts | muls | ands | orrs | xors | shls | shrs =>
    exact Or.inl ⟨_, State.checked_of_none h _⟩
  | divs => exact Or.inl ⟨_, scalarBinary_next h 1⟩
  | invs | nots | addsPc | addvPc | btru | bfal | jmp => exact Or.inl ⟨_, State.checked_of_none h _⟩
  | addv a | subv a | sltv a | mulv a | andv a | orrv a | xorv a | shlv a | shrv a =>
    exact (vectorBinary_next_or_mismatch _ _ h).imp_right fun hm => Or.inr ⟨a, rfl, hm⟩
  | divv a b c =>
    have hv := vectorBinary_next_or_mismatch id (fun k => castBoth (divLane (s.draws + k)))
      ((s.takeDraws_untaggedOperand a 32 [a, b, c]).trans h)
    rw [State.takeDraws_sameLanes] at hv
    exact hv.imp_right fun hm => Or.inr ⟨a, rfl, hm⟩
  | invv a | notv a => exact (vectorUnary_next_or_mismatch _ _ h).imp_right fun hm => Or.inr ⟨a, rfl, hm⟩
  | ldu8 a | lds8 a | ldu16 a | lds16 a | ldu32 a | lds32 a | ldu64 a | lds64 a | ldf16 a =>
    exact (loadLar_next_or_unbacked _ a _ h).imp_right fun hf => Or.inl ⟨hf, Option.some_ne_none a⟩
  | stu8 a | sts8 a | stu16 a | sts16 a | stu32 a | sts32 a | stu64 a | sts64 a | stf16 a =>
    exact (storeLar_next_or_unbacked _ _ h).imp_right fun hf => Or.inl ⟨hf, Option.some_ne_none a⟩

/-- Settles O25: an untagged operand stops first; past that check each scheme completes or has its one stop. -/
theorem instructionsStopOnlyAsListed : Obligations.InstructionsStopOnlyAsListed := by
  intro i s
  cases hu : s.untaggedOperand i.operands with
  | some r =>
    obtain ⟨hmem, hr, ht, hon⟩ := State.untaggedOperand_some hu
    exact Or.inr (Or.inr (Or.inl ⟨r, hmem, exec_of_untagged hu, hr, ht, hon⟩))
  | none =>
    rcases exec_completesOrStops hu with hn | ⟨⟨f, hf, L, rfl, hb⟩, hrep⟩ | ⟨a, hd, hf, hl⟩
    · exact Or.inl hn
    · exact Or.inr (Or.inl ⟨L, hf, hb, hrep⟩)
    · exact Or.inr (Or.inr (Or.inr ⟨hf, a, hd, hl⟩))

/-! ## dzero -/

theorem loadLar_dzero (ty : LaneType) {b c : Reg} (simm : Int) {s : State} (h : s.untaggedOperand [b, c] = none) :
    loadLar ty 0 b c simm s = .next s.advance := State.checked_of_none h _

theorem storeLar_dzero (ty : LaneType) {b c : Reg} (simm : Int) {s : State} (h : s.untaggedOperand [0, b, c] = none) :
    storeLar ty 0 b c simm s = .next s.advance := State.checked_of_none h _

/-- An instruction that writes dzero, where its operands and lane counts do not stop it (10_state.md R32). -/
theorem exec_dzero {i : Instr} {s : State} (hd : i.dest = some 0) (hu : s.untaggedOperand i.operands = none)
    (hl : s.sameLanes 0 i.laneSources) : exec i s = .next s.advance := by
  cases i with
  | adds | subs | slts | muls | divs | ands | orrs | xors | shls | shrs =>
    cases hd
    exact scalarBinary_next hu 0
  | invs | nots =>
    cases hd
    exact scalarUnary_next hu
  | addsPc | addvPc =>
    cases hd
    exact State.checked_of_none hu _
  | addv | subv | sltv | mulv | divv | andv | orrv | xorv | shlv | shrv =>
    cases hd
    exact vectorBinary_next hu hl 0
  | invv | notv =>
    cases hd
    exact vectorUnary_next hu hl
  | btru | bfal | jmp => cases hd
  | ldu8 | lds8 | ldu16 | lds16 | ldu32 | lds32 | ldu64 | lds64 | ldf16 =>
    cases hd
    exact loadLar_dzero _ _ hu
  | stu8 | sts8 | stu16 | sts16 | stu32 | sts32 | stu64 | sts64 | stf16 =>
    cases hd
    exact storeLar_dzero _ _ hu

/-- Settles O27: every write to dzero is discarded by the accessor, and loads and stores ask for it. -/
theorem writingDzeroOnlyAdvancesPc : Obligations.WritingDzeroOnlyAdvancesPc :=
  ⟨fun s L => ⟨s.dlar_dzero, s.holds_dzero L⟩, fun _ _ => exec_dzero⟩

end Sys2Proof.Machine
end

section
/-!
Lanes in address order (20_memory.md R52, R53; 10_state.md R29, R30), the lane width by `type_of_int` (R25), and the
BFloat16 format (R23) (the statements O30, O51 and O60).
-/

namespace Sys2Proof.Machine

/-! ## The bytes of a lane -/

theorem byteOf_toNat (x j : Nat) : (byteOf x j).toNat = x / 256 ^ j % 256 := by
  rw [byteOf, BitVec.toNat_ofNat]

/-- Byte `j` of a lane in address order is byte `k*w + j` of the line, counted from the end that is least significant
under the byte order (20_memory.md R53). -/
theorem laneOf_byte (e : Endian) {w : Nat} (k : Nat) (v : Line) {j : Nat} (hj : j < w) :
    laneOf e w v k / 256 ^ (bytePos e w j) % 256 = (lineByte v (k * w + j)).toNat := by
  rw [← byteOf_toNat, laneOf, byteOf_gather _ (bytePos_lt e hj), bytePos_bytePos e hj]

theorem bytePos_eq_ite (e : Endian) (w j : Nat) : bytePos e w j = if e = .little then j else w - 1 - j := by
  cases e <;> rfl

theorem LaneType.bytes_mem (t : LaneType) : t.bytes ∈ [1, 2, 4, 8] := by
  rcases t with ⟨_ | _ | _ | _, _⟩ | _ <;> simp [LaneType.bytes]

/-- The scalar lane is the lane of `addr mod 32` (10_state.md R29, R30). -/
theorem State.sdata_eq_laneOf (s : State) (i : Reg) : s.sdata i =
    laneOf s.params.endian (s.type i).bytes (s.dlar i).data ((s.dlar i).addr.toNat % 32 / (s.type i).bytes) := rfl

theorem laneOf_one (e : Endian) (v : Line) (k : Nat) : laneOf e 1 v k = (lineByte v k).toNat := by
  cases e <;> simp [laneOf, gather, bytePos]

theorem laneOf_two_big (v : Line) (k : Nat) :
    laneOf .big 2 v k = 256 * laneOf .big 1 v (2 * k) + laneOf .big 1 v (2 * k + 1) := by
  simp only [laneOf_one]
  simp only [laneOf, gather, bytePos, Nat.mul_comm k 2]
  norm_num
  omega

theorem laneOf_four_little (v : Line) (k : Nat) : laneOf .little 4 v k =
    laneOf .little 1 v (4 * k) + 256 * laneOf .little 1 v (4 * k + 1) + 65536 * laneOf .little 1 v (4 * k + 2) +
      16777216 * laneOf .little 1 v (4 * k + 3) := by
  simp only [laneOf_one]
  simp only [laneOf, gather, bytePos, Nat.mul_comm k 4]
  norm_num
  omega

theorem laneOf_four_big (v : Line) (k : Nat) : laneOf .big 4 v k =
    16777216 * laneOf .big 1 v (4 * k) + 65536 * laneOf .big 1 v (4 * k + 1) + 256 * laneOf .big 1 v (4 * k + 2) +
      laneOf .big 1 v (4 * k + 3) := by
  simp only [laneOf_one]
  simp only [laneOf, gather, bytePos, Nat.mul_comm k 4]
  norm_num
  omega

/-- Settles O30: a lane is gathered from its bytes in the machine's order, and setting it writes those bytes alone. -/
theorem lanesLieInAddressOrder : Obligations.LanesLieInAddressOrder := by
  simp only [Obligations.LanesLieInAddressOrder, ← bytePos_eq_ite]
  refine ⟨fun m L j => m.lineByte_readLine L, fun e w k v _ _ => ⟨laneOf_lt e w v k, fun j => laneOf_byte e k v⟩, ?_,
    ?_, fun k v _ => ⟨laneOf_four_little v k, laneOf_four_big v k⟩, fun k v _ => laneOf_two_big v k⟩
  · rintro s i w k rfl rfl
    rw [State.sdata_eq_laneOf]
    exact ⟨(s.type i).bytes_mem, (s.dlar i).idx_lt, laneOf_lt .., fun j => laneOf_byte _ _ _⟩
  · intro e w k r v _ hk
    refine ⟨?_, fun m => laneOf_setLane_other e v r, fun j hj hne => ?_⟩
    · rw [laneOf_setLane_same e v r hk, pow_mul]
      rfl
    · rw [lineByte_setLane _ _ _ _ _ hj, if_neg hne]

/-! ## The lane width -/

theorem DataLar.type_of_not_float16 {d : DataLar} (h : d.isFloat16 = false) :
    d.type = .int (intSize d.typeOfInt) d.unsgnOrSgn := by
  rw [DataLar.type, h, if_neg Bool.false_ne_true]

/-- Settles O60: the four values of the field, one by one. -/
theorem typeOfIntGivesTheLaneWidth : Obligations.TypeOfIntGivesTheLaneWidth := by
  intro d hd
  rw [DataLar.type_of_not_float16 hd]
  refine ⟨fun h => ?_, fun h => ?_, fun h => ?_, fun h => ?_⟩ <;> rw [h] <;> rfl

/-! ## The BFloat16 format -/

theorem bf16Exp_toNat (v : BitVec 16) : (bf16Exp v).toNat = v.toNat / 2 ^ 7 % 2 ^ 8 := by
  rw [bf16Exp, BitVec.extractLsb'_toNat, Nat.shiftRight_eq_div_pow]

theorem bf16Mant_toNat (v : BitVec 16) : (bf16Mant v).toNat = v.toNat % 2 ^ 7 := by
  rw [bf16Mant, BitVec.extractLsb'_toNat, Nat.shiftRight_zero]

theorem bf16Sign_toNat (v : BitVec 16) : (bf16Sign v).toNat = v.toNat / 2 ^ 15 := by
  have hv := v.isLt
  have hbit : (v.extractLsb' 15 1 = 1) ↔ v.toNat / 2 ^ 15 = 1 := by
    rw [← BitVec.toNat_inj, BitVec.extractLsb'_toNat, Nat.shiftRight_eq_div_pow]
    change _ = 1 ↔ _
    omega
  by_cases h : v.toNat / 2 ^ 15 = 1
  · rw [bf16Sign, hbit.mpr h, h]
    rfl
  · rw [bf16Sign, beq_false_of_ne (mt hbit.mp h), Bool.toNat_false]
    omega

theorem bf16Pack_toNat (n : Bool) (e : BitVec 8) (m : BitVec 7) :
    (bf16Pack n e m).toNat = n.toNat * 2 ^ 15 + e.toNat * 2 ^ 7 + m.toNat := by
  rw [bf16Pack, toNat_append_eq_add, toNat_append_eq_add, BitVec.toNat_ofBool]
  omega

theorem bf16Sign_eq_getLsbD (v : BitVec 16) : bf16Sign v = v.getLsbD 15 := by
  have hv := v.isLt
  have hs := bf16Sign_toNat v
  rw [BitVec.getLsbD, Nat.testBit_eq_decide_div_mod_eq, ← hs]
  cases bf16Sign v <;> rfl

/-- The three fields make up the pattern (10_state.md R23). -/
theorem bf16Pack_fields (v : BitVec 16) : bf16Pack (bf16Sign v) (bf16Exp v) (bf16Mant v) = v := by
  apply BitVec.eq_of_toNat_eq
  rw [bf16Pack_toNat, bf16Sign_toNat, bf16Exp_toNat, bf16Mant_toNat]
  omega

section Pack

variable (n : Bool) (e : BitVec 8) (m : BitVec 7)

theorem bf16Sign_pack : bf16Sign (bf16Pack n e m) = n := by
  have h := bf16Sign_toNat (bf16Pack n e m)
  have he := e.isLt
  have hm := m.isLt
  rw [bf16Pack_toNat] at h
  have hn : (bf16Sign (bf16Pack n e m)).toNat = n.toNat := by omega
  exact (Bool.injective_iff (f := Bool.toNat)).mpr (by decide) hn

theorem bf16Exp_pack : bf16Exp (bf16Pack n e m) = e := by
  apply BitVec.eq_of_toNat_eq
  have he := e.isLt
  have hm := m.isLt
  rw [bf16Exp_toNat, bf16Pack_toNat]
  omega

theorem bf16Mant_pack : bf16Mant (bf16Pack n e m) = m := by
  apply BitVec.eq_of_toNat_eq
  have hm := m.isLt
  rw [bf16Mant_toNat, bf16Pack_toNat]
  omega

end Pack

/-- The value without its sign of the pattern whose exponent and mantissa, together, are the number `p`
(10_state.md R23). -/
def bf16Magnitude (p : Nat) : ℚ := 2 ^ ((p / 2 ^ 7 : Nat) - bf16Bias : ℤ) * (1 + ((p % 2 ^ 7 : Nat) : ℚ) / 128)

/-- The next greater pattern has the greater value: a greater mantissa, or the next exponent with mantissa 0. -/
theorem bf16Magnitude_lt_succ (p : Nat) : bf16Magnitude p < bf16Magnitude (p + 1) := by
  have hpos : (0 : ℚ) < 2 ^ ((p / 2 ^ 7 : Nat) - bf16Bias : ℤ) := by positivity
  by_cases h : p % 2 ^ 7 = 127
  · have he : (p + 1) / 2 ^ 7 = p / 2 ^ 7 + 1 := by omega
    have hm : (p + 1) % 2 ^ 7 = 0 := by omega
    have hexp : ((p / 2 ^ 7 + 1 : Nat) - bf16Bias : ℤ) = ((p / 2 ^ 7 : Nat) - bf16Bias : ℤ) + 1 := by push_cast; ring
    rw [bf16Magnitude, bf16Magnitude, he, hm, h, hexp, zpow_add_one₀ two_ne_zero, mul_assoc]
    exact mul_lt_mul_of_pos_left (by norm_num) hpos
  · have he : (p + 1) / 2 ^ 7 = p / 2 ^ 7 := by omega
    have hm : (p + 1) % 2 ^ 7 = p % 2 ^ 7 + 1 := by omega
    rw [bf16Magnitude, bf16Magnitude, he, hm]
    refine mul_lt_mul_of_pos_left ?_ hpos
    push_cast
    linarith

theorem bf16Magnitude_strictMono : StrictMono bf16Magnitude := strictMono_nat_of_lt_succ bf16Magnitude_lt_succ

/-- The value of a pattern that has one is its magnitude with its sign. -/
theorem bf16Value_eq_some {v : BitVec 16} {q : ℚ} (h : bf16Value v = some q) :
    q = (if bf16Sign v then -1 else 1) * bf16Magnitude (v.toNat % 2 ^ 15) := by
  rw [bf16Value, Option.ite_none_left_eq_some, Option.some.injEq] at h
  obtain ⟨-, rfl⟩ := h
  have he : v.toNat % 2 ^ 15 / 2 ^ 7 = (bf16Exp v).toNat := by
    rw [bf16Exp_toNat]
    omega
  have hm : v.toNat % 2 ^ 15 % 2 ^ 7 = (bf16Mant v).toNat := by
    rw [bf16Mant_toNat]
    omega
  rw [bf16Magnitude, he, hm, mul_assoc]

theorem bf16Value_of_positive {v : BitVec 16} {q : ℚ} (h : bf16Value v = some q) (hs : bf16Sign v = false) :
    q = bf16Magnitude v.toNat := by
  have hlt : v.toNat < 2 ^ 15 := by
    have hn := bf16Sign_toNat v
    rw [hs, Bool.toNat_false] at hn
    omega
  rw [bf16Value_eq_some h, hs, Nat.mod_eq_of_lt hlt, if_neg Bool.false_ne_true, one_mul]

/-- Bit 15 is the sign alone (10_state.md R23). -/
theorem bf16_fields_of_negated (v : BitVec 16) : bf16Sign (v ^^^ 0x8000) = !bf16Sign v ∧
    bf16Exp (v ^^^ 0x8000) = bf16Exp v ∧ bf16Mant (v ^^^ 0x8000) = bf16Mant v := by
  refine ⟨?_, ?_, ?_⟩
  · rw [bf16Sign_eq_getLsbD, bf16Sign_eq_getLsbD, BitVec.getLsbD_xor]
    exact Bool.xor_true _
  · rw [bf16Exp, BitVec.extractLsb'_xor]
    exact BitVec.xor_zero
  · rw [bf16Mant, BitVec.extractLsb'_xor]
    exact BitVec.xor_zero

theorem bf16Value_negated {v : BitVec 16} {q : ℚ} (h : bf16Value v = some q) :
    bf16Value (v ^^^ 0x8000) = some (-q) := by
  obtain ⟨hs, he, hm⟩ := bf16_fields_of_negated v
  rw [bf16Value, Option.ite_none_left_eq_some, Option.some.injEq] at h
  obtain ⟨hn, rfl⟩ := h
  rw [bf16Value, he, hm, hs, if_neg hn]
  cases bf16Sign v <;> simp

theorem bf16Value_pack (n : Bool) (e : BitVec 8) (m : BitVec 7) (h0 : 0 < e.toNat) (h1 : e.toNat < 255) :
    bf16Value (bf16Pack n e m) =
      some ((-1) ^ n.toNat * 2 ^ ((e.toNat : ℤ) - 127) * (1 + (m.toNat : ℚ) / 128)) := by
  have hn : ¬(e = 0 ∨ e = 255) := by
    rintro (rfl | rfl)
    · exact absurd h0 (by decide)
    · exact absurd h1 (by decide)
  rw [bf16Value, bf16Exp_pack, bf16Mant_pack, bf16Sign_pack, if_neg hn, bf16Bias]
  cases n <;> simp

/-- Settles O51: the fields in numbers, and the magnitude as a strictly rising function of the pattern. -/
theorem bf16FormatHasSignExponentMantissa : Obligations.Bf16FormatHasSignExponentMantissa := by
  refine ⟨fun v => ⟨bf16Sign_eq_getLsbD v, bf16Exp_toNat v, bf16Mant_toNat v, bf16Pack_fields v⟩,
    fun n e m => ⟨bf16Sign_pack n e m, bf16Exp_pack n e m, bf16Mant_pack n e m, bf16Value_pack n e m⟩,
    fun _ _ => bf16Value_negated, fun v u q r hq hr hv hu => ?_⟩
  rw [bf16Value_of_positive hq hv, bf16Value_of_positive hr hu]
  exact bf16Magnitude_strictMono.lt_iff_lt

end Sys2Proof.Machine
end

section
/-!
The sums of the ALU: `adds` and `subs`, and the form `dDest, pc, simm12` (40_alu.md R120, R122, R144, R145) (the
statements O33 and O43).
-/

namespace Sys2Proof

/-! ## Words of format ALU in numbers -/

theorem aluWord_toNat (t : BitVec 1) (o : BitVec 4) (a b c : Reg) (i : Int) : (aluWord t o a b c i).toNat =
    t.toNat * 2 ^ 28 + a.val * 2 ^ 24 + b.val * 2 ^ 20 + c.val * 2 ^ 16 + o.toNat * 2 ^ 12 +
      (BitVec.ofInt 12 i).toNat := by
  have hreg : ∀ r : Reg, (regBits r).toNat = r.val := fun _ => rfl
  simp only [aluWord, toNat_append_eq_add, hreg]
  rw [BitVec.toNat_ofNat]
  omega

namespace Machine

/-! ## adds and subs -/

/-- A scalar instruction that draws no free value completes and writes the result of its operation. -/
theorem scalarBinary_writes_drawingNone {op : LaneType → Nat → Nat → Nat} {a b c : Reg} {s : State} (ha : a ≠ 0)
    (hu : s.untaggedOperand [a, b, c] = none) {r : Nat}
    (hr : op (s.type a) (s.castScalar a b) (s.castScalar a c) = r)
    (hlt : op (s.type a) (s.castScalar a b) (s.castScalar a c) < 2 ^ (s.type a).width) :
    ∃ t, scalarBinary id (castBoth op) a b c s = .next t ∧ ScalarWritten s t a 0 r := by
  have hw := scalarBinary_writes (view := id) (op := castBoth op) ha hu 0 hr hlt
  rwa [State.takeDraws_zero] at hw

theorem State.castScalar_lt (s : State) (a b : Reg) : s.castScalar a b < 2 ^ (s.type a).width :=
  cast_lt (s.sdata_lt b)

/-- Settles O33: both are the scalar scheme, with the lane functions in the words of the rules. -/
theorem addsAndSubsResult : Obligations.AddsAndSubsResult := by
  refine ⟨fun a b c => ⟨?_, ?_⟩, fun s a b c hu => ⟨?_, fun ha => ⟨?_, ?_⟩⟩⟩
  · simp [encode, aluWord_toNat]
  · simp [encode, aluWord_toNat]
    omega
  · rintro rfl
    exact ⟨scalarBinary_next hu 0, scalarBinary_next hu 0⟩
  · exact scalarBinary_writes_drawingNone ha hu (addLane_eq ..) (addLane_lt ..)
  · exact scalarBinary_writes_drawingNone ha hu (subLane_eq _ _ _ (s.castScalar_lt a c)) (subLane_lt ..)

/-! ## dDest, pc, simm12 -/

theorem State.pcv_toNat (s : State) : (s.pcv.toNat : Int) =
    ((s.pc.toNat : Int) + if s.params.pcrelBase = .own then 0 else 4) % 2 ^ 64 := by
  rw [State.pcv, BitVec.toNat_add, Int.natCast_mod, Int.natCast_add]
  cases s.params.pcrelBase <;> rfl

/-- The sum of R144 is taken modulo 2^64, whichever address `pc` reads as. -/
theorem State.pcPlus_eq {s : State} {simm : Int} {v : Nat}
    (hv : (v : Int) = ((s.pc.toNat : Int) + (if s.params.pcrelBase = .own then 0 else 4) + simm) % 2 ^ 64) :
    (s.pcPlus simm).toNat = v := by
  have h := s.pcPlus_toNat simm
  rw [State.pcv_toNat, Int.emod_add_emod, ← hv] at h
  exact Int.natCast_inj.mp h

theorem pcLane_eq (td : LaneType) (v : Word) : pcLane td v =
    match td with
    | .int _ _ => v.toNat % 2 ^ td.width
    | .f16 => (Config.bf16OfInt v.toNat).toNat := by
  cases td with
  | int z g => exact trunc_natCast _ v.toNat
  | f16 => rfl

theorem execAddsPc_writes {s : State} {a : Reg} {simm : Int} (ha : a ≠ 0) (hu : s.untaggedOperand [a] = none) {r : Nat}
    (hr : pcLane (s.type a) (s.pcPlus simm) = r) :
    ∃ t, exec (.addsPc a simm) s = .next t ∧ ScalarWritten s t a 0 r := by
  subst hr
  have hw := scalarWritten_writeScalar s ha 0 (pcLane_lt (s.type a) (s.pcPlus simm))
  rw [State.takeDraws_zero] at hw
  exact ⟨_, State.checked_of_none hu _, hw⟩

theorem execAddvPc_writes {s : State} {a : Reg} {simm : Int} (ha : a ≠ 0) (hu : s.untaggedOperand [a] = none)
    {r : Nat → Nat} (hr : ∀ k, pcLane (s.type a) (s.pcPlus simm) = r k) :
    ∃ t, exec (.addvPc a simm) s = .next t ∧ LanesWritten s t a 0 r := by
  obtain rfl : (fun _ => pcLane (s.type a) (s.pcPlus simm)) = r := funext hr
  have hw := lanesWritten_writeLanes s ha 0 fun _ => pcLane_lt (s.type a) (s.pcPlus simm)
  rw [State.takeDraws_zero] at hw
  exact ⟨_, State.checked_of_none hu _, hw⟩

/-- Settles O43: one value, written to the scalar lane or to every lane. -/
theorem addPcResult : Obligations.AddPcResult := by
  intro s a simm v ha hu hv
  obtain rfl := State.pcPlus_eq hv
  exact ⟨execAddsPc_writes ha hu (pcLane_eq ..), execAddvPc_writes ha hu fun _ => pcLane_eq ..⟩

end Machine
end Sys2Proof
end

section
/-!
What a load and a store leave of every Data LAR and of memory (42_load.md R172, R173; 43_store.md R190) (the statements
O53 and O56).
-/

namespace Sys2Proof.Machine

/-- `t` has the `pc`, the parameters, the draws and the schedule of `s`. -/
structure SameControl (s t : State) : Prop where
  pc : t.pc = s.pc
  params : t.params = s.params
  draws : t.draws = s.draws
  schedule : t.schedule = s.schedule

theorem SameControl.refl (s : State) : SameControl s s := ⟨rfl, rfl, rfl, rfl⟩

theorem SameControl.trans {s t u : State} (h : SameControl s t) (h' : SameControl t u) : SameControl s u :=
  ⟨h'.pc.trans h.pc, h'.params.trans h.params, h'.draws.trans h.draws, h'.schedule.trans h.schedule⟩

theorem SameControl.withDlars (s : State) (f : Reg → DataLar) : SameControl s (s.withDlars f) :=
  ⟨State.withDlars_pc .., State.withDlars_params .., State.withDlars_draws .., State.withDlars_schedule ..⟩

/-! ## Release -/

/-- `r` is `s` after `Release(a)` (20_memory.md R61). -/
structure Released (s r : State) (a : Reg) : Prop where
  control : SameControl s r
  memory : ReleasedMemory s r a
  dlars : ∀ i, r.dlar i =
    if s.owesWriteBack a ∧ s.holds (s.dlar a).base i then { s.dlar i with dirty := false } else s.dlar i

theorem State.release_released {s : State} {a : Reg} (h : s.owesWriteBack a = true → s.backed (s.dlar a).base = true) :
    ∃ r, s.release a = .ok r ∧ Released s r a := by
  obtain ⟨r, hr, hmem, hdlars, hpc, hparams, hdraws, hsched⟩ := State.release_ok h
  exact ⟨r, hr, ⟨hpc, hparams, hdraws, hsched⟩, hmem, hdlars⟩

theorem State.Coherent.release {s r : State} {a : Reg} (hc : s.Coherent) (h : s.release a = .ok r) : r.Coherent := by
  rcases s.release_cases a with ⟨-, hr⟩ | ⟨-, -, -, hr⟩ | ⟨-, -, -, hr⟩ <;> cases hr.symm.trans h
  · exact hc
  · exact hc.writeBack _ _

/-- What `a` owes is not line `L` where `a` does not hold it. -/
theorem State.base_ne_of_owesWriteBack {s : State} {a : Reg} {L : Nat} (hL : s.holds L a = false)
    (ho : s.owesWriteBack a = true) : (s.dlar a).base ≠ L := by
  intro hb
  rw [State.owesWriteBack, Bool.and_eq_true] at ho
  rw [State.holds_iff.mpr ⟨ho.1, hb⟩] at hL
  cases hL

section Release

variable {s r : State} {a : Reg} (h : Released s r a)
include h

theorem Released.data (i : Reg) : (r.dlar i).data = (s.dlar i).data := by
  rw [h.dlars]
  split <;> rfl

theorem Released.holds (L : Nat) (i : Reg) : r.holds L i = s.holds L i := by
  rw [State.holds, State.holds, h.dlars]
  split <;> rfl

/-- The holders of a line that `a` does not hold are left alone. -/
theorem Released.dlar_of_holds {L : Nat} (hL : s.holds L a = false) {i : Reg} (hi : s.holds L i = true) :
    r.dlar i = s.dlar i := by
  rw [h.dlars, if_neg]
  rintro ⟨ho, hb⟩
  exact State.base_ne_of_owesWriteBack hL ho ((State.holds_iff.mp hb).2.symm.trans (State.holds_iff.mp hi).2)

/-- A line that `a` does not hold stays in memory as it is. -/
theorem Released.readLine {L : Nat} (hL : s.holds L a = false) : r.mem.readLine L = s.mem.readLine L := by
  refine lineOfBytes_congr fun j hj => ?_
  rw [h.memory, if_neg]
  rintro ⟨ho, hb⟩
  exact State.base_ne_of_owesWriteBack hL ho (by omega)

end Release

/-! ## Loads -/

/-- `u` is `s` with line `L` brought into `a`, which is still to get its new address (42_load.md R172). -/
structure Acquired (s u : State) (a : Reg) (L : Nat) : Prop where
  control : SameControl s u
  held : s.holds L a = true → u = s
  shared : s.holds L a = false → ∀ h, s.holds L h = true →
    (u.dlar a).data = (s.dlar h).data ∧ (u.dlar a).dirty = (s.dlar h).dirty
  read : (∀ i, s.holds L i = false) → (u.dlar a).data = s.mem.readLine L ∧ (u.dlar a).dirty = false
  released : s.holds L a = false → ∃ r, Released s r a ∧ u.mem = r.mem ∧ ∀ i, i ≠ a → u.dlar i = r.dlar i

/-- A line that has a holder or is backed can be brought into a Data LAR: from any of its holders, which are alike, or
from memory. -/
theorem State.fillFrom_ok {s : State} (a : Reg) {L : Nat} (hc : s.Coherent)
    (hb : (∀ i, s.holds L i = false) → s.backed L = true) : ∃ d, s.fillFrom a L = .ok (s.setDlar a d) ∧
      (∀ h, s.holds L h = true → d.data = (s.dlar h).data ∧ d.dirty = (s.dlar h).dirty) ∧
      ((∀ i, s.holds L i = false) → d.data = s.mem.readLine L ∧ d.dirty = false) := by
  rcases s.fillFrom_cases a L with ⟨k, hk, hf⟩ | ⟨hn, -, hf⟩ | ⟨hn, hun, -⟩
  · have hkL := State.holds_of_holder hk
    obtain ⟨hkt, hkb⟩ := State.holds_iff.mp hkL
    refine ⟨_, hf, fun h hh => ?_, fun hnone => ?_⟩
    · obtain ⟨hht, hhb⟩ := State.holds_iff.mp hh
      exact hc k h hkt hht (hkb.trans hhb.symm)
    · cases (hnone k).symm.trans hkL
  · refine ⟨_, hf, fun h hh => ?_, fun _ => ⟨rfl, rfl⟩⟩
    cases (State.holder_none.mp hn h).symm.trans hh
  · cases (hb (State.holder_none.mp hn)).symm.trans hun

theorem State.acquire_acquired {s : State} {a : Reg} (ha : a ≠ 0) {L : Nat} (hc : s.Coherent)
    (howed : s.holds L a = false → s.owesWriteBack a = true → s.backed (s.dlar a).base = true)
    (hb : (∀ i, s.holds L i = false) → s.backed L = true) : ∃ u, s.acquire a L = .ok u ∧ Acquired s u a L := by
  cases hL : s.holds L a with
  | true =>
    refine ⟨s, by rw [State.acquire, if_pos hL], .refl s, fun _ => rfl, fun h => ?_, fun h => ?_, fun h => ?_⟩
    · cases hL.symm.trans h
    · cases hL.symm.trans (h a)
    · cases hL.symm.trans h
  | false =>
    obtain ⟨r, hr, hrel⟩ := State.release_released (howed hL)
    have hrb : (∀ i, r.holds L i = false) → r.backed L = true := fun hnone => by
      rw [State.backed, hrel.control.params]
      exact hb fun i => (hrel.holds L i).symm.trans (hnone i)
    obtain ⟨d, hf, hshared, hread⟩ := State.fillFrom_ok a (hc.release hr) hrb
    have hda : (r.setDlar a d).dlar a = d := State.setDlar_dlar_same r ha d
    refine ⟨r.setDlar a d, ?_, ?_, fun h => ?_, fun _ h hh => ?_, fun hnone => ?_, fun _ =>
      ⟨r, hrel, State.setDlar_mem .., fun i hi => State.setDlar_dlar_other r a d hi⟩⟩
    · simp only [State.acquire, hL, Bool.false_eq_true, if_false, hr, hf]
    · exact hrel.control.trans (.withDlars ..)
    · cases hL.symm.trans h
    · rw [hda, ← hrel.dlar_of_holds hL hh]
      exact hshared h ((hrel.holds L h).trans hh)
    · rw [hda, ← hrel.readLine hL]
      exact hread fun i => (hrel.holds L i).trans (hnone i)

theorem exec_load {p : (Reg → Reg → Reg → Int → Instr) × LaneType} (hp : p ∈ loadInstrs) (a b c : Reg) (simm : Int)
    (s : State) : exec (p.1 a b c simm) s = loadLar p.2 a b c simm s := by
  simp only [loadInstrs, List.mem_cons, List.not_mem_nil, or_false] at hp
  rcases hp with rfl | rfl | rfl | rfl | rfl | rfl | rfl | rfl | rfl <;> rfl

theorem loadLar_next {ty : LaneType} {a b c : Reg} {simm : Int} {s u : State} (ha : a ≠ 0)
    (hu : s.untaggedOperand [b, c] = none) (h : s.acquire a (lineNumber (s.effectiveAddress b c simm)) = .ok u) :
    loadLar ty a b c simm s = .next (u.pointAt a (s.effectiveAddress b c simm) ty).advance := by
  simp only [loadLar, State.checked_of_none hu, if_neg ha, h]

/-- Settles O53: a load is an `acquire` and then a `pointAt`; the first moves the lines, the second writes `dA`
alone. -/
theorem loadEffect : Obligations.LoadEffect := by
  intro p hp s a b c simm ea ha hu hea hc howed hb
  obtain ⟨u, hacq, hA⟩ := State.acquire_acquired ha hc howed hb
  rw [hea] at hacq
  refine ⟨_, (exec_load hp ..).trans (loadLar_next ha hu hacq), ?_⟩
  rw [← hea]
  have hdata := State.pointAt_data u ha ea p.2
  have hdirty := State.pointAt_dirty u ha ea p.2
  simp only [State.advance_dlar, State.advance_type, State.advance_pc, State.advance_params, State.advance_draws,
    State.advance_schedule, State.advance_mem, ReleasedMemory, State.pointAt_pc, State.pointAt_params,
    State.pointAt_draws, State.pointAt_schedule, State.pointAt_mem, hdata, hdirty]
  refine ⟨State.pointAt_addr u ha .., State.pointAt_type u ha .., State.pointAt_tagFields u ha ..,
    State.pointAt_tagged u ha .., by rw [hA.control.pc], hA.control.params, hA.control.draws, hA.control.schedule,
    fun hL => ?_, fun hL => ⟨hA.shared hL, fun hnone => ?_, fun i hi => ?_, fun x => ?_⟩⟩
  · rw [hA.held hL]
    exact ⟨rfl, rfl, fun i hi => State.pointAt_dlar_other s hi .., fun _ => rfl⟩
  · obtain ⟨hline, hclean⟩ := hA.read hnone
    refine ⟨fun j hj => ?_, hclean⟩
    rw [hline, Memory.lineByte_readLine _ _ hj]
  · obtain ⟨r, hrel, -, hothers⟩ := hA.released hL
    rw [State.pointAt_dlar_other u hi, hothers i hi]
    exact hrel.dlars i
  · obtain ⟨r, hrel, hmem, -⟩ := hA.released hL
    rw [hmem]
    exact hrel.memory x

/-! ## Stores -/

/-- `u` is `s` with the data of `a` made that of line `L`, before `a` has its new address (43_store.md R190). -/
structure Staged (s u : State) (a : Reg) (L : Nat) : Prop where
  control : SameControl s u
  data : (u.dlar a).data = (s.dlar a).data
  held : s.holds L a = true → u.mem = s.mem ∧
    ∀ i, u.dlar i = if s.holds L i then { s.dlar i with dirty := true } else s.dlar i
  moved : s.holds L a = false → ReleasedMemory s u a ∧ ∀ i, u.dlar i =
    if s.holds L i then { s.dlar i with data := (s.dlar a).data, dirty := true }
    else if s.owesWriteBack a ∧ s.holds (s.dlar a).base i then { s.dlar i with dirty := false }
    else s.dlar i

theorem Staged.of_holds {s : State} {a : Reg} {L : Nat} (hL : s.holds L a = true) :
    Staged s (s.dirtyHolders L) a L where
  control := .withDlars ..
  data := by
    rw [State.dirtyHolders_dlar, if_pos hL]
  held _ := ⟨State.dirtyHolders_mem .., State.dirtyHolders_dlar s L⟩
  moved h := by cases hL.symm.trans h

theorem Staged.of_released {s r : State} {a : Reg} {L : Nat} (hL : s.holds L a = false) (h : Released s r a) :
    Staged s (r.giveHolders a L) a L where
  control := h.control.trans (.withDlars ..)
  data := by
    rw [State.giveHolders_dlar, h.holds, if_neg (by simp [hL]), h.data]
  held hh := by cases hL.symm.trans hh
  moved _ := by
    refine ⟨fun x => ?_, fun i => ?_⟩
    · rw [State.giveHolders_mem]
      exact h.memory x
    · rw [State.giveHolders_dlar, h.holds, h.data]
      split
      · next hi => rw [h.dlar_of_holds hL hi]
      · exact h.dlars i

theorem State.stage_staged {s : State} {a : Reg} {L : Nat}
    (howed : s.holds L a = false → s.owesWriteBack a = true → s.backed (s.dlar a).base = true) :
    ∃ u, s.stage a L = .ok u ∧ Staged s u a L := by
  cases hL : s.holds L a with
  | true => exact ⟨_, by rw [State.stage, if_pos hL], .of_holds hL⟩
  | false =>
    obtain ⟨r, hr, hrel⟩ := State.release_released (howed hL)
    exact ⟨_, by simp only [State.stage, hL, Bool.false_eq_true, if_false, hr], .of_released hL hrel⟩

theorem exec_store {p : (Reg → Reg → Reg → Int → Instr) × LaneType} (hp : p ∈ storeInstrs) (a b c : Reg) (simm : Int)
    (s : State) : exec (p.1 a b c simm) s = storeLar p.2 a b c simm s := by
  simp only [storeInstrs, List.mem_cons, List.not_mem_nil, or_false] at hp
  rcases hp with rfl | rfl | rfl | rfl | rfl | rfl | rfl | rfl | rfl <;> rfl

theorem storeLar_next {ty : LaneType} {a b c : Reg} {simm : Int} {s u : State} (ha : a ≠ 0)
    (hu : s.untaggedOperand [a, b, c] = none) (h : s.stage a (lineNumber (s.effectiveAddress b c simm)) = .ok u) :
    storeLar ty a b c simm s = .next (u.relabel a (s.effectiveAddress b c simm) ty).advance := by
  simp only [storeLar, State.checked_of_none hu, if_neg ha, h]

/-- Settles O56: a store is a `stage` and then a `relabel`; the first moves the lines, the second writes `dA`
alone. -/
theorem storeEffect : Obligations.StoreEffect := by
  intro p hp s a b c simm ea ha hu hea howed
  obtain ⟨u, hst, hS⟩ := State.stage_staged howed
  rw [hea] at hst
  refine ⟨_, (exec_store hp ..).trans (storeLar_next ha hu hst), ?_⟩
  rw [← hea]
  simp only [State.advance_dlar, State.advance_type, State.advance_pc, State.advance_params, State.advance_draws,
    State.advance_schedule, State.advance_mem, ReleasedMemory, State.relabel_pc, State.relabel_params,
    State.relabel_draws, State.relabel_schedule, State.relabel_mem]
  refine ⟨(State.relabel_data u ha ..).trans hS.data, State.relabel_addr u ha .., State.relabel_type u ha ..,
    State.relabel_tagFields u ha .., State.relabel_dirty u ha .., State.relabel_tagged u ha .., by rw [hS.control.pc],
    hS.control.params, hS.control.draws, hS.control.schedule, fun hL => ?_, fun hL => ?_⟩
  · obtain ⟨hmem, hdlars⟩ := hS.held hL
    refine ⟨fun i hi => ?_, fun x => by rw [hmem]⟩
    rw [State.relabel_dlar_other u hi]
    exact hdlars i
  · obtain ⟨hmem, hdlars⟩ := hS.moved hL
    refine ⟨fun i hi => ?_, hmem⟩
    rw [State.relabel_dlar_other u hi]
    exact hdlars i

end Sys2Proof.Machine
end

section
/-!
The view of a line, what an ALU instruction writes of it, and where an instruction changes memory (20_memory.md R57,
R60, R61, R63) (the statements O24 and O49).
-/

namespace Sys2Proof.Machine

/-! ## The view of a line -/

/-- The view of a line with a holder is what all its holders have. -/
theorem State.viewLine_eq_of_holders {s : State} {L : Nat} {a : Reg} {v : Line} (ha : s.holds L a = true)
    (h : ∀ i, s.holds L i = true → (s.dlar i).data = v) : s.viewLine L = v := by
  unfold State.viewLine
  cases hk : s.holder L with
  | some k => exact h k (State.holds_of_holder hk)
  | none => cases (State.holder_none.mp hk a).symm.trans ha

theorem State.holder_congr {s t : State} {L : Nat} (h : ∀ i, t.holds L i = s.holds L i) : t.holder L = s.holder L := by
  rw [State.holder, State.holder, funext h]

/-- The view of a line depends on its holders, their data and its memory alone (20_memory.md R63). -/
theorem State.viewLine_congr {s t : State} {L : Nat} (hm : t.mem.readLine L = s.mem.readLine L)
    (hh : ∀ i, t.holds L i = s.holds L i) (hd : ∀ i, s.holds L i = true → (t.dlar i).data = (s.dlar i).data) :
    t.viewLine L = s.viewLine L := by
  unfold State.viewLine
  rw [State.holder_congr hh]
  split
  · next k hk => exact hd k (State.holds_of_holder hk)
  · exact hm

/-! ## Coherence, line by line -/

theorem State.Coherent.of_holds {s : State} (h : ∀ L i j, s.holds L i = true → s.holds L j = true →
    (s.dlar i).data = (s.dlar j).data ∧ (s.dlar i).dirty = (s.dlar j).dirty) : s.Coherent :=
  fun i j hi hj hb => h _ i j (State.holds_iff.mpr ⟨hi, hb⟩) (State.holds_iff.mpr ⟨hj, rfl⟩)

theorem State.Coherent.holders {s : State} (hc : s.Coherent) {L : Nat} {i j : Reg} (hi : s.holds L i = true)
    (hj : s.holds L j = true) : (s.dlar i).data = (s.dlar j).data ∧ (s.dlar i).dirty = (s.dlar j).dirty := by
  obtain ⟨hti, hbi⟩ := State.holds_iff.mp hi
  obtain ⟨htj, hbj⟩ := State.holds_iff.mp hj
  exact hc i j hti htj (hbi.trans hbj.symm)

/-! ## Writing data -/

@[simp] theorem State.takeDraws_holds (s : State) (a : Reg) (n L : Nat) (i : Reg) :
    (s.takeDraws a n).holds L i = s.holds L i := by
  rw [State.holds, State.takeDraws_dlar, State.holds]

@[simp] theorem State.takeDraws_viewLine (s : State) (a : Reg) (n L : Nat) :
    (s.takeDraws a n).viewLine L = s.viewLine L := by
  unfold State.takeDraws
  split <;> rfl

/-- A holder of a line takes part in a write through `a` exactly where `a` holds that line too. -/
theorem State.aliases_of_holds {s : State} {L : Nat} {i : Reg} (hi : s.holds L i = true) (a : Reg) :
    s.aliases a i = s.holds L a := by
  obtain ⟨hti, hbi⟩ := State.holds_iff.mp hi
  cases ht : (s.dlar a).tagged with
  | true => simp [State.aliases_of_tagged ht, State.holds, ht, hti, hbi, eq_comm]
  | false =>
    have hia : i ≠ a := fun h => Bool.false_ne_true (ht.symm.trans (h ▸ hti))
    simp [State.aliases_of_untagged ht, State.holds, ht, hia]

theorem State.setData_dlar_of_holds {s : State} {L : Nat} {i : Reg} (hi : s.holds L i = true) {a : Reg} (ha : a ≠ 0)
    (v : Line) : (s.setData a v).dlar i =
      if s.holds L a then { s.dlar i with data := v, dirty := true } else s.dlar i := by
  rw [State.setData_dlar s ha, State.aliases_of_holds hi]

theorem State.setData_viewLine_held {s : State} {a : Reg} (ha : a ≠ 0) (v : Line) {L : Nat}
    (hL : s.holds L a = true) : (s.setData a v).viewLine L = v := by
  refine State.viewLine_eq_of_holders (a := a) (by rwa [State.setData_holds]) fun i hi => ?_
  rw [State.setData_holds] at hi
  rw [State.setData_dlar_of_holds hi ha, if_pos hL]

theorem State.setData_viewLine_other {s : State} {a : Reg} (ha : a ≠ 0) (v : Line) {L : Nat}
    (hL : s.holds L a = false) : (s.setData a v).viewLine L = s.viewLine L := by
  refine State.viewLine_congr (by rw [State.setData_mem]) (fun i => State.setData_holds ..) fun i hi => ?_
  rw [State.setData_dlar_of_holds hi ha, if_neg (by simp [hL])]

theorem State.Coherent.setData {s : State} (hc : s.Coherent) (a : Reg) (v : Line) : (s.setData a v).Coherent := by
  by_cases ha : a = 0
  · rwa [ha, State.setData_dzero]
  refine .of_holds fun L i j hi hj => ?_
  rw [State.setData_holds] at hi hj
  rw [State.setData_dlar_of_holds hi ha, State.setData_dlar_of_holds hj ha]
  by_cases hL : s.holds L a = true
  · rw [if_pos hL, if_pos hL]
    exact ⟨rfl, rfl⟩
  · rw [if_neg hL, if_neg hL]
    exact hc.holders hi hj

/-- An ALU instruction that completes has written the data of its destination. -/
theorem exec_writesDest {i : Instr} {s t : State} {a : Reg} (hd : i.dest = some a) (hr : i.repointed = none)
    (h : exec i s = .next t) : ∃ n v, t = ((s.takeDraws a n).setData a v).advance := by
  have drawingNone : (∃ v, t = (s.setData a v).advance) → ∃ n v, t = ((s.takeDraws a n).setData a v).advance :=
    fun ⟨v, hv⟩ => ⟨0, v, by rw [State.takeDraws_zero, hv]⟩
  cases i with
  | adds | subs | slts | muls | ands | orrs | xors | shls | shrs =>
    cases hd
    exact drawingNone (scalarBinary_setData h)
  | addv | subv | sltv | mulv | andv | orrv | xorv | shlv | shrv =>
    cases hd
    exact drawingNone (vectorBinary_setData h)
  | divs =>
    cases hd
    exact ⟨1, scalarBinary_setData h⟩
  | divv =>
    cases hd
    exact ⟨32, vectorBinary_setData h⟩
  | invs | nots =>
    cases hd
    exact drawingNone (scalarUnary_setData h)
  | invv | notv =>
    cases hd
    exact drawingNone (vectorUnary_setData h)
  | addsPc | addvPc =>
    cases hd
    cases State.checked_next h
    exact drawingNone ⟨_, rfl⟩
  | btru | bfal | jmp => cases hd
  | ldu8 | lds8 | ldu16 | lds16 | ldu32 | lds32 | ldu64 | lds64 | ldf16 => cases hr
  | stu8 | sts8 | stu16 | sts16 | stu32 | sts32 | stu64 | sts64 | stf16 => cases hr

/-- Settles O49: the write reaches exactly the holders of the destination's line, so that line's view is the data
written and every other view stays. -/
theorem aluWritesTheViewOfItsLine : Obligations.AluWritesTheViewOfItsLine := by
  intro i s t a _ hd ha hr h
  obtain ⟨n, v, rfl⟩ := exec_writesDest hd hr h
  refine ⟨fun ht => ?_, fun L hL => ?_⟩
  · have hself : (s.takeDraws a n).holds (s.dlar a).base a = true := by
      rw [State.takeDraws_holds]
      exact State.holds_iff.mpr ⟨ht, rfl⟩
    rw [State.advance_viewLine, State.setData_viewLine_held ha v hself, State.advance_dlar,
      State.setData_data_self _ ha]
  · have hnot : (s.takeDraws a n).holds L a = false := by
      rw [State.takeDraws_holds, State.holds]
      rcases hL with ht | hne
      · rw [ht, Bool.false_and]
      · rw [beq_false_of_ne hne.symm, Bool.and_false]
    rw [State.advance_viewLine, State.setData_viewLine_other ha v hnot, State.takeDraws_viewLine]

/-- Settles O24: of the four effects an instruction can have, only those of a load and a store touch memory, by the
release of the Data LAR they repoint. -/
theorem memoryChangesOnlyByRelease : Obligations.MemoryChangesOnlyByRelease := by
  intro i s t x h
  rcases (exec_effect h).mem with hm | ⟨a, hr, hm | ⟨ho, hb, hm⟩⟩
  · exact Or.inl (by rw [hm])
  · exact Or.inl (by rw [hm])
  · rw [hm, Memory.read_writeLine]
    split
    · next hx => exact Or.inr ⟨a, hr, ho, hx.symm, hx ▸ hb, rfl⟩
    · exact Or.inl rfl

end Sys2Proof.Machine
end

section
/-!
A load and a store as one write of `dA` after its release: what they do to the holders of every line and to every view
(20_memory.md R59, R63, R64; 42_load.md R172; 43_store.md R190) (the statements O19, O55 and O58).
-/

namespace Sys2Proof.Machine

/-! ## Giving a Data LAR its new record -/

theorem State.withDlars_congr (s : State) {f g : Reg → DataLar} (h : ∀ i, i ≠ 0 → f i = g i) :
    s.withDlars f = s.withDlars g := by
  have hfg : (fun i : Reg => if i = 0 then DataLar.zero else f i) = fun i => if i = 0 then DataLar.zero else g i :=
    funext fun i => ite_congr rfl (fun _ => rfl) (h i)
  rw [State.withDlars, State.withDlars, hfg]

theorem State.withDlars_withDlars (s : State) (f g : Reg → DataLar) : (s.withDlars f).withDlars g = s.withDlars g := by
  simp only [State.withDlars]

/-- Of two writes of one Data LAR the later stays. -/
theorem State.setDlar_setDlar (s : State) (a : Reg) (d d' : DataLar) :
    (s.setDlar a d).setDlar a d' = s.setDlar a d' := by
  rw [State.setDlar, State.setDlar, State.withDlars_withDlars, State.setDlar]
  refine s.withDlars_congr fun i _ => ?_
  split
  · rfl
  · next hi => exact State.setDlar_dlar_other s a d hi

/-- `a` gets address `ea`, type `ty`, data `v`, dirty bit `b` and the tagged bit: all that a load or store writes of its
`dA` (42_load.md R172, 43_store.md R190). -/
def State.repoint (s : State) (a : Reg) (ea : Word) (ty : LaneType) (v : Line) (b : Bool) : State :=
  s.setDlar a { (s.dlar a).retype ty with addr := ea, data := v, dirty := b, tagged := true }

/-- `a` gets its address and type and keeps its data and dirty bit. -/
theorem State.pointAt_eq_repoint (s : State) (a : Reg) (ea : Word) (ty : LaneType) :
    s.pointAt a ea ty = s.repoint a ea ty (s.dlar a).data (s.dlar a).dirty := by
  rw [State.pointAt, State.repoint]
  cases ty <;> rfl

theorem State.relabel_eq_repoint (s : State) (a : Reg) (ea : Word) (ty : LaneType) :
    s.relabel a ea ty = s.repoint a ea ty (s.dlar a).data true := by
  rw [State.relabel, State.repoint]
  cases ty <;> rfl

/-- A fill and then the new address make one write of `a`. -/
theorem State.setDlar_pointAt (s : State) {a : Reg} (ha : a ≠ 0) (v : Line) (b : Bool) (ea : Word) (ty : LaneType) :
    (s.setDlar a { s.dlar a with data := v, dirty := b }).pointAt a ea ty = s.repoint a ea ty v b := by
  rw [State.pointAt, State.setDlar_setDlar, State.setDlar_dlar_same s ha, State.repoint]
  cases ty <;> rfl

section Repoint

variable (s : State) {a : Reg} (ha : a ≠ 0) (ea : Word) (ty : LaneType) (v : Line) (b : Bool)

theorem State.repoint_dlar_other {i : Reg} (hi : i ≠ a) : (s.repoint a ea ty v b).dlar i = s.dlar i :=
  State.setDlar_dlar_other s a _ hi

theorem State.repoint_holds_other (L : Nat) {i : Reg} (hi : i ≠ a) :
    (s.repoint a ea ty v b).holds L i = s.holds L i := by
  rw [State.holds, State.repoint_dlar_other s ea ty v b hi, State.holds]

@[simp] theorem State.repoint_mem : (s.repoint a ea ty v b).mem = s.mem := State.setDlar_mem ..

include ha

theorem State.repoint_dlar_same : (s.repoint a ea ty v b).dlar a =
    { (s.dlar a).retype ty with addr := ea, data := v, dirty := b, tagged := true } :=
  State.setDlar_dlar_same s ha _

theorem State.repoint_data : ((s.repoint a ea ty v b).dlar a).data = v := by
  rw [State.repoint_dlar_same s ha]

theorem State.repoint_holds_same (L : Nat) : (s.repoint a ea ty v b).holds L a = (lineNumber ea == L) := by
  rw [State.holds, State.repoint_dlar_same s ha, DataLar.base, Bool.true_and]

end Repoint

/-- A holder, after the write of `a`, of a line that is not that of the address is another one than `a`, and held the
line before. -/
theorem State.holds_of_repoint {s : State} {a : Reg} (ha : a ≠ 0) {ea : Word} {ty : LaneType} {v : Line} {b : Bool}
    {L : Nat} (hL : lineNumber ea ≠ L) {i : Reg} (hi : (s.repoint a ea ty v b).holds L i = true) :
    i ≠ a ∧ s.holds L i = true := by
  by_cases hia : i = a
  · rw [hia, State.repoint_holds_same s ha, beq_false_of_ne hL] at hi
    cases hi
  · exact ⟨hia, by rwa [State.repoint_holds_other s _ _ _ _ _ hia] at hi⟩

/-- Every other holder of line `L` has data `v` and dirty bit `b`. -/
def State.OthersHave (s : State) (a : Reg) (L : Nat) (v : Line) (b : Bool) : Prop :=
  ∀ i, i ≠ a → s.holds L i = true → (s.dlar i).data = v ∧ (s.dlar i).dirty = b

section Coherent

variable {s : State} {a : Reg} {ea : Word} {v : Line} {b : Bool} (ha : a ≠ 0) (hc : s.Coherent)
  (ho : s.OthersHave a (lineNumber ea) v b) (ty : LaneType)
include ha ho

/-- All holders of the line of `ea` have the new data and dirty bit of `a`. -/
theorem State.OthersHave.repoint {i : Reg} (hi : (s.repoint a ea ty v b).holds (lineNumber ea) i = true) :
    ((s.repoint a ea ty v b).dlar i).data = v ∧ ((s.repoint a ea ty v b).dlar i).dirty = b := by
  by_cases hia : i = a
  · rw [hia, State.repoint_dlar_same s ha]
    exact ⟨rfl, rfl⟩
  · rw [State.repoint_dlar_other s _ _ _ _ hia]
    exact ho i hia (by rwa [State.repoint_holds_other s _ _ _ _ _ hia] at hi)

theorem State.repoint_viewLine_same : (s.repoint a ea ty v b).viewLine (lineNumber ea) = v :=
  State.viewLine_eq_of_holders (a := a) (by rw [State.repoint_holds_same s ha, beq_self_eq_true])
    fun _ hi => (ho.repoint ha ty hi).1

include hc

theorem State.Coherent.repoint : (s.repoint a ea ty v b).Coherent := by
  refine .of_holds fun L i j hi hj => ?_
  by_cases hL : lineNumber ea = L
  · subst hL
    obtain ⟨hdi, hbi⟩ := ho.repoint ha ty hi
    obtain ⟨hdj, hbj⟩ := ho.repoint ha ty hj
    exact ⟨hdi.trans hdj.symm, hbi.trans hbj.symm⟩
  · obtain ⟨hia, hi⟩ := State.holds_of_repoint ha hL hi
    obtain ⟨hja, hj⟩ := State.holds_of_repoint ha hL hj
    rw [State.repoint_dlar_other s _ _ _ _ hia, State.repoint_dlar_other s _ _ _ _ hja]
    exact hc.holders hi hj

end Coherent

/-- The view of another line stays, if memory has what `a` held of it before. -/
theorem State.repoint_viewLine_other {s : State} (hc : s.Coherent) {a : Reg} (ha : a ≠ 0) {ea : Word}
    (ty : LaneType) (v : Line) (b : Bool) {L : Nat} (hL : lineNumber ea ≠ L)
    (hleft : s.holds L a = true → (s.dlar a).data = s.mem.readLine L) :
    (s.repoint a ea ty v b).viewLine L = s.viewLine L := by
  by_cases hex : ∃ i, i ≠ a ∧ s.holds L i = true
  · obtain ⟨i, hia, hi⟩ := hex
    refine State.viewLine_eq_of_holders (a := i) (by rwa [State.repoint_holds_other s _ _ _ _ _ hia]) fun j hj => ?_
    obtain ⟨hja, hj⟩ := State.holds_of_repoint ha hL hj
    rw [State.repoint_dlar_other s _ _ _ _ hja, State.viewLine_of_holds hc hj]
  · have hnone : ∀ i, (s.repoint a ea ty v b).holds L i = false := fun i =>
      Bool.eq_false_iff.mpr fun hi => hex ⟨i, State.holds_of_repoint ha hL hi⟩
    rw [State.viewLine_of_none hnone, State.repoint_mem]
    cases hLa : s.holds L a with
    | true => rw [State.viewLine_of_holds hc hLa, hleft hLa]
    | false =>
      refine (State.viewLine_of_none fun i => Bool.eq_false_iff.mpr fun hi => hex ⟨i, ?_, hi⟩).symm
      rintro rfl
      cases hLa.symm.trans hi

/-! ## After the release -/

theorem SameButWriteBack.data {s s' : State} (h : SameButWriteBack s s') (i : Reg) :
    (s.dlar i).data = (s'.dlar i).data := by
  have hi := h.dlars i
  rw [DataLar.mk.injEq] at hi
  exact hi.1

theorem WrittenBack.release {s r : State} (hc : s.Coherent) {a : Reg} (h : s.release a = .ok r) : WrittenBack s r := by
  rcases s.release_cases a with ⟨-, hr⟩ | ⟨ht, -, hb, hr⟩ | ⟨-, -, -, hr⟩
  · obtain rfl := Except.ok.inj (hr.symm.trans h)
    exact .refl hc
  · obtain rfl := Except.ok.inj (hr.symm.trans h)
    exact .writeBack hc (State.holds_iff.mpr ⟨ht, rfl⟩) hb
  · cases hr.symm.trans h

theorem State.release_paid {s r : State} {a : Reg} (h : s.release a = .ok r) : r.owesWriteBack a = false := by
  rcases s.release_cases a with ⟨hn, hr⟩ | ⟨ht, -, -, hr⟩ | ⟨-, -, -, hr⟩
  · obtain rfl := Except.ok.inj (hr.symm.trans h)
    rcases hn with hn | hn <;> simp [State.owesWriteBack, hn]
  · obtain rfl := Except.ok.inj (hr.symm.trans h)
    have hself : s.holds (s.dlar a).base a = true := State.holds_iff.mpr ⟨ht, rfl⟩
    simp [State.owesWriteBack, State.writeBack_dlar, hself]
  · cases hr.symm.trans h

/-- `r` is `s` ready for `a` to get line `L`: only write-backs have been made, and `a` owes none for another line
(20_memory.md R61). -/
structure ReadyFor (s r : State) (a : Reg) (L : Nat) : Prop where
  written : WrittenBack s r
  paid : r.holds L a = false → r.owesWriteBack a = false

theorem ReadyFor.of_holds {s : State} (hc : s.Coherent) {a : Reg} {L : Nat} (hL : s.holds L a = true) :
    ReadyFor s s a L :=
  ⟨.refl hc, fun h => by cases hL.symm.trans h⟩

theorem ReadyFor.of_release {s r : State} (hc : s.Coherent) {a : Reg} (h : s.release a = .ok r) (L : Nat) :
    ReadyFor s r a L :=
  ⟨.release hc h, fun _ => State.release_paid h⟩

/-- What `a` holds of another line, memory has. -/
theorem ReadyFor.left {s r : State} {a : Reg} {K L : Nat} (h : ReadyFor s r a K) (hs : s.CleanUpToDate) (hKL : K ≠ L)
    (hL : r.holds L a = true) : (r.dlar a).data = r.mem.readLine L := by
  obtain ⟨ht, rfl⟩ := State.holds_iff.mp hL
  have hpaid := h.paid (by rw [State.holds, beq_false_of_ne hKL.symm, Bool.and_false])
  rw [State.owesWriteBack, ht, Bool.true_and] at hpaid
  exact h.written.clean hs a ht hpaid

/-! ## A load -/

/-- The other holders of a line that `a` gets by a load have its view, and one dirty bit. -/
theorem State.Coherent.othersHave_view {r : State} (hc : r.Coherent) (a : Reg) {L : Nat} {b : Bool}
    (hb : ∀ i, r.holds L i = true → (r.dlar i).dirty = b) : r.OthersHave a L (r.viewLine L) b :=
  fun i _ hi => ⟨(State.viewLine_of_holds hc hi).symm, hb i hi⟩

/-- What a fill gives `a` is the view of the line and the dirty bit of its holders (42_load.md R172). -/
theorem State.fillFrom_eq {r u : State} (hc : r.Coherent) {a : Reg} {L : Nat} (h : r.fillFrom a L = .ok u) :
    ∃ b, (∀ i, r.holds L i = true → (r.dlar i).dirty = b) ∧
      u = r.setDlar a { r.dlar a with data := r.viewLine L, dirty := b } := by
  rcases r.fillFrom_cases a L with ⟨k, hk, hf⟩ | ⟨hn, -, hf⟩ | ⟨-, -, hf⟩
  · obtain rfl := Except.ok.inj (hf.symm.trans h)
    have hkL := State.holds_of_holder hk
    rw [State.viewLine_of_holds hc hkL]
    exact ⟨_, fun i hi => (hc.holders hi hkL).2, rfl⟩
  · obtain rfl := Except.ok.inj (hf.symm.trans h)
    have hnone := State.holder_none.mp hn
    rw [State.viewLine_of_none hnone]
    exact ⟨_, fun i hi => Bool.noConfusion ((hnone i).symm.trans hi), rfl⟩
  · cases hf.symm.trans h

/-- A load is one write of `dA`, after its release, with the view of the line (42_load.md R172). -/
theorem State.acquire_pointAt {s u : State} {a : Reg} {ea : Word} (hc : s.Coherent) (ha : a ≠ 0)
    (h : s.acquire a (lineNumber ea) = .ok u) (ty : LaneType) : ∃ r b, ReadyFor s r a (lineNumber ea) ∧
      r.OthersHave a (lineNumber ea) (r.viewLine (lineNumber ea)) b ∧
      u.pointAt a ea ty = r.repoint a ea ty (r.viewLine (lineNumber ea)) b := by
  rcases State.acquire_cases h with ⟨hL, rfl⟩ | ⟨-, r, hr, hf⟩
  · refine ⟨u, _, .of_holds hc hL, hc.othersHave_view a fun i hi => (hc.holders hi hL).2, ?_⟩
    rw [State.pointAt_eq_repoint, State.viewLine_of_holds hc hL]
  · have hready := ReadyFor.of_release hc hr (lineNumber ea)
    have hrc := hready.written.coherent
    obtain ⟨b, hb, rfl⟩ := State.fillFrom_eq hrc hf
    exact ⟨r, b, hready, hrc.othersHave_view a hb, State.setDlar_pointAt r ha _ b ea ty⟩

/-- A load changes the view of no line (20_memory.md R63). -/
theorem ReadyFor.load_viewLine {s r : State} {a : Reg} {ea : Word} {b : Bool} (h : ReadyFor s r a (lineNumber ea))
    (hs : s.CleanUpToDate) (ha : a ≠ 0)
    (ho : r.OthersHave a (lineNumber ea) (r.viewLine (lineNumber ea)) b) (ty : LaneType) (L : Nat) :
    (r.repoint a ea ty (r.viewLine (lineNumber ea)) b).viewLine L = s.viewLine L := by
  rw [h.written.same.view]
  by_cases hL : lineNumber ea = L
  · subst hL
    exact State.repoint_viewLine_same ha ho ty
  · exact State.repoint_viewLine_other h.written.coherent ha ty _ b hL (h.left hs hL)

theorem loadLar_of_next {ty : LaneType} {a b c : Reg} {simm : Int} {s t : State} (ha : a ≠ 0)
    (h : loadLar ty a b c simm s = .next t) : ∃ u, s.acquire a (lineNumber (s.effectiveAddress b c simm)) = .ok u ∧
      t = (u.pointAt a (s.effectiveAddress b c simm) ty).advance := by
  rcases loadLar_cases ty a b c simm s with ⟨i, -, hl⟩ | ⟨-, ⟨h0, -⟩ | ⟨-, f, -, hl⟩ | ⟨-, u, hu, hl⟩⟩
  · cases hl.symm.trans h
  · exact absurd h0 ha
  · cases hl.symm.trans h
  · exact ⟨u, hu, Host.Outcome.next.inj (h.symm.trans hl)⟩

/-- Settles O55: a load writes the view of its line to `dA` and to nothing else. -/
theorem loadReadsTheView : Obligations.LoadReadsTheView := by
  intro p hp s t a b c simm hc hs ha h
  rw [exec_load hp] at h
  obtain ⟨u, hu, rfl⟩ := loadLar_of_next ha h
  obtain ⟨r, d, hready, ho, he⟩ := State.acquire_pointAt hc ha hu p.2
  rw [he]
  refine ⟨?_, fun L => ?_⟩
  · rw [State.advance_dlar, State.repoint_data r ha, ← hready.written.same.view]
    rfl
  · rw [State.advance_viewLine]
    exact hready.load_viewLine hs ha ho p.2 L

/-! ## A store -/

@[simp] theorem State.giveHolders_holds (s : State) (a : Reg) (L K : Nat) (i : Reg) :
    (s.giveHolders a L).holds K i = s.holds K i := by
  rw [State.holds, State.giveHolders_dlar]
  split <;> rfl

theorem State.giveHolders_data_self (s : State) (a : Reg) (L : Nat) :
    ((s.giveHolders a L).dlar a).data = (s.dlar a).data := by
  rw [State.giveHolders_dlar]
  split <;> rfl

theorem State.giveHolders_othersHave (s : State) (a : Reg) (L : Nat) :
    (s.giveHolders a L).OthersHave a L (s.dlar a).data true := by
  intro i _ hi
  rw [State.giveHolders_holds] at hi
  rw [State.giveHolders_dlar, if_pos hi]
  exact ⟨rfl, rfl⟩

theorem State.giveHolders_dlar_other (s : State) (a : Reg) {L K : Nat} (hKL : L ≠ K) {i : Reg}
    (hi : s.holds K i = true) : (s.giveHolders a L).dlar i = s.dlar i := by
  rw [State.giveHolders_dlar, if_neg]
  intro hL
  exact hKL ((State.holds_iff.mp hL).2.symm.trans (State.holds_iff.mp hi).2)

theorem State.giveHolders_viewLine_other (s : State) (a : Reg) {L K : Nat} (hKL : L ≠ K) :
    (s.giveHolders a L).viewLine K = s.viewLine K :=
  State.viewLine_congr (by rw [State.giveHolders_mem]) (fun _ => State.giveHolders_holds ..) fun i hi => by
    rw [State.giveHolders_dlar_other s a hKL hi]

theorem State.giveHolders_viewLine_held (s : State) (a : Reg) {L : Nat} {i : Reg} (hi : s.holds L i = true) :
    (s.giveHolders a L).viewLine L = (s.dlar a).data := by
  refine State.viewLine_eq_of_holders (a := i) (by rwa [State.giveHolders_holds]) fun j hj => ?_
  rw [State.giveHolders_holds] at hj
  rw [State.giveHolders_dlar, if_pos hj]

theorem State.giveHolders_viewLine_unheld (s : State) (a : Reg) {L K : Nat} (hn : ∀ i, s.holds L i = false) :
    (s.giveHolders a L).viewLine K = s.viewLine K :=
  State.viewLine_congr (by rw [State.giveHolders_mem]) (fun _ => State.giveHolders_holds ..) fun i _ => by
    rw [State.giveHolders_dlar, if_neg (by simp [hn i])]

theorem State.Coherent.giveHolders {s : State} (hc : s.Coherent) (a : Reg) (L : Nat) :
    (s.giveHolders a L).Coherent := by
  refine .of_holds fun K i j hi hj => ?_
  rw [State.giveHolders_holds] at hi hj
  by_cases hKL : L = K
  · subst hKL
    rw [State.giveHolders_dlar, State.giveHolders_dlar, if_pos hi, if_pos hj]
    exact ⟨rfl, rfl⟩
  · rw [State.giveHolders_dlar_other s a hKL hi, State.giveHolders_dlar_other s a hKL hj]
    exact hc.holders hi hj

/-- Holders are alike, so marking them dirty is giving them the data that `a`, one of them, has. -/
theorem State.dirtyHolders_eq_giveHolders {s : State} (hc : s.Coherent) {a : Reg} {L : Nat}
    (hL : s.holds L a = true) : s.dirtyHolders L = s.giveHolders a L := by
  refine s.withDlars_congr fun i _ => ?_
  by_cases hi : s.holds L i = true
  · rw [if_pos hi, if_pos hi, ← (hc.holders hi hL).1]
  · rw [if_neg hi, if_neg hi]

/-- A store gives the holders of the line the data of `dA`, after its release, and is then one write of `dA`
(43_store.md R190). -/
theorem State.stage_relabel {s u : State} {a : Reg} {ea : Word} (hc : s.Coherent)
    (h : s.stage a (lineNumber ea) = .ok u) (ty : LaneType) : ∃ r, ReadyFor s r a (lineNumber ea) ∧
      u.relabel a ea ty = (r.giveHolders a (lineNumber ea)).repoint a ea ty (r.dlar a).data true := by
  rcases State.stage_cases h with ⟨hL, rfl⟩ | ⟨-, r, hr, rfl⟩
  · refine ⟨s, .of_holds hc hL, ?_⟩
    rw [State.dirtyHolders_eq_giveHolders hc hL, State.relabel_eq_repoint, State.giveHolders_data_self]
  · refine ⟨r, .of_release hc hr _, ?_⟩
    rw [State.relabel_eq_repoint, State.giveHolders_data_self]

/-- A store writes the view of its line, and of no other (20_memory.md R63, R64). -/
theorem ReadyFor.store_viewLine {s r : State} {a : Reg} {ea : Word} (h : ReadyFor s r a (lineNumber ea))
    (hs : s.CleanUpToDate) (ha : a ≠ 0) (ty : LaneType) (L : Nat) :
    ((r.giveHolders a (lineNumber ea)).repoint a ea ty (r.dlar a).data true).viewLine L =
      if L = lineNumber ea then (s.dlar a).data else s.viewLine L := by
  have ho := r.giveHolders_othersHave a (lineNumber ea)
  split
  · next hL =>
    subst hL
    rw [State.repoint_viewLine_same ha ho ty, ← h.written.same.data]
  · next hL =>
    have hL : lineNumber ea ≠ L := Ne.symm hL
    rw [h.written.same.view, ← State.giveHolders_viewLine_other r a hL]
    refine State.repoint_viewLine_other (h.written.coherent.giveHolders a _) ha ty _ true hL fun hLa => ?_
    rw [State.giveHolders_holds] at hLa
    rw [State.giveHolders_data_self, State.giveHolders_mem]
    exact h.left hs hL hLa

theorem storeLar_of_next {ty : LaneType} {a b c : Reg} {simm : Int} {s t : State} (ha : a ≠ 0)
    (h : storeLar ty a b c simm s = .next t) : ∃ u, s.stage a (lineNumber (s.effectiveAddress b c simm)) = .ok u ∧
      t = (u.relabel a (s.effectiveAddress b c simm) ty).advance := by
  rcases storeLar_cases ty a b c simm s with ⟨i, -, hl⟩ | ⟨-, ⟨h0, -⟩ | ⟨-, f, -, hl⟩ | ⟨-, u, hu, hl⟩⟩
  · cases hl.symm.trans h
  · exact absurd h0 ha
  · cases hl.symm.trans h
  · exact ⟨u, hu, Host.Outcome.next.inj (h.symm.trans hl)⟩

/-- Settles O58: all holders of the line get the data of `dA`, and what `dA` held before is in memory or with another
holder. -/
theorem storeWritesTheViewOfItsLine : Obligations.StoreWritesTheViewOfItsLine := by
  intro p hp s t a b c simm hc hs ha h L
  rw [exec_store hp] at h
  obtain ⟨u, hu, rfl⟩ := storeLar_of_next ha h
  obtain ⟨r, hready, he⟩ := State.stage_relabel hc hu p.2
  rw [he, State.advance_viewLine]
  exact hready.store_viewLine hs ha p.2 L

/-! ## Holders stay alike -/

theorem ExecEffect.coherent {q : Option Reg} {s t : State} (h : ExecEffect q s t) (hc : s.Coherent) : t.Coherent := by
  cases h with
  | jumps => exact hc
  | writesData a n v =>
    have htaken : (s.takeDraws a n).Coherent := fun i j => by
      rw [State.takeDraws_dlar, State.takeDraws_dlar]
      exact hc i j
    exact htaken.setData a v
  | loads ty _ ha hu =>
    obtain ⟨r, b, hready, ho, he⟩ := State.acquire_pointAt hc ha hu ty
    rw [he]
    exact hready.written.coherent.repoint ha ho ty
  | stores ty _ ha hu =>
    obtain ⟨r, hready, he⟩ := State.stage_relabel hc hu ty
    rw [he]
    exact (hready.written.coherent.giveHolders _ _).repoint ha (r.giveHolders_othersHave _ _) ty

theorem State.Coherent.betweenInstructions {s : State} (hc : s.Coherent) : s.betweenInstructions.Coherent :=
  State.betweenInstructions_induction (P := State.Coherent) s hc fun _ _ _ hu _ _ => hu.writeBack _ _

/-- Settles O19: write-backs clean all holders of a line, ALU writes reach all of them, and a load or store gives its
`dA` what the other holders of its line have. -/
theorem stepKeepsHoldersAlike : Obligations.StepKeepsHoldersAlike := by
  intro s t hc h
  obtain ⟨r, he⟩ := step_effect h
  exact he.coherent hc.betweenInstructions

end Sys2Proof.Machine
end

section
/-!
Instruction words as bytes of memory (20_memory.md R52, R54) (the statements O8 and O12).
-/

namespace Sys2Proof

/-- The four bytes of a word, in either order, make up the word (20_memory.md R52, R54). -/
theorem wordOfBytes_wordByte (e : Endian) (w : IWord) :
    wordOfBytes e (wordByte e w 0) (wordByte e w 1) (wordByte e w 2) (wordByte e w 3) = w := by
  apply BitVec.eq_of_toNat_eq
  have hw := w.isLt
  cases e with
  | little =>
    simp only [wordOfBytes_little_toNat, wordByte_toNat, Machine.bytePos]
    omega
  | big =>
    simp only [wordOfBytes_big_toNat, wordByte_toNat, Machine.bytePos]
    omega

/-- Settles O8: the decoder puts the four bytes together in the order in which they were laid out. -/
theorem decodingBytesInEitherOrder : Obligations.DecodingBytesInEitherOrder := by
  intro e w i rest h
  rw [decodeBytes, wordOfBytes_wordByte, h]

namespace Machine

theorem State.withFetchWord_eq_placeWord (s : State) (w : IWord) : s.withFetchWord 32 w.toNat = s.placeWord w := by
  rw [State.withFetchWord, Nat.mod_eq_of_lt w.isLt, BitVec.ofNat_toNat, BitVec.setWidth_eq]

/-- The word placed at `pc` lies there, in the machine's byte order. -/
theorem State.placeWord_wordAtPc (s : State) (w : IWord) : (s.placeWord w).wordAtPc = w := by
  have hbyte : ∀ j < 4, (s.placeWord w).mem.read (s.pc.toNat + j) = wordByte s.params.endian w j := fun j hj => by
    rw [State.placeWord_mem, Memory.read_write_same _ _ _ _ hj]
  have hword : (s.placeWord w).wordAtPc = wordOfBytes s.params.endian ((s.placeWord w).mem.read (s.pc.toNat + 0))
      ((s.placeWord w).mem.read (s.pc.toNat + 1)) ((s.placeWord w).mem.read (s.pc.toNat + 2))
      ((s.placeWord w).mem.read (s.pc.toNat + 3)) := rfl
  rw [hword, hbyte 0 (by omega), hbyte 1 (by omega), hbyte 2 (by omega), hbyte 3 (by omega), wordOfBytes_wordByte]

/-- Settles O12: placing a word writes its four bytes to memory, so the tests of the fetch come out as before. -/
theorem placedWordIsFetched : Obligations.PlacedWordIsFetched := by
  intro s w h4 hb hc
  rw [State.withFetchWord_eq_placeWord]
  refine ⟨?_, ⟨_, rfl⟩, fun x hx => ?_⟩
  · have hfetch : (s.placeWord w).fetch = .ok (s.placeWord w).wordAtPc := State.fetch_ok h4 hb hc
    rw [hfetch, State.placeWord_wordAtPc]
  · rw [State.placeWord_mem, Memory.read_write_other _ _ _ _ hx]

end Machine
end Sys2Proof
end

section
/-!
The internal write-backs between two instructions, line by line (20_memory.md R62) (the statements O13 and O14).
-/

namespace Sys2Proof.Machine

/-! ## One line -/

theorem State.earlyWriteBack_of_dirty {s : State} {L : Nat} {k : Reg} (hk : s.dirtyHolder L = some k)
    (hb : s.backed L = true) : s.earlyWriteBack L = s.writeBack L (s.dlar k).data := by
  simp only [State.earlyWriteBack, hk, hb, if_true]

/-- Nothing is written where the line is not backed or no holder is dirty. -/
theorem State.earlyWriteBack_idle {s : State} {L : Nat}
    (h : s.backed L = false ∨ ∀ i, s.holds L i = true → (s.dlar i).dirty = false) : s.earlyWriteBack L = s := by
  rcases s.earlyWriteBack_cases L with he | ⟨k, hk, hd, hb, -⟩
  · exact he
  · rcases h with h | h
    · cases hb.symm.trans h
    · cases hd.symm.trans (h k hk)

/-- The step cleans the holders of the line, if it is backed, and leaves every other record. -/
theorem State.earlyWriteBack_dlar (s : State) (L : Nat) (i : Reg) : (s.earlyWriteBack L).dlar i =
    if s.holds L i = true ∧ s.backed L = true then { s.dlar i with dirty := false } else s.dlar i := by
  cases hb : s.backed L with
  | false => simp [State.earlyWriteBack_idle (Or.inl hb)]
  | true =>
    cases hk : s.dirtyHolder L with
    | some k => simp [State.earlyWriteBack_of_dirty hk hb, State.writeBack_dlar]
    | none =>
      have hclean := State.dirtyHolder_none.mp hk
      rw [State.earlyWriteBack_idle (Or.inr hclean)]
      split
      · next h => rw [← hclean i h.1]
      · rfl

/-- A dirty holder of a backed line is written to memory: holders are alike, so it does not matter which one the step
takes. -/
theorem State.earlyWriteBack_mem {s : State} (hc : s.Coherent) {L : Nat} {h : Reg} (hh : s.holds L h = true)
    (hd : (s.dlar h).dirty = true) (hb : s.backed L = true) :
    (s.earlyWriteBack L).mem = s.mem.writeLine L (s.dlar h).data := by
  cases hk : s.dirtyHolder L with
  | none => cases hd.symm.trans (State.dirtyHolder_none.mp hk h hh)
  | some k =>
    rw [State.earlyWriteBack_of_dirty hk hb, State.writeBack_mem,
      (hc.holders (State.dirtyHolder_some hk).1 hh).1]

/-- Settles O14: the step writes the data that all holders share and cleans every one of them. -/
theorem earlyWriteBackOfOneLine : Obligations.EarlyWriteBackOfOneLine := by
  intro s L h hc hh hd hb
  refine ⟨fun x => ?_, fun i => ?_⟩
  · rw [State.earlyWriteBack_mem hc hh hd hb, Memory.read_writeLine]
  · rw [State.earlyWriteBack_dlar]
    simp only [hb, and_true]

/-! ## A list of lines -/

theorem State.earlyWriteBack_read_other (s : State) {L x : Nat} (hx : x / 32 ≠ L) :
    (s.earlyWriteBack L).mem.read x = s.mem.read x := by
  rcases s.earlyWriteBack_cases L with he | ⟨k, -, -, -, he⟩ <;> rw [he]
  rw [State.writeBack_mem, Memory.read_writeLine, if_neg hx]

/-- The backed lines of the list are clean after it, and every other record stays. -/
theorem State.foldl_earlyWriteBack_dlar (ls : List Nat) {s : State} (hc : s.Coherent) (i : Reg) :
    (ls.foldl State.earlyWriteBack s).dlar i =
      if (s.dlar i).tagged = true ∧ (s.dlar i).base ∈ ls ∧ s.backed (s.dlar i).base = true then
        { s.dlar i with dirty := false }
      else s.dlar i := by
  induction ls generalizing s with
  | nil => simp
  | cons L ls ih =>
    have hL := WrittenBack.earlyWriteBack hc L
    rw [List.foldl_cons, ih hL.coherent, hL.same.backed, State.earlyWriteBack_dlar]
    by_cases hi : s.holds L i = true ∧ s.backed L = true
    · obtain ⟨ht, hbase⟩ := State.holds_iff.mp hi.1
      have hin : (s.dlar i).tagged = true ∧ (s.dlar i).base ∈ L :: ls ∧ s.backed (s.dlar i).base = true :=
        ⟨ht, hbase ▸ List.mem_cons_self, hbase ▸ hi.2⟩
      rw [if_pos hi, if_pos hin, ite_self]
    · have hnot : (s.dlar i).tagged = true → s.backed (s.dlar i).base = true → (s.dlar i).base ≠ L :=
        fun ht hb hbase => hi ⟨State.holds_iff.mpr ⟨ht, hbase⟩, hbase ▸ hb⟩
      rw [if_neg hi]
      refine ite_congr (propext ⟨?_, ?_⟩) (fun _ => rfl) fun _ => rfl
      · exact fun ⟨ht, hm, hb⟩ => ⟨ht, List.mem_cons_of_mem L hm, hb⟩
      · exact fun ⟨ht, hm, hb⟩ => ⟨ht, (List.mem_cons.mp hm).resolve_left (hnot ht hb), hb⟩

/-- A byte stays that the list has no dirty, backed line for. -/
theorem State.foldl_earlyWriteBack_read_idle (ls : List Nat) {s : State} (hc : s.Coherent) {x : Nat}
    (h : x / 32 ∉ ls ∨ s.backed (x / 32) = false ∨ ∀ i, s.holds (x / 32) i = true → (s.dlar i).dirty = false) :
    (ls.foldl State.earlyWriteBack s).mem.read x = s.mem.read x := by
  induction ls generalizing s with
  | nil => rfl
  | cons L ls ih =>
    have hL := WrittenBack.earlyWriteBack hc L
    have hbyte : (s.earlyWriteBack L).mem.read x = s.mem.read x := by
      by_cases hx : x / 32 = L
      · subst hx
        rw [State.earlyWriteBack_idle (h.resolve_left fun hn => hn List.mem_cons_self)]
      · exact s.earlyWriteBack_read_other hx
    rw [List.foldl_cons, ih hL.coherent, hbyte]
    refine h.imp (fun hn hm => hn (List.mem_cons_of_mem L hm)) (Or.imp (hL.same.backed _).trans fun hcl i hi => ?_)
    rw [hL.same.holds] at hi
    have hd := hL.dirty i
    rw [hcl i hi] at hd
    simpa using hd

/-- A byte of a dirty, backed line of the list is its holder's. -/
theorem State.foldl_earlyWriteBack_read_dirty {ls : List Nat} {s : State} (hc : s.Coherent) {x : Nat} {h : Reg}
    (hx : x / 32 ∈ ls) (hb : s.backed (x / 32) = true) (hh : s.holds (x / 32) h = true)
    (hd : (s.dlar h).dirty = true) :
    (ls.foldl State.earlyWriteBack s).mem.read x = lineByte (s.dlar h).data (x % 32) := by
  induction ls generalizing s with
  | nil => cases hx
  | cons L ls ih =>
    have hL := WrittenBack.earlyWriteBack hc L
    rw [List.foldl_cons]
    by_cases hxL : x / 32 = L
    · subst hxL
      have hclean : ∀ i, (s.earlyWriteBack (x / 32)).holds (x / 32) i = true →
          ((s.earlyWriteBack (x / 32)).dlar i).dirty = false := fun i hi =>
        State.earlyWriteBack_clean hb ((hL.same.holds _ i).symm.trans hi)
      rw [State.foldl_earlyWriteBack_read_idle ls hL.coherent (Or.inr (Or.inr hclean)),
        State.earlyWriteBack_mem hc hh hd hb, Memory.read_writeLine, if_pos rfl]
    · have hsame : (s.earlyWriteBack L).dlar h = s.dlar h := by
        rw [State.earlyWriteBack_dlar, if_neg]
        rintro ⟨hhL, -⟩
        exact hxL ((State.holds_iff.mp hh).2.symm.trans (State.holds_iff.mp hhL).2)
      rw [ih hL.coherent ((List.mem_cons.mp hx).resolve_left hxL) ((hL.same.backed _).trans hb)
        ((hL.same.holds _ h).trans hh) (by rwa [hsame]), hsame]

theorem State.betweenInstructions_cons {s : State} {lines : List Nat} {rest : List (List Nat)}
    (h : s.schedule = lines :: rest) :
    s.betweenInstructions = lines.foldl State.earlyWriteBack { s with schedule := rest } := by
  unfold State.betweenInstructions
  rw [h]

/-- What happens between two instructions is a list of internal write-backs, after the schedule has moved on. -/
theorem WrittenBack.betweenInstructions {s : State} (hc : s.Coherent) :
    WrittenBack { s with schedule := s.schedule.tail } s.betweenInstructions := by
  cases hs : s.schedule with
  | nil =>
    rw [State.betweenInstructions_nil hs, List.tail_nil, ← hs]
    exact .refl hc
  | cons lines rest =>
    rw [State.betweenInstructions_cons hs]
    exact .foldl lines hc

/-- Settles O13: what is due is a list of internal write-backs, of which each is unobservable and cleans one line. -/
theorem earlyWriteBackKeepsTheView : Obligations.EarlyWriteBackKeepsTheView := by
  refine ⟨fun s => State.betweenInstructions_nil, fun s hc => ?_, ?_⟩
  · obtain ⟨-, hsame, -, hdirty, -, -⟩ := WrittenBack.betweenInstructions hc
    have hmoved : SameButWriteBack s { s with schedule := s.schedule.tail } :=
      ⟨rfl, rfl, rfl, fun _ => rfl, fun _ => rfl⟩
    exact ⟨hmoved.trans hsame, hdirty⟩
  · intro s t lines rest hc hs ht
    rw [State.betweenInstructions_cons hs] at ht
    have hc' : ({ s with schedule := rest } : State).Coherent := hc
    subst ht
    exact ⟨(WrittenBack.foldl lines hc').schedule, State.foldl_earlyWriteBack_dlar lines hc',
      fun _ _ hx hb hh hd => State.foldl_earlyWriteBack_read_dirty hc' hx hb hh hd,
      fun _ hx => State.foldl_earlyWriteBack_read_idle lines hc' hx⟩

end Sys2Proof.Machine
end

section
/-!
Where a load and a store are stuck (20_memory.md R72, 42_load.md R183, 43_store.md R200) (the statements O54 and O57).
-/

namespace Sys2Proof.Machine

theorem State.release_unbacked {s : State} {a : Reg} (ho : s.owesWriteBack a = true)
    (hb : s.backed (s.dlar a).base = false) : s.release a = .error (.unbackedLine (s.dlar a).base) := by
  simp only [State.release, ho, hb, if_true, Bool.false_eq_true, if_false]

theorem State.fillFrom_unbacked {s : State} (a : Reg) {L : Nat} (hn : ∀ i, s.holds L i = false)
    (hb : s.backed L = false) : s.fillFrom a L = .error (.unbackedLine L) := by
  simp only [State.fillFrom, State.holder_none.mpr hn, hb, Bool.false_eq_true, if_false]

theorem State.acquire_of_release_error {s : State} {a : Reg} {L : Nat} {f : Fault} (hL : s.holds L a = false)
    (h : s.release a = .error f) : s.acquire a L = .error f := by
  simp only [State.acquire, hL, h, Bool.false_eq_true, if_false]

theorem State.acquire_of_release_ok {s r : State} {a : Reg} {L : Nat} (hL : s.holds L a = false)
    (h : s.release a = .ok r) : s.acquire a L = r.fillFrom a L := by
  simp only [State.acquire, hL, h, Bool.false_eq_true, if_false]

theorem State.stage_of_release_error {s : State} {a : Reg} {L : Nat} {f : Fault} (hL : s.holds L a = false)
    (h : s.release a = .error f) : s.stage a L = .error f := by
  simp only [State.stage, hL, h, Bool.false_eq_true, if_false]

theorem loadLar_fault {ty : LaneType} {a b c : Reg} {simm : Int} {s : State} {f : Fault} (ha : a ≠ 0)
    (hu : s.untaggedOperand [b, c] = none) (h : s.acquire a (lineNumber (s.effectiveAddress b c simm)) = .error f) :
    loadLar ty a b c simm s = .fault f := by
  simp only [loadLar, State.checked_of_none hu, if_neg ha, h]

theorem storeLar_fault {ty : LaneType} {a b c : Reg} {simm : Int} {s : State} {f : Fault} (ha : a ≠ 0)
    (hu : s.untaggedOperand [a, b, c] = none)
    (h : s.stage a (lineNumber (s.effectiveAddress b c simm)) = .error f) : storeLar ty a b c simm s = .fault f := by
  simp only [storeLar, State.checked_of_none hu, if_neg ha, h]

/-- Settles O54: the release comes before the fill, and each is stuck at an unbacked line. -/
theorem loadStuckOnUnbackedLine : Obligations.LoadStuckOnUnbackedLine := by
  intro p hp s a b c simm ea ha hu hea hL
  subst hea
  rw [exec_load hp]
  refine ⟨fun ho hb => ?_, fun howed hn hb => ?_⟩
  · exact loadLar_fault ha hu (State.acquire_of_release_error hL (State.release_unbacked ho hb))
  · obtain ⟨r, hr, hrel⟩ := State.release_released howed
    have hfill := State.fillFrom_unbacked a (fun i => (hrel.holds _ i).trans (hn i))
      ((State.release_backed hr _).trans hb)
    exact loadLar_fault ha hu ((State.acquire_of_release_ok hL hr).trans hfill)

/-- Settles O57: the release is the only part of a store that can be stuck. -/
theorem storeStuckOnUnbackedRelease : Obligations.StoreStuckOnUnbackedRelease := by
  intro p hp s a b c simm ha hu
  rw [exec_store hp]
  refine ⟨fun ⟨hL, ho, hb⟩ => ?_, fun h => ?_⟩
  · exact storeLar_fault ha hu (State.stage_of_release_error hL (State.release_unbacked ho hb))
  · have howed : s.holds (lineNumber (s.effectiveAddress b c simm)) a = false → s.owesWriteBack a = true →
        s.backed (s.dlar a).base = true := by
      intro hL ho
      rcases h with h | h | h
      · cases hL.symm.trans h
      · cases ho.symm.trans h
      · exact h
    obtain ⟨u, hst, -⟩ := State.stage_staged howed
    exact ⟨_, storeLar_next ha hu hst⟩

end Sys2Proof.Machine
end

section
/-!
States that differ only in what has been written back, and that no instruction tells them apart (20_memory.md R63) (the
statement O26).
-/

namespace Sys2Proof.Machine

/-! ## What two such states agree in -/

theorem SameButWriteBack.symm {s t : State} (h : SameButWriteBack s t) : SameButWriteBack t s :=
  ⟨h.pc.symm, h.params.symm, h.draws.symm, fun i => (h.dlars i).symm, fun L => (h.view L).symm⟩

/-- Two records that differ at most in the dirty bit have the same address, type and tagged bit. -/
theorem DataLar.tags_of_clean_eq {d e : DataLar} (h : { d with dirty := false } = { e with dirty := false }) :
    d.addr = e.addr ∧ d.type = e.type ∧ d.tagged = e.tagged := by
  simp only [DataLar.mk.injEq] at h
  obtain ⟨-, haddr, htypeOfInt, hfloat, hsign, -, htagged⟩ := h
  refine ⟨haddr, ?_, htagged⟩
  rw [DataLar.type, DataLar.type, htypeOfInt, hfloat, hsign]

section Agree

variable {s s' : State} (h : SameButWriteBack s s')
include h

theorem SameButWriteBack.addr (i : Reg) : (s.dlar i).addr = (s'.dlar i).addr :=
  (DataLar.tags_of_clean_eq (h.dlars i)).1

theorem SameButWriteBack.type (i : Reg) : s.type i = s'.type i := (DataLar.tags_of_clean_eq (h.dlars i)).2.1

theorem SameButWriteBack.tagged (i : Reg) : (s.dlar i).tagged = (s'.dlar i).tagged :=
  (DataLar.tags_of_clean_eq (h.dlars i)).2.2

theorem SameButWriteBack.idx (i : Reg) : (s.dlar i).idx = (s'.dlar i).idx := by
  rw [DataLar.idx, DataLar.idx, h.addr, ← State.type, ← State.type, h.type]

theorem SameButWriteBack.lane (i : Reg) (k : Nat) : s.lane i k = s'.lane i k := by
  rw [State.lane, State.lane, h.params, h.type, h.data]

theorem SameButWriteBack.sdata (i : Reg) : s.sdata i = s'.sdata i := by
  rw [State.sdata, State.sdata, h.idx, h.lane]

theorem SameButWriteBack.pcv : s.pcv = s'.pcv := by rw [State.pcv, State.pcv, h.pc, h.params]

theorem SameButWriteBack.ext64 (i : Reg) : s.ext64 i = s'.ext64 i := by
  rw [State.ext64, State.ext64, h.type, h.sdata]

theorem SameButWriteBack.effectiveAddress (b c : Reg) (simm : Int) :
    s.effectiveAddress b c simm = s'.effectiveAddress b c simm := by
  rw [State.effectiveAddress, State.effectiveAddress, h.addr, h.ext64]

/-! ## What keeps them alike -/

theorem SameButWriteBack.setPc (v : Word) : SameButWriteBack (s.setPc v) (s'.setPc v) :=
  ⟨rfl, h.params, h.draws, h.dlars, h.view⟩

theorem SameButWriteBack.advance : SameButWriteBack s.advance s'.advance := by
  rw [State.advance, State.advance, h.pc]
  exact h.setPc _

theorem SameButWriteBack.takeDraws (a : Reg) (n : Nat) : SameButWriteBack (s.takeDraws a n) (s'.takeDraws a n) := by
  unfold State.takeDraws
  split
  · exact h
  · exact ⟨h.pc, h.params, congrArg (· + n) h.draws, h.dlars, h.view⟩

theorem SameButWriteBack.aliases (a i : Reg) : s.aliases a i = s'.aliases a i := by
  rw [State.aliases, State.aliases, ← h.holds, DataLar.base, DataLar.base, h.addr, h.tagged]

theorem SameButWriteBack.setData (a : Reg) (v : Line) : SameButWriteBack (s.setData a v) (s'.setData a v) := by
  by_cases ha : a = 0
  · rwa [ha, State.setData_dzero, State.setData_dzero]
  constructor
  · rw [State.setData_pc, State.setData_pc, h.pc]
  · rw [State.setData_params, State.setData_params, h.params]
  · rw [State.setData_draws, State.setData_draws, h.draws]
  · intro i
    rw [State.setData_dlar s ha, State.setData_dlar s' ha, h.aliases]
    have hi := h.dlars i
    simp only [DataLar.mk.injEq] at hi
    split <;> simp [hi]
  · intro L
    have hLa := h.holds L a
    cases hL : s.holds L a with
    | true => rw [State.setData_viewLine_held ha v hL, State.setData_viewLine_held ha v (hLa.trans hL)]
    | false => rw [State.setData_viewLine_other ha v hL, State.setData_viewLine_other ha v (hLa.trans hL), h.view]

theorem SameButWriteBack.writeScalar (a : Reg) (r : Nat) :
    SameButWriteBack (s.writeScalar a r) (s'.writeScalar a r) := by
  rw [State.writeScalar, State.writeScalar, h.params, h.type, h.data, h.idx]
  exact h.setData a _

theorem SameButWriteBack.writeLanes (a : Reg) (r : Nat → Nat) :
    SameButWriteBack (s.writeLanes a r) (s'.writeLanes a r) := by
  rw [State.writeLanes, State.writeLanes, h.params, h.type]
  exact h.setData a _

theorem SameButWriteBack.giveHolders (a : Reg) (L : Nat) :
    SameButWriteBack (s.giveHolders a L) (s'.giveHolders a L) := by
  constructor
  · rw [State.giveHolders_pc, State.giveHolders_pc, h.pc]
  · rw [State.giveHolders_params, State.giveHolders_params, h.params]
  · rw [State.giveHolders_draws, State.giveHolders_draws, h.draws]
  · intro i
    rw [State.giveHolders_dlar, State.giveHolders_dlar, h.holds, h.data]
    have hi := h.dlars i
    simp only [DataLar.mk.injEq] at hi
    split <;> simp [hi]
  · intro K
    by_cases hheld : ∃ i, s.holds L i = true
    · obtain ⟨i, hi⟩ := hheld
      by_cases hK : L = K
      · subst hK
        rw [State.giveHolders_viewLine_held s a hi, State.giveHolders_viewLine_held s' a ((h.holds L i).trans hi),
          h.data]
      · rw [State.giveHolders_viewLine_other s a hK, State.giveHolders_viewLine_other s' a hK, h.view]
    · have hnone : ∀ i, s.holds L i = false := fun i => Bool.eq_false_iff.mpr fun hi => hheld ⟨i, hi⟩
      rw [State.giveHolders_viewLine_unheld s a hnone,
        State.giveHolders_viewLine_unheld s' a fun i => (h.holds L i).trans (hnone i), h.view]

/-- The new record of `a` has nothing of the old one. -/
theorem SameButWriteBack.repoint {a : Reg} (ha : a ≠ 0) (ea : Word) (ty : LaneType) (v : Line) {b b' : Bool}
    (hview : ∀ L, (s.repoint a ea ty v b).viewLine L = (s'.repoint a ea ty v b').viewLine L) :
    SameButWriteBack (s.repoint a ea ty v b) (s'.repoint a ea ty v b') := by
  refine ⟨?_, ?_, ?_, fun i => ?_, hview⟩
  · rw [State.repoint, State.repoint, State.setDlar_pc, State.setDlar_pc, h.pc]
  · rw [State.repoint, State.repoint, State.setDlar_params, State.setDlar_params, h.params]
  · rw [State.repoint, State.repoint, State.setDlar_draws, State.setDlar_draws, h.draws]
  · by_cases hi : i = a
    · rw [hi, State.repoint_dlar_same s ha, State.repoint_dlar_same s' ha]
      cases ty <;> rfl
    · rw [State.repoint_dlar_other s _ _ _ _ hi, State.repoint_dlar_other s' _ _ _ _ hi]
      exact h.dlars i

end Agree

/-! ## The outcomes of an instruction -/

/-- Where both outcomes are states, these differ only in what has been written back. -/
def SameNext (o o' : Outcome) : Prop := ∀ t t', o = .next t → o' = .next t' → SameButWriteBack t t'

theorem SameNext.next {t t' : State} (h : SameButWriteBack t t') : SameNext (.next t) (.next t') := by
  intro u u' hu hu'
  rwa [← Host.Outcome.next.inj hu, ← Host.Outcome.next.inj hu']

theorem SameNext.fault (f : Fault) (o' : Outcome) : SameNext (.fault f) o' := fun _ _ hu => by cases hu

theorem SameNext.checked {o o' : Outcome} (h : SameNext o o') {s s' : State} {l l' : List Reg} :
    SameNext (s.checked l o) (s'.checked l' o') :=
  fun t t' ht ht' => h t t' (State.checked_next ht) (State.checked_next ht')

section Schemes

variable {s s' : State} (h : SameButWriteBack s s') (a b c : Reg)
include h

theorem SameButWriteBack.scalarBinary_sameNext (view : LaneType → LaneType)
    (op : LaneType → LaneType → LaneType → Nat → Nat → Nat) :
    SameNext (scalarBinary view op a b c s) (scalarBinary view op a b c s') := by
  refine .checked (.next ?_)
  simp only [h.type, h.sdata]
  exact (h.writeScalar a _).advance

theorem SameButWriteBack.scalarUnary_sameNext (view : LaneType → LaneType) (op : LaneType → LaneType → Nat → Nat) :
    SameNext (scalarUnary view op a b s) (scalarUnary view op a b s') := by
  refine .checked (.next ?_)
  simp only [h.type, h.sdata]
  exact (h.writeScalar a _).advance

theorem SameButWriteBack.vectorBinary_sameNext (view : LaneType → LaneType)
    (op : Nat → LaneType → LaneType → LaneType → Nat → Nat → Nat) :
    SameNext (vectorBinary view op a b c s) (vectorBinary view op a b c s') := by
  refine .checked ?_
  simp only [h.type, h.lane]
  split
  · exact .fault _ _
  · exact .next (h.writeLanes a _).advance

theorem SameButWriteBack.vectorUnary_sameNext (view : LaneType → LaneType) (op : LaneType → LaneType → Nat → Nat) :
    SameNext (vectorUnary view op a b s) (vectorUnary view op a b s') := by
  refine .checked ?_
  simp only [h.type, h.lane]
  split
  · exact .fault _ _
  · exact .next (h.writeLanes a _).advance

/-- What a load leaves is fixed by the operands and the views; its release is a write-back. -/
theorem SameButWriteBack.loadLar_sameNext (hs : s.UpToDate) (hs' : s'.UpToDate) (ty : LaneType) (simm : Int) :
    SameNext (loadLar ty a b c simm s) (loadLar ty a b c simm s') := by
  by_cases ha : a = 0
  · subst ha
    exact .checked (.next h.advance)
  intro t t' ht ht'
  obtain ⟨u, hu, rfl⟩ := loadLar_of_next ha ht
  obtain ⟨u', hu', rfl⟩ := loadLar_of_next ha ht'
  rw [← h.effectiveAddress] at hu' ⊢
  obtain ⟨r, d, hready, ho, he⟩ := State.acquire_pointAt hs.coherent ha hu ty
  obtain ⟨r', d', hready', ho', he'⟩ := State.acquire_pointAt hs'.coherent ha hu' ty
  have hr : SameButWriteBack r r' := (hready.written.same.symm.trans h).trans hready'.written.same
  have hview := hready.load_viewLine hs.clean ha ho ty
  have hview' := hready'.load_viewLine hs'.clean ha ho' ty
  rw [he, he']
  rw [← hr.view] at hview' ⊢
  exact (hr.repoint ha _ ty _ fun L => (hview L).trans ((h.view L).trans (hview' L).symm)).advance

theorem SameButWriteBack.storeLar_sameNext (hs : s.UpToDate) (hs' : s'.UpToDate) (ty : LaneType) (simm : Int) :
    SameNext (storeLar ty a b c simm s) (storeLar ty a b c simm s') := by
  by_cases ha : a = 0
  · subst ha
    exact .checked (.next h.advance)
  intro t t' ht ht'
  obtain ⟨u, hu, rfl⟩ := storeLar_of_next ha ht
  obtain ⟨u', hu', rfl⟩ := storeLar_of_next ha ht'
  rw [← h.effectiveAddress] at hu' ⊢
  obtain ⟨r, hready, he⟩ := State.stage_relabel hs.coherent hu ty
  obtain ⟨r', hready', he'⟩ := State.stage_relabel hs'.coherent hu' ty
  have hr : SameButWriteBack r r' := (hready.written.same.symm.trans h).trans hready'.written.same
  have hview := hready.store_viewLine hs.clean ha ty
  have hview' := hready'.store_viewLine hs'.clean ha ty
  rw [he, he']
  rw [← hr.data] at hview' ⊢
  refine ((hr.giveHolders a _).repoint ha _ ty _ fun L => ?_).advance
  rw [hview, hview', h.view, h.data]

end Schemes

/-- Of two states that differ only in what has been written back, an instruction makes two such states. -/
theorem SameButWriteBack.exec_sameNext {s s' : State} (h : SameButWriteBack s s') (hs : s.UpToDate)
    (hs' : s'.UpToDate) (i : Instr) : SameNext (exec i s) (exec i s') := by
  cases i with
  | adds a b c | subs a b c | slts a b c | ands a b c | orrs a b c | xors a b c | shls a b c | shrs a b c =>
    exact h.scalarBinary_sameNext a b c _ _
  | addv a b c | subv a b c | sltv a b c | mulv a b c | andv a b c | orrv a b c | xorv a b c | shlv a b c
  | shrv a b c => exact h.vectorBinary_sameNext a b c _ _
  | muls a b c =>
    change SameNext (scalarBinary id (mulOperation s.params.mulWidenSign) a b c s) _
    rw [h.params]
    exact h.scalarBinary_sameNext a b c _ _
  | divs a b c =>
    change SameNext (scalarBinary id (castBoth (divLane s.draws)) a b c (s.takeDraws a 1)) _
    rw [h.draws]
    exact (h.takeDraws a 1).scalarBinary_sameNext a b c _ _
  | divv a b c =>
    change SameNext (vectorBinary id (fun k => castBoth (divLane (s.draws + k))) a b c (s.takeDraws a 32)) _
    rw [h.draws]
    exact (h.takeDraws a 32).vectorBinary_sameNext a b c _ _
  | invs a b | nots a b => exact h.scalarUnary_sameNext a b _ _
  | invv a b | notv a b => exact h.vectorUnary_sameNext a b _ _
  | addsPc a v =>
    refine .checked (.next ?_)
    rw [State.pcPlus, State.pcPlus, h.type, h.pcv]
    exact (h.writeScalar a _).advance
  | addvPc a v =>
    refine .checked (.next ?_)
    rw [State.pcPlus, State.pcPlus, h.type, h.pcv]
    exact (h.writeLanes a _).advance
  | btru a v =>
    refine .checked (.next ?_)
    rw [State.scalarNonzero, State.scalarNonzero, State.branchTarget, State.branchTarget, h.sdata, h.pcv]
    split
    · exact h.setPc _
    · exact h.advance
  | bfal a v =>
    refine .checked (.next ?_)
    rw [State.scalarNonzero, State.scalarNonzero, State.branchTarget, State.branchTarget, h.sdata, h.pcv]
    split
    · exact h.advance
    · exact h.setPc _
  | jmp a =>
    refine .checked (.next ?_)
    rw [h.ext64]
    exact h.setPc _
  | ldu8 a b c v | lds8 a b c v | ldu16 a b c v | lds16 a b c v | ldu32 a b c v | lds32 a b c v | ldu64 a b c v
  | lds64 a b c v | ldf16 a b c v => exact h.loadLar_sameNext a b c hs hs' _ v
  | stu8 a b c v | sts8 a b c v | stu16 a b c v | sts16 a b c v | stu32 a b c v | sts32 a b c v | stu64 a b c v
  | sts64 a b c v | stf16 a b c v => exact h.storeLar_sameNext a b c hs hs' _ v

/-- Settles O26: every meaning reads only what the two states agree in, and a release changes no view. -/
theorem writeBackIsUnobservable : Obligations.WriteBackIsUnobservable :=
  fun i _ _ t t' hc hs hc' hs' h => h.exec_sameNext ⟨hc, hs⟩ ⟨hc', hs'⟩ i t t'

end Sys2Proof.Machine
end

section
/-!
The fields of a word in numbers (30_encoding.md R82 to R86), the part of the decoder that answers for each group (R81),
and the words that are no instruction (R90, R92), each executed as a NOP (60_exceptions.md R211) (the statement O7).
-/

namespace Sys2Proof

/-! ## The fields in numbers -/

theorem group_eq (w : IWord) : group w = w.toNat / 2 ^ 29 := by
  have hw := w.isLt
  rw [group, BitVec.extractLsb'_toNat, Nat.shiftRight_eq_div_pow]
  omega

theorem bit28_eq (w : IWord) : bit28 w = w.toNat / 2 ^ 28 % 2 := by
  rw [bit28, BitVec.extractLsb'_toNat, Nat.shiftRight_eq_div_pow]

/-- Bits 31:28 are the group and bit 28. -/
theorem top_eq (w : IWord) : w.toNat / 2 ^ 28 = 2 * group w + bit28 w := by
  rw [group_eq, bit28_eq]
  omega

theorem opcode_eq (w : IWord) : opcode w = w.toNat / 2 ^ 12 % 16 := by
  rw [opcode, BitVec.extractLsb'_toNat, Nat.shiftRight_eq_div_pow]

theorem ctlOpcode_eq (w : IWord) : ctlOpcode w = w.toNat / 2 ^ 20 % 16 := by
  rw [ctlOpcode, BitVec.extractLsb'_toNat, Nat.shiftRight_eq_div_pow]

theorem fieldA_val (w : IWord) : (fieldA w).val = w.toNat / 2 ^ 24 % 16 :=
  (BitVec.extractLsb'_toNat ..).trans (by rw [Nat.shiftRight_eq_div_pow])

theorem fieldB_val (w : IWord) : (fieldB w).val = w.toNat / 2 ^ 20 % 16 :=
  (BitVec.extractLsb'_toNat ..).trans (by rw [Nat.shiftRight_eq_div_pow])

theorem fieldC_val (w : IWord) : (fieldC w).val = w.toNat / 2 ^ 16 % 16 :=
  (BitVec.extractLsb'_toNat ..).trans (by rw [Nat.shiftRight_eq_div_pow])

theorem bit28_lt (w : IWord) : bit28 w < 2 := BitVec.isLt _

theorem opcode_lt (w : IWord) : opcode w < 16 := BitVec.isLt _

theorem ctlOpcode_lt (w : IWord) : ctlOpcode w < 16 := BitVec.isLt _

/-! ## The decoder, group by group -/

section Groups

variable {w : IWord}

theorem decodeWord_aluScalar (hg : group w = 0) (hb : bit28 w = 0) : decodeWord w = decodeAluScalar w := by
  simp only [decodeWord, hg, hb]

theorem decodeWord_aluVector (hg : group w = 0) (hb : bit28 w = 1) : decodeWord w = decodeAluVector w := by
  simp only [decodeWord, hg, hb]

theorem decodeWord_ctl (hg : group w = 1) (hb : bit28 w = 0) : decodeWord w = decodeCtl w := by
  simp only [decodeWord, hg, hb]

theorem decodeWord_load (hg : group w = 2) (hb : bit28 w = 0) : decodeWord w = decodeLoad w := by
  simp only [decodeWord, hg, hb]

theorem decodeWord_store (hg : group w = 3) (hb : bit28 w = 0) : decodeWord w = decodeStore w := by
  simp only [decodeWord, hg, hb]

end Groups

/-! ## The invalid words -/

/-- The words the spec calls invalid, by group, opcode and bit 28 (30_encoding.md R90, R92). -/
abbrev InvalidFields (w : IWord) : Prop :=
  (group w = 0 ∧ 0xd ≤ opcode w) ∨ (group w = 1 ∧ 0x3 ≤ ctlOpcode w) ∨
    ((group w = 2 ∨ group w = 3) ∧ 0x9 ≤ opcode w) ∨
    ((group w = 1 ∨ group w = 2 ∨ group w = 3) ∧ bit28 w = 1) ∨ 4 ≤ group w

theorem decodeAluScalar_error_iff (w : IWord) : (∃ r, decodeAluScalar w = .error r) ↔ 0xd ≤ opcode w := by
  have ho := opcode_lt w
  unfold decodeAluScalar
  generalize opcode w = o at *
  interval_cases o <;> simp

theorem decodeAluVector_error_iff (w : IWord) : (∃ r, decodeAluVector w = .error r) ↔ 0xd ≤ opcode w := by
  have ho := opcode_lt w
  unfold decodeAluVector
  generalize opcode w = o at *
  interval_cases o <;> simp

theorem decodeCtl_error_iff (w : IWord) : (∃ r, decodeCtl w = .error r) ↔ 0x3 ≤ ctlOpcode w := by
  have ho := ctlOpcode_lt w
  unfold decodeCtl
  generalize ctlOpcode w = o at *
  interval_cases o <;> simp

theorem decodeLoad_error_iff (w : IWord) : (∃ r, decodeLoad w = .error r) ↔ 0x9 ≤ opcode w := by
  have ho := opcode_lt w
  unfold decodeLoad
  generalize opcode w = o at *
  interval_cases o <;> simp

theorem decodeStore_error_iff (w : IWord) : (∃ r, decodeStore w = .error r) ↔ 0x9 ≤ opcode w := by
  have ho := opcode_lt w
  unfold decodeStore
  generalize opcode w = o at *
  interval_cases o <;> simp

theorem decodeWord_error_iff (w : IWord) : (∃ r, decodeWord w = .error r) ↔ InvalidFields w := by
  have hb := bit28_lt w
  have hbit : bit28 w ≠ 0 → bit28 w = 1 := by omega
  unfold decodeWord
  split
  · next hg h0 => simp [InvalidFields, decodeAluScalar_error_iff, hg]
  · next hg h0 => simp [InvalidFields, decodeAluVector_error_iff, hg]
  · next hg h0 => simp [InvalidFields, decodeCtl_error_iff, hg, h0]
  · next hg h0 => simp [InvalidFields, decodeLoad_error_iff, hg, h0]
  · next hg h0 => simp [InvalidFields, decodeStore_error_iff, hg, h0]
  case h_6 hg h0 | h_7 hg h0 | h_8 hg h0 => simp [InvalidFields, hg, hbit h0]
  · next n0 n1 n2 n3 _ _ _ _ =>
    have hne : group w ≠ 0 ∧ group w ≠ 1 ∧ group w ≠ 2 ∧ group w ≠ 3 := ⟨n0, n1, n2, n3⟩
    have h4 : 4 ≤ group w := by omega
    simp [InvalidFields, h4]

namespace Machine

theorem step_of_invalid {s : State} {w : IWord} {r : Invalid} (hf : s.betweenInstructions.fetch = .ok w)
    (hd : decodeWord w = .error r) : step s = .next s.betweenInstructions.advance := by
  simp only [step, hf, hd]

/-- Settles O7: the decoder's default arms are the undefined opcodes and groups and bit 28, and the step answers each
with `advance`. -/
theorem invalidWordsAreNops : Obligations.InvalidWordsAreNops :=
  ⟨decodeWord_error_iff, fun _ _ _ => step_of_invalid⟩

end Machine
end Sys2Proof
end

section
/-!
The word of an instruction and the instruction of a word: each format word decodes to what it was put together from, and
a word that decodes is the format word of its fields (30_encoding.md R82 to R91) (the statements O1 and O4).
-/

namespace Sys2Proof

/-! ## Decoding a format word -/

@[simp] theorem decodeWord_aluWord_scalar (o : BitVec 4) (a b c : Reg) (v : Int) :
    decodeWord (aluWord 0#1 o a b c v) = decodeAluScalar (aluWord 0#1 o a b c v) :=
  decodeWord_aluScalar (aluWord_group ..) (aluWord_bit28 ..)

@[simp] theorem decodeWord_aluWord_vector (o : BitVec 4) (a b c : Reg) (v : Int) :
    decodeWord (aluWord 1#1 o a b c v) = decodeAluVector (aluWord 1#1 o a b c v) :=
  decodeWord_aluVector (aluWord_group ..) (aluWord_bit28 ..)

@[simp] theorem decodeWord_ctlWord (o : BitVec 4) (a : Reg) (v : Int) :
    decodeWord (ctlWord o a v) = decodeCtl (ctlWord o a v) :=
  decodeWord_ctl (ctlWord_group ..) (ctlWord_bit28 ..)

@[simp] theorem decodeWord_loadWord (o : BitVec 4) (a b c : Reg) (v : Int) :
    decodeWord (loadWord o a b c v) = decodeLoad (loadWord o a b c v) :=
  decodeWord_load (loadWord_group ..) (loadWord_bit28 ..)

@[simp] theorem decodeWord_storeWord (o : BitVec 4) (a b c : Reg) (v : Int) :
    decodeWord (storeWord o a b c v) = decodeStore (storeWord o a b c v) :=
  decodeWord_store (storeWord_group ..) (storeWord_bit28 ..)

/-- Settles O1: by format, the decoder reads back the group, the opcode and the operands of the word. -/
theorem decodeOfEncodeGivesTheInstruction : Obligations.DecodeOfEncodeGivesTheInstruction := by
  intro i h
  cases i with
  | adds | subs | slts | muls | divs | ands | orrs | xors | shls | shrs | invs | nots =>
    simp [encode, decodeAluScalar]
  | addv | subv | sltv | mulv | divv | andv | orrv | xorv | shlv | shrv | invv | notv =>
    simp [encode, decodeAluVector]
  | addsPc a v => simp [encode, decodeAluScalar, aluWord_simm12 _ _ _ _ _ _ h]
  | addvPc a v => simp [encode, decodeAluVector, aluWord_simm12 _ _ _ _ _ _ h]
  | btru a v | bfal a v => simp [encode, decodeCtl, ctlWord_simm20 _ _ _ h]
  | jmp => simp [encode, decodeCtl]
  | ldu8 a b c v | lds8 a b c v | ldu16 a b c v | lds16 a b c v | ldu32 a b c v | lds32 a b c v | ldu64 a b c v
  | lds64 a b c v | ldf16 a b c v => simp [encode, decodeLoad, loadWord_simm12 _ _ _ _ _ h]
  | stu8 a b c v | sts8 a b c v | stu16 a b c v | sts16 a b c v | stu32 a b c v | sts32 a b c v | stu64 a b c v
  | sts64 a b c v | stf16 a b c v => simp [encode, decodeStore, storeWord_simm12 _ _ _ _ _ h]

/-! ## A word is the format word of its fields -/

theorem regBits_fieldA_toNat (w : IWord) : (regBits (fieldA w)).toNat = w.toNat / 2 ^ 24 % 16 := fieldA_val w

theorem regBits_fieldB_toNat (w : IWord) : (regBits (fieldB w)).toNat = w.toNat / 2 ^ 20 % 16 := fieldB_val w

theorem regBits_fieldC_toNat (w : IWord) : (regBits (fieldC w)).toNat = w.toNat / 2 ^ 16 % 16 := fieldC_val w

theorem ofInt_simm12_toNat (w : IWord) : (BitVec.ofInt 12 (simm12 w)).toNat = w.toNat % 2 ^ 12 := by
  rw [simm12, BitVec.ofInt_toInt, BitVec.extractLsb'_toNat, Nat.shiftRight_zero]

theorem ofInt_simm20_toNat (w : IWord) : (BitVec.ofInt 20 (simm20 w)).toNat = w.toNat % 2 ^ 20 := by
  rw [simm20, BitVec.ofInt_toInt, BitVec.extractLsb'_toNat, Nat.shiftRight_zero]

section Fields

variable {w : IWord} {t : BitVec 1} {o : BitVec 4}

theorem eq_aluWord (hg : group w = 0) (hb : bit28 w = t.toNat) (ho : opcode w = o.toNat) :
    w = aluWord t o (fieldA w) (fieldB w) (fieldC w) (simm12 w) := by
  apply BitVec.eq_of_toNat_eq
  simp only [aluWord, toNat_append_eq_add, regBits_fieldA_toNat, regBits_fieldB_toNat, regBits_fieldC_toNat,
    ofInt_simm12_toNat, BitVec.toNat_ofNat, ← ho, ← hb, bit28_eq, opcode_eq]
  rw [group_eq] at hg
  omega

theorem eq_loadWord (hg : group w = 2) (hb : bit28 w = 0) (ho : opcode w = o.toNat) :
    w = loadWord o (fieldA w) (fieldB w) (fieldC w) (simm12 w) := by
  apply BitVec.eq_of_toNat_eq
  simp only [loadWord, toNat_append_eq_add, regBits_fieldA_toNat, regBits_fieldB_toNat, regBits_fieldC_toNat,
    ofInt_simm12_toNat, BitVec.toNat_ofNat, ← ho, opcode_eq]
  rw [group_eq] at hg
  rw [bit28_eq] at hb
  omega

theorem eq_storeWord (hg : group w = 3) (hb : bit28 w = 0) (ho : opcode w = o.toNat) :
    w = storeWord o (fieldA w) (fieldB w) (fieldC w) (simm12 w) := by
  apply BitVec.eq_of_toNat_eq
  simp only [storeWord, toNat_append_eq_add, regBits_fieldA_toNat, regBits_fieldB_toNat, regBits_fieldC_toNat,
    ofInt_simm12_toNat, BitVec.toNat_ofNat, ← ho, opcode_eq]
  rw [group_eq] at hg
  rw [bit28_eq] at hb
  omega

theorem eq_ctlWord (hg : group w = 1) (hb : bit28 w = 0) (ho : ctlOpcode w = o.toNat) :
    w = ctlWord o (fieldA w) (simm20 w) := by
  apply BitVec.eq_of_toNat_eq
  simp only [ctlWord, toNat_append_eq_add, regBits_fieldA_toNat, ofInt_simm20_toNat, BitVec.toNat_ofNat, ← ho,
    ctlOpcode_eq]
  rw [group_eq] at hg
  rw [bit28_eq] at hb
  omega

end Fields

/-! ## Clearing the unused bits (30_encoding.md R91) -/

section Masks

variable (t : BitVec 1) (o : BitVec 4) (a b c : Reg) (v : Int)

/-- ALU opcodes 0x0 to 0x9 do not use bits 11:0. -/
theorem aluWord_clear_imm : aluWord t o a b c v &&& 0xFFFFF000 = aluWord t o a b c 0 := by
  apply BitVec.eq_of_getLsbD_eq
  intro k hk
  rw [BitVec.getLsbD_and, aluWord_bit, aluWord_bit]
  simp only [BitVec.getLsbD_append]
  interval_cases k <;> simp

/-- `inv` and `not` do not use bits 19:16 and 11:0. -/
theorem aluWord_clear_src1_imm : aluWord t o a b c v &&& 0xFFF0F000 = aluWord t o a b 0 0 := by
  apply BitVec.eq_of_getLsbD_eq
  intro k hk
  rw [BitVec.getLsbD_and, aluWord_bit, aluWord_bit]
  simp only [BitVec.getLsbD_append]
  interval_cases k <;> simp [regBits]

/-- ALU opcode 0xc does not use bits 23:16. -/
theorem aluWord_clear_srcs : aluWord t o a b c v &&& 0xFF00FFFF = aluWord t o a 0 0 v := by
  apply BitVec.eq_of_getLsbD_eq
  intro k hk
  rw [BitVec.getLsbD_and, aluWord_bit, aluWord_bit]
  simp only [BitVec.getLsbD_append]
  interval_cases k <;> simp [regBits]

/-- `jmp` does not use bits 19:0. -/
theorem ctlWord_clear_imm : ctlWord o a v &&& 0xFFF00000 = ctlWord o a 0 := by
  apply BitVec.eq_of_getLsbD_eq
  intro k hk
  rw [BitVec.getLsbD_and, ctlWord_bit, ctlWord_bit]
  simp only [BitVec.getLsbD_append]
  interval_cases k <;> simp

end Masks

/-- The bits that the instruction of a valid word uses (30_encoding.md R91). -/
def usedBits (w : IWord) : IWord :=
  if group w = 0 then
    if opcode w < 0xa then 0xFFFFF000 else if opcode w < 0xc then 0xFFF0F000 else 0xFF00FFFF
  else if group w = 1 ∧ 2 ≤ ctlOpcode w then 0xFFF00000
  else 0xFFFFFFFF

section UsedBits

variable {w : IWord}

theorem usedBits_binary (hg : group w = 0) (ho : opcode w < 0xa) : usedBits w = 0xFFFFF000 := by
  rw [usedBits, if_pos hg, if_pos ho]

theorem usedBits_unary (hg : group w = 0) (ho : opcode w = 0xa ∨ opcode w = 0xb) : usedBits w = 0xFFF0F000 := by
  rw [usedBits, if_pos hg, if_neg (by omega), if_pos (by omega)]

theorem usedBits_addPc (hg : group w = 0) (ho : opcode w = 0xc) : usedBits w = 0xFF00FFFF := by
  rw [usedBits, if_pos hg, if_neg (by omega), if_neg (by omega)]

theorem usedBits_jmp (hg : group w = 1) (ho : ctlOpcode w = 2) : usedBits w = 0xFFF00000 := by
  rw [usedBits, if_neg (by omega), if_pos (by omega)]

/-- A load, a store and a relative branch use every bit. -/
theorem and_usedBits_full (hg : group w = 2 ∨ group w = 3 ∨ (group w = 1 ∧ ctlOpcode w < 2)) :
    w &&& usedBits w = w := by
  rw [usedBits, if_neg (by omega), if_neg (by omega)]
  exact BitVec.and_allOnes

variable {t : BitVec 1} {o : BitVec 4}

theorem aluWord_eq_and_of_binary (hg : group w = 0) (hb : bit28 w = t.toNat) (ho : opcode w = o.toNat)
    (hlt : o.toNat < 0xa) : aluWord t o (fieldA w) (fieldB w) (fieldC w) 0 = w &&& usedBits w := by
  rw [usedBits_binary hg (ho ▸ hlt), ← aluWord_clear_imm _ _ _ _ _ (simm12 w), ← eq_aluWord hg hb ho]

theorem aluWord_eq_and_of_unary (hg : group w = 0) (hb : bit28 w = t.toNat) (ho : opcode w = o.toNat)
    (hor : o.toNat = 0xa ∨ o.toNat = 0xb) : aluWord t o (fieldA w) (fieldB w) 0 0 = w &&& usedBits w := by
  rw [usedBits_unary hg (ho ▸ hor), ← aluWord_clear_src1_imm _ _ _ _ (fieldC w) (simm12 w), ← eq_aluWord hg hb ho]

theorem aluWord_eq_and_of_addPc (hg : group w = 0) (hb : bit28 w = t.toNat) (ho : opcode w = 0xc) :
    aluWord t 0xc (fieldA w) 0 0 (simm12 w) = w &&& usedBits w := by
  rw [usedBits_addPc hg ho, ← aluWord_clear_srcs _ _ _ (fieldB w) (fieldC w), ← eq_aluWord (o := 0xc) hg hb ho]

theorem ctlWord_eq_and_of_jmp (hg : group w = 1) (hb : bit28 w = 0) (ho : ctlOpcode w = 2) :
    ctlWord 2 (fieldA w) 0 = w &&& usedBits w := by
  rw [usedBits_jmp hg ho, ← ctlWord_clear_imm _ _ (simm20 w), ← eq_ctlWord (o := 2) hg hb ho]

theorem ctlWord_eq_and_of_branch (hg : group w = 1) (hb : bit28 w = 0) (ho : ctlOpcode w = o.toNat)
    (hlt : o.toNat < 2) : ctlWord o (fieldA w) (simm20 w) = w &&& usedBits w := by
  rw [and_usedBits_full (.inr (.inr ⟨hg, ho ▸ hlt⟩)), ← eq_ctlWord hg hb ho]

theorem loadWord_eq_and (hg : group w = 2) (hb : bit28 w = 0) (ho : opcode w = o.toNat) :
    loadWord o (fieldA w) (fieldB w) (fieldC w) (simm12 w) = w &&& usedBits w := by
  rw [and_usedBits_full (.inl hg), ← eq_loadWord hg hb ho]

theorem storeWord_eq_and (hg : group w = 3) (hb : bit28 w = 0) (ho : opcode w = o.toNat) :
    storeWord o (fieldA w) (fieldB w) (fieldC w) (simm12 w) = w &&& usedBits w := by
  rw [and_usedBits_full (.inr (.inl hg)), ← eq_storeWord hg hb ho]

end UsedBits

/-! ## What decoding establishes -/

theorem simm12_fits (w : IWord) : fitsSigned 12 (simm12 w) = true := by
  have h := simm12_range w
  rw [fitsSigned, Bool.and_eq_true, decide_eq_true_eq, decide_eq_true_eq]
  omega

theorem simm20_fits (w : IWord) : fitsSigned 20 (simm20 w) = true := by
  have h := simm20_range w
  rw [fitsSigned, Bool.and_eq_true, decide_eq_true_eq, decide_eq_true_eq]
  omega

/-- The mask of the rows of a word's group (30_encoding.md R93). -/
def rowMask (w : IWord) : IWord := if group w = 1 then 0xF0F00000 else 0xF000F000

/-- `i` is the instruction of `w`: its word is `w` without the unused bits, its row has the mask of the group of `w`,
and its immediate fits. -/
structure DecodesTo (w : IWord) (i : Instr) : Prop where
  encode_eq : encode i = w &&& usedBits w
  row_mask : i.row.mask = rowMask w
  wellFormed : i.wellFormed = true

section DecodesTo

variable {w : IWord} {i : Instr}

theorem decodeAluScalar_decodesTo (hg : group w = 0) (hb : bit28 w = 0) (h : decodeAluScalar w = .ok i) :
    DecodesTo w i := by
  have hm : rowMask w = 0xF000F000 := if_neg (by omega)
  unfold decodeAluScalar at h
  split at h <;> cases h
  case h_11 ho | h_12 ho => exact ⟨aluWord_eq_and_of_unary (t := 0) hg hb ho (by decide), hm.symm, rfl⟩
  case h_13 ho => exact ⟨aluWord_eq_and_of_addPc (t := 0) hg hb ho, hm.symm, simm12_fits w⟩
  all_goals exact ⟨aluWord_eq_and_of_binary (t := 0) hg hb ‹_› (by decide), hm.symm, rfl⟩

theorem decodeAluVector_decodesTo (hg : group w = 0) (hb : bit28 w = 1) (h : decodeAluVector w = .ok i) :
    DecodesTo w i := by
  have hm : rowMask w = 0xF000F000 := if_neg (by omega)
  unfold decodeAluVector at h
  split at h <;> cases h
  case h_11 ho | h_12 ho => exact ⟨aluWord_eq_and_of_unary (t := 1) hg hb ho (by decide), hm.symm, rfl⟩
  case h_13 ho => exact ⟨aluWord_eq_and_of_addPc (t := 1) hg hb ho, hm.symm, simm12_fits w⟩
  all_goals exact ⟨aluWord_eq_and_of_binary (t := 1) hg hb ‹_› (by decide), hm.symm, rfl⟩

theorem decodeCtl_decodesTo (hg : group w = 1) (hb : bit28 w = 0) (h : decodeCtl w = .ok i) : DecodesTo w i := by
  have hm : rowMask w = 0xF0F00000 := if_pos hg
  unfold decodeCtl at h
  split at h <;> cases h
  case h_1 ho | h_2 ho => exact ⟨ctlWord_eq_and_of_branch hg hb ho (by decide), hm.symm, simm20_fits w⟩
  case h_3 ho => exact ⟨ctlWord_eq_and_of_jmp hg hb ho, hm.symm, rfl⟩

theorem decodeLoad_decodesTo (hg : group w = 2) (hb : bit28 w = 0) (h : decodeLoad w = .ok i) : DecodesTo w i := by
  have hm : rowMask w = 0xF000F000 := if_neg (by omega)
  unfold decodeLoad at h
  split at h <;> cases h
  all_goals exact ⟨loadWord_eq_and hg hb ‹_›, hm.symm, simm12_fits w⟩

theorem decodeStore_decodesTo (hg : group w = 3) (hb : bit28 w = 0) (h : decodeStore w = .ok i) : DecodesTo w i := by
  have hm : rowMask w = 0xF000F000 := if_neg (by omega)
  unfold decodeStore at h
  split at h <;> cases h
  all_goals exact ⟨storeWord_eq_and hg hb ‹_›, hm.symm, simm12_fits w⟩

theorem decodeWord_decodesTo (h : decodeWord w = .ok i) : DecodesTo w i := by
  rcases decodeWord_cases h with ⟨hg, hb, hd⟩ | ⟨hg, hb, hd⟩ | ⟨hg, hb, hd⟩ | ⟨hg, hb, hd⟩ | ⟨hg, hb, hd⟩
  · exact decodeAluScalar_decodesTo hg hb hd
  · exact decodeAluVector_decodesTo hg hb hd
  · exact decodeCtl_decodesTo hg hb hd
  · exact decodeLoad_decodesTo hg hb hd
  · exact decodeStore_decodesTo hg hb hd

end DecodesTo

/-! ## The instruction that the bits name (30_encoding.md R88, R89) -/

section Opcodes

variable {w : IWord}

theorem decodeAluScalar_binary {f : Reg → Reg → Reg → Instr}
    (h : [Instr.adds, .subs, .slts, .muls, .divs, .ands, .orrs, .xors, .shls, .shrs][opcode w]? = some f) :
    decodeAluScalar w = .ok (f (fieldA w) (fieldB w) (fieldC w)) := by
  unfold decodeAluScalar
  have ho := (List.getElem?_eq_some_iff.mp h).1
  generalize opcode w = o at *
  simp only [List.length_cons, List.length_nil] at ho
  interval_cases o <;> cases h <;> rfl

theorem decodeAluVector_binary {f : Reg → Reg → Reg → Instr}
    (h : [Instr.addv, .subv, .sltv, .mulv, .divv, .andv, .orrv, .xorv, .shlv, .shrv][opcode w]? = some f) :
    decodeAluVector w = .ok (f (fieldA w) (fieldB w) (fieldC w)) := by
  unfold decodeAluVector
  have ho := (List.getElem?_eq_some_iff.mp h).1
  generalize opcode w = o at *
  simp only [List.length_cons, List.length_nil] at ho
  interval_cases o <;> cases h <;> rfl

theorem decodeLoad_of_loadInstrs {p : (Reg → Reg → Reg → Int → Instr) × Machine.LaneType}
    (h : Machine.loadInstrs[opcode w]? = some p) :
    decodeLoad w = .ok (p.1 (fieldA w) (fieldB w) (fieldC w) (simm12 w)) := by
  unfold decodeLoad
  have ho := (List.getElem?_eq_some_iff.mp h).1
  generalize opcode w = o at *
  simp only [Machine.loadInstrs, List.length_cons, List.length_nil] at ho
  interval_cases o <;> cases h <;> rfl

theorem decodeStore_of_storeInstrs {p : (Reg → Reg → Reg → Int → Instr) × Machine.LaneType}
    (h : Machine.storeInstrs[opcode w]? = some p) :
    decodeStore w = .ok (p.1 (fieldA w) (fieldB w) (fieldC w) (simm12 w)) := by
  unfold decodeStore
  have ho := (List.getElem?_eq_some_iff.mp h).1
  generalize opcode w = o at *
  simp only [Machine.storeInstrs, List.length_cons, List.length_nil] at ho
  interval_cases o <;> cases h <;> rfl

end Opcodes

/-- Settles O4: what a word decodes to has the word without the unused bits, and each arm of the decoder is a row of R88
or R89. -/
theorem encodeOfDecodeGivesTheWord : Obligations.EncodeOfDecodeGivesTheWord := by
  refine ⟨fun w i h => ?_, fun w a b c top o htop ho ha hb hc => ?_⟩
  · rw [(decodeWord_decodesTo h).encode_eq]
    exact ⟨fun hg ho => by rw [usedBits_binary hg ho], fun hg ho => by rw [usedBits_unary hg ho],
      fun hg ho => by rw [usedBits_addPc hg ho], fun hg ho => by rw [usedBits_jmp hg ho], and_usedBits_full⟩
  · obtain rfl : a = fieldA w := Fin.ext (ha.trans (fieldA_val w).symm)
    obtain rfl : b = fieldB w := Fin.ext (hb.trans (fieldB_val w).symm)
    obtain rfl : c = fieldC w := Fin.ext (hc.trans (fieldC_val w).symm)
    obtain rfl : o = opcode w := ho.trans (opcode_eq w).symm
    have hctl : (fieldB w).val = ctlOpcode w := rfl
    have hbit := bit28_lt w
    rw [top_eq] at htop
    refine ⟨fun h f hf => ?_, fun h f hf => ?_, fun h => ?_, fun h => ?_, fun h => ?_, fun h p hp => ?_,
      fun h p hp => ?_⟩
    · rw [decodeWord_aluScalar (by omega) (by omega), decodeAluScalar_binary hf]
    · rw [decodeWord_aluVector (by omega) (by omega), decodeAluVector_binary hf]
    · rw [decodeWord_aluScalar (by omega) (by omega), decodeAluScalar]
      exact ⟨fun ho => by simp only [ho], fun ho => by simp only [ho], fun ho => ⟨simm12 w, by simp only [ho]⟩⟩
    · rw [decodeWord_aluVector (by omega) (by omega), decodeAluVector]
      exact ⟨fun ho => by simp only [ho], fun ho => by simp only [ho], fun ho => ⟨simm12 w, by simp only [ho]⟩⟩
    · rw [decodeWord_ctl (by omega) (by omega), decodeCtl, hctl]
      exact ⟨fun ho => ⟨simm20 w, by simp only [ho]⟩, fun ho => ⟨simm20 w, by simp only [ho]⟩,
        fun ho => by simp only [ho]⟩
    · rw [decodeWord_load (by omega) (by omega)]
      exact ⟨simm12 w, decodeLoad_of_loadInstrs hp⟩
    · rw [decodeWord_store (by omega) (by omega)]
      exact ⟨simm12 w, decodeStore_of_storeInstrs hp⟩

end Sys2Proof
end

section
/-!
The opcode table (30_encoding.md R93): a word that decodes selects the row of its instruction, an invalid word selects
none, and no word selects two (the statements O2 and O3).
-/

namespace Sys2Proof

/-! ## The row of a decoded word -/

open Laws.RowBits in
theorem encode_and_row_mask (i : Instr) : encode i &&& i.row.mask = i.row.pattern :=
  i.casesOn (motive := Statement) adds addv subs subv slts sltv muls mulv divs divv ands andv orrs orrv xors xorv shls
    shlv shrs shrv invs invv nots notv addsPc addvPc btru bfal jmp ldu8 lds8 ldu16 lds16 ldu32 lds32 ldu64 lds64 ldf16
    stu8 sts8 stu16 sts16 stu32 sts32 stu64 sts64 stf16

theorem row_mem_opcodeTable (i : Instr) : i.row ∈ opcodeTable := by
  cases i <;> exact List.mem_of_elem_eq_true rfl

/-- The fixed bits and the opcode of a word are among the bits its instruction uses. -/
theorem usedBits_and_rowMask (w : IWord) : usedBits w &&& rowMask w = rowMask w := by
  by_cases hg : group w = 1
  · rw [rowMask, if_pos hg, usedBits, if_neg (by omega)]
    split <;> rfl
  · simp only [rowMask, usedBits, hg, false_and, if_false]
    split_ifs <;> rfl

theorem DecodesTo.selects {w : IWord} {i : Instr} (h : DecodesTo w i) : w &&& i.row.mask = i.row.pattern :=
  calc w &&& i.row.mask
    _ = w &&& (usedBits w &&& i.row.mask) := by rw [h.row_mask, usedBits_and_rowMask]
    _ = encode i &&& i.row.mask := by rw [h.encode_eq, BitVec.and_assoc]
    _ = i.row.pattern := encode_and_row_mask i

/-- Settles O2: the row's mask keeps only bits that the instruction uses. -/
theorem decodedWordSelectsItsRow : Obligations.DecodedWordSelectsItsRow := fun _ i h =>
  have hd := decodeWord_decodesTo h
  ⟨hd.selects, hd.wellFormed, row_mem_opcodeTable i⟩

/-! ## The rows a word selects -/

section Keep

variable {w m : IWord}

theorem group_and (hm : m.extractLsb' 29 3 = BitVec.allOnes 3) : group (w &&& m) = group w := by
  rw [group, BitVec.extractLsb'_and, hm, BitVec.and_allOnes, group]

theorem bit28_and (hm : m.extractLsb' 28 1 = BitVec.allOnes 1) : bit28 (w &&& m) = bit28 w := by
  rw [bit28, BitVec.extractLsb'_and, hm, BitVec.and_allOnes, bit28]

theorem opcode_and (hm : m.extractLsb' 12 4 = BitVec.allOnes 4) : opcode (w &&& m) = opcode w := by
  rw [opcode, BitVec.extractLsb'_and, hm, BitVec.and_allOnes, opcode]

theorem ctlOpcode_and (hm : m.extractLsb' 20 4 = BitVec.allOnes 4) : ctlOpcode (w &&& m) = ctlOpcode w := by
  rw [ctlOpcode, BitVec.extractLsb'_and, hm, BitVec.and_allOnes, ctlOpcode]

end Keep

/-- Each row is a defined encoding whose mask keeps the group, bit 28 and the opcode of its group. -/
theorem opcodeTable_rows : ∀ row ∈ opcodeTable, ¬InvalidFields row.pattern ∧
    row.mask.extractLsb' 29 3 = BitVec.allOnes 3 ∧ row.mask.extractLsb' 28 1 = BitVec.allOnes 1 ∧
    (if group row.pattern = 1 then row.mask.extractLsb' 20 4 else row.mask.extractLsb' 12 4) = BitVec.allOnes 4 := by
  decide

theorem not_invalidFields_of_selects {w : IWord} {row : OpcodeRow} (hr : row ∈ opcodeTable)
    (hs : w &&& row.mask = row.pattern) : ¬InvalidFields w := by
  obtain ⟨hv, hmg, hmb, hmo⟩ := opcodeTable_rows row hr
  rw [← hs] at hv hmo
  rw [group_and hmg] at hmo
  unfold InvalidFields at hv ⊢
  rw [group_and hmg, bit28_and hmb] at hv
  split at hmo
  · next hg =>
    rw [ctlOpcode_and hmo] at hv
    simpa [hg] using hv
  · next hg =>
    rw [opcode_and hmo] at hv
    simpa [hg] using hv

/-- Any two rows differ in a bit that both fix. -/
theorem opcodeTable_pairwise : opcodeTable.Pairwise fun r q => r.pattern &&& q.mask ≠ q.pattern &&& r.mask := by
  decide

theorem pattern_and_mask_of_selects_both {w : IWord} {r q : OpcodeRow} (hr : w &&& r.mask = r.pattern)
    (hq : w &&& q.mask = q.pattern) : r.pattern &&& q.mask = q.pattern &&& r.mask := by
  rw [← hr, ← hq, BitVec.and_assoc, BitVec.and_assoc, BitVec.and_comm r.mask]

/-- Settles O3: an invalid word selects no row because each row fixes a defined group and opcode; a word that selects no
row cannot decode, since it would select its instruction's. -/
theorem invalidWordsSelectNoRow : Obligations.InvalidWordsSelectNoRow := by
  refine ⟨fun w => ⟨fun h row hr hs => ?_, fun h => ?_⟩, rfl, opcodeTable_pairwise.imp fun hne w hw => ?_⟩
  · exact not_invalidFields_of_selects hr hs ((decodeWord_error_iff w).mp h)
  · cases hd : decodeWord w with
    | error r => exact ⟨r, rfl⟩
    | ok i => exact absurd (decodeWord_decodesTo hd).selects (h i.row (row_mem_opcodeTable i))
  · exact hne (pattern_and_mask_of_selects_both hw.1 hw.2)

end Sys2Proof
end

section
/-!
What an instruction leaves of the address, the type and the tagged bit of a Data LAR (40_alu.md R113, 42_load.md R172,
43_store.md R190), and where the lane counts of a vector instruction stop it (40_alu.md R114) (the statements O6, O23
and O29).
-/

namespace Sys2Proof

theorem decodeWord_of_encode_eq {w : IWord} {i : Instr} (hw : encode i = w) (hi : i.wellFormed = true) :
    decodeWord w = .ok i :=
  hw ▸ decodeOfEncodeGivesTheInstruction i hi

/-- Settles O6: each word is the encoding of its instruction. -/
theorem wordsOfTheSpecDecode : Obligations.WordsOfTheSpecDecode :=
  ⟨decodeWord_of_encode_eq rfl rfl, decodeWord_of_encode_eq rfl rfl, decodeWord_of_encode_eq rfl rfl,
    decodeWord_of_encode_eq rfl rfl, decodeWord_of_encode_eq rfl rfl, decodeWord_of_encode_eq rfl rfl,
    decodeWord_of_encode_eq rfl rfl⟩

namespace Machine

/-! ## The label of a Data LAR -/

/-- What a record says of its data: all its fields but the data and the dirty bit (10_state.md R21, R39). -/
def DataLar.label (d : DataLar) : DataLar := { d with data := 0, dirty := false }

/-- Records with one label have one address, one type and one tagged bit. -/
theorem DataLar.fields_of_label_eq {d e : DataLar} (h : d.label = e.label) :
    d.addr = e.addr ∧ d.type = e.type ∧ d.tagged = e.tagged :=
  ⟨(congrArg DataLar.addr h :), (congrArg DataLar.type h :), (congrArg DataLar.tagged h :)⟩

theorem State.setData_label (s : State) (a : Reg) (v : Line) (r : Reg) :
    ((s.setData a v).dlar r).label = (s.dlar r).label := by
  by_cases ha : a = 0
  · rw [ha, State.setData_dzero]
  · rw [State.setData_dlar s ha]
    split <;> rfl

theorem State.release_label {s u : State} {a : Reg} (h : s.release a = .ok u) (r : Reg) :
    (u.dlar r).label = (s.dlar r).label := by
  rcases s.release_cases a with ⟨-, hr⟩ | ⟨-, -, -, hr⟩ | ⟨-, -, -, hr⟩ <;> cases hr.symm.trans h
  · rfl
  · rw [State.writeBack_dlar]
    split <;> rfl

theorem State.fillFrom_dlar_other {s u : State} {a : Reg} {L : Nat} (h : s.fillFrom a L = .ok u) {r : Reg}
    (hr : r ≠ a) : u.dlar r = s.dlar r := by
  rcases s.fillFrom_cases a L with ⟨k, -, hf⟩ | ⟨-, -, hf⟩ | ⟨-, -, hf⟩ <;> cases hf.symm.trans h
  all_goals exact State.setDlar_dlar_other _ _ _ hr

theorem State.acquire_label {s u : State} {a : Reg} {L : Nat} (h : s.acquire a L = .ok u) {r : Reg} (hr : r ≠ a) :
    (u.dlar r).label = (s.dlar r).label := by
  rcases State.acquire_cases h with ⟨-, rfl⟩ | ⟨-, q, hq, hf⟩
  · rfl
  · rw [State.fillFrom_dlar_other hf hr, State.release_label hq]

theorem State.stage_label {s u : State} {a : Reg} {L : Nat} (h : s.stage a L = .ok u) (r : Reg) :
    (u.dlar r).label = (s.dlar r).label := by
  rcases State.stage_cases h with ⟨-, rfl⟩ | ⟨-, q, hq, rfl⟩
  · rw [State.dirtyHolders_dlar]
    split <;> rfl
  · rw [← State.release_label hq, State.giveHolders_dlar]
    split <;> rfl

/-- Every effect of an instruction keeps the label of each Data LAR but the one it repoints. -/
theorem ExecEffect.label {q : Option Reg} {s t : State} (h : ExecEffect q s t) {r : Reg} (hr : q ≠ some r) :
    (t.dlar r).label = (s.dlar r).label := by
  cases h with
  | jumps => rfl
  | writesData a n v => rw [State.advance_dlar, State.setData_label, State.takeDraws_dlar]
  | loads ty hq ha hu =>
    have hra : r ≠ _ := fun h => hr (h ▸ hq)
    rw [State.advance_dlar, State.pointAt_dlar_other _ hra, State.acquire_label hu hra]
  | stores ty hq ha hu =>
    have hra : r ≠ _ := fun h => hr (h ▸ hq)
    rw [State.advance_dlar, State.relabel_dlar_other _ hra, State.stage_label hu]

/-- Settles O23: a write of data and a write-back keep every label; the last act of a load or store labels its `dA`. -/
theorem onlyLoadsAndStoresRepointADataLar : Obligations.OnlyLoadsAndStoresRepointADataLar :=
  fun _ _ _ _ h hr => DataLar.fields_of_label_eq ((exec_effect h).label hr)

/-! ## Lane counts -/

/-- An instruction whose lane sources do not have the lane count of its destination stops, once its operands have been
checked; only the vector schemes have lane sources (40_alu.md R114). -/
theorem exec_mismatch {i : Instr} {s : State} {a : Reg} (hd : i.dest = some a)
    (hu : s.untaggedOperand i.operands = none) (hl : ¬ s.sameLanes a i.laneSources) :
    exec i s = .fault .vectorLaneCountMismatch := by
  cases i with
  | addv | subv | sltv | mulv | andv | orrv | xorv | shlv | shrv =>
    cases hd
    exact vectorBinary_mismatch hu hl
  | divv =>
    cases hd
    rw [← State.takeDraws_untaggedOperand s a 32] at hu
    rw [← State.takeDraws_sameLanes s a 32] at hl
    exact vectorBinary_mismatch hu hl
  | invv | notv =>
    cases hd
    exact vectorUnary_mismatch hu hl
  | _ => exact absurd (List.forall_mem_nil _) hl

/-- Settles O29: each of the twelve is an instruction of a vector scheme. -/
theorem vectorLaneCountMismatchStops : Obligations.VectorLaneCountMismatchStops := by
  refine ⟨fun i hi s a b c hu hl => ?_, fun i hi s a b hu hl => ?_⟩
  · simp only [List.mem_cons, List.not_mem_nil, or_false] at hi
    rcases hi with rfl | rfl | rfl | rfl | rfl | rfl | rfl | rfl | rfl | rfl <;> exact exec_mismatch rfl hu hl
  · simp only [List.mem_cons, List.not_mem_nil, or_false] at hi
    rcases hi with rfl | rfl <;> exact exec_mismatch rfl hu hl

end Machine
end Sys2Proof
end

section
/-!
The cast (40_alu.md R111), and with it the scalar instructions but the sums: their results in the words of the rules
(R124 to R142, the even ones) (the statements O31, O34 to O42).
-/

namespace Sys2Proof.Machine

/-! ## Numbers of a width -/

theorem LaneType.two_pow_width_eq (t : LaneType) : 2 ^ t.width = 2 * 2 ^ (t.width - 1) := by
  rw [← Nat.pow_succ', Nat.succ_eq_add_one, Nat.sub_add_cancel t.width_pos]

/-- The lane width does not depend on the signedness. -/
theorem LaneType.width_int (z : IntSize) (g g' : Bool) : (LaneType.int z g).width = (LaneType.int z g').width := by
  cases z <;> rfl

theorem sval_of_lt {n p : Nat} (h : p < 2 ^ (n - 1)) : sval n p = p := if_pos h

theorem sval_of_ge {n p : Nat} (h : 2 ^ (n - 1) ≤ p) : sval n p = (p : Int) - (2 ^ n : Nat) := if_neg (not_lt.mpr h)

theorem trunc_of_lt {n p : Nat} (h : p < 2 ^ n) : trunc n p = p := by rw [trunc_natCast, Nat.mod_eq_of_lt h]

/-- Subtracting `2^m` does not show in the bits below bit `m`. -/
theorem trunc_sub_two_pow {n m : Nat} (h : n ≤ m) (x : Int) : trunc n (x - (2 ^ m : Nat)) = trunc n x := by
  obtain ⟨k, rfl⟩ := Nat.exists_eq_add_of_le h
  rw [trunc, trunc, Nat.pow_add, Nat.cast_mul, Int.sub_mul_emod_self_left]

theorem trunc_eq_of_add {n p : Nat} {x : Int} (h : x + (2 ^ n : Nat) = p) (hp : p < 2 ^ n) : trunc n x = p := by
  rw [← trunc_of_lt hp, ← h, trunc, trunc, Int.add_emod_right]

/-! ## Casts -/

/-- A pattern whose top bit is clear has one value, signed or not. -/
theorem LaneType.value_of_lt {z : IntSize} (g : Bool) {v : Nat} (h : v < 2 ^ ((LaneType.int z g).width - 1)) :
    (LaneType.int z g).value v = v := by
  cases g with
  | false => rfl
  | true => exact sval_of_lt h

/-- The cast between integer types (40_alu.md R111): the low bits, or an extension by the source's signedness. -/
theorem cast_int (zd zs : IntSize) (gd gs : Bool) {v : Nat} (hv : v < 2 ^ (LaneType.int zs gs).width) :
    cast (.int zd gd) (.int zs gs) v =
      if (LaneType.int zd gd).width ≤ (LaneType.int zs gs).width then v % 2 ^ (LaneType.int zd gd).width
      else if gs = true ∧ 2 ^ ((LaneType.int zs gs).width - 1) ≤ v then
        v + 2 ^ (LaneType.int zd gd).width - 2 ^ (LaneType.int zs gs).width
      else v := by
  have hcast : cast (.int zd gd) (.int zs gs) v =
      trunc (LaneType.int zd gd).width ((LaneType.int zs gs).value v) := rfl
  rw [hcast]
  by_cases hneg : gs = true ∧ 2 ^ ((LaneType.int zs gs).width - 1) ≤ v
  · obtain ⟨rfl, htop⟩ := hneg
    rw [LaneType.value_signed, sval_of_ge htop]
    split
    · next hle => rw [trunc_sub_two_pow hle, trunc_natCast]
    · next hle =>
      have hpow := Nat.pow_lt_pow_right (a := 2) (by norm_num) (not_le.mp hle)
      rw [if_pos ⟨rfl, htop⟩]
      exact trunc_eq_of_add (by omega) (by omega)
  · have hval : (LaneType.int zs gs).value v = v := by
      cases gs with
      | false => rfl
      | true => exact LaneType.value_of_lt true (not_le.mp fun h => hneg ⟨rfl, h⟩)
    rw [hval, trunc_natCast, if_neg hneg]
    split
    · rfl
    · next hle =>
      have hpow := Nat.pow_lt_pow_right (a := 2) (by norm_num) (not_le.mp hle)
      exact Nat.mod_eq_of_lt (hv.trans hpow)

/-- Settles O31: the cast between integers is the truncation of the source's value, and the others are `cfg`'s. -/
theorem castExtendsByTheSource : Obligations.CastExtendsByTheSource := by
  refine ⟨fun zd zs gd gs v => cast_int zd zs gd gs, fun v => rfl, fun zs v hv => ⟨rfl, ?_⟩, fun zd gd v => rfl⟩
  have hcast : cast .f16 (.int zs true) v = (Config.bf16OfInt (sval (LaneType.int zs true).width v)).toNat := rfl
  have hw := (LaneType.int zs true).two_pow_width_eq
  rw [hcast]
  split
  · rw [sval_of_lt (by omega)]
  · rw [sval_of_ge (by omega), Nat.cast_pow, Nat.cast_ofNat]

/-! ## Where a scalar instruction completes -/

/-- A scalar instruction with two sources that draws no free value completes and writes the result of its operation. -/
theorem scalarBinary_writes_undrawn {view : LaneType → LaneType}
    {op : LaneType → LaneType → LaneType → Nat → Nat → Nat} {a b c : Reg} {s : State} (ha : a ≠ 0)
    (hu : s.untaggedOperand [a, b, c] = none) {r : Nat}
    (hr : op (view (s.type a)) (view (s.type b)) (view (s.type c)) (s.sdata b) (s.sdata c) = r)
    (hlt : op (view (s.type a)) (view (s.type b)) (view (s.type c)) (s.sdata b) (s.sdata c) < 2 ^ (s.type a).width) :
    ∃ t, scalarBinary view op a b c s = .next t ∧ ScalarWritten s t a 0 r := by
  have hw := scalarBinary_writes ha hu 0 hr hlt
  rwa [State.takeDraws_zero] at hw

/-- A cast source of a bitwise operation is a pattern of the width of the destination (40_alu.md R115). -/
theorem State.castScalarBits_lt (s : State) (a b : Reg) : s.castScalarBits a b < 2 ^ (s.type a).width := by
  have hb := s.sdata_lt b
  rw [← LaneType.asBits_width] at hb ⊢
  exact cast_lt hb

/-! ## slts and muls -/

/-- Settles O34: the scalar scheme, with the comparison in the words of R124. -/
theorem sltsResult : Obligations.SltsResult := fun _ _ _ _ ha hu =>
  scalarBinary_writes_undrawn ha hu (sltLane_eq ..) (sltLane_lt ..)

/-- The reading that does not bear on the operands: `mul` of the cast sources (40_alu.md R126). -/
theorem mulOperation_of_source {reading : MulWidenSign} {td tb tc : LaneType}
    (h : reading = .source ∨ widening td tb tc = false) (vb vc : Nat) :
    mulOperation reading td tb tc vb vc = castBoth mulLane td tb tc vb vc := by
  rcases h with rfl | h
  · rfl
  · cases reading <;> simp only [mulOperation, h]

theorem widening_int (zd zb zc : IntSize) (gd gb gc : Bool) :
    widening (.int zd gd) (.int zb gb) (.int zc gc) = true ↔
      (LaneType.int zb gb).width < (LaneType.int zd gd).width ∧
      (LaneType.int zc gc).width < (LaneType.int zd gd).width := by
  rw [widening, Bool.and_eq_true, decide_eq_true_iff, decide_eq_true_iff]

/-- The operands that can widen are three integers. -/
theorem widening_cases {td tb tc : LaneType} (h : widening td tb tc = true) :
    ∃ zd gd zb gb zc gc, td = .int zd gd ∧ tb = .int zb gb ∧ tc = .int zc gc := by
  rcases td with ⟨zd, gd⟩ | _
  · rcases tb with ⟨zb, gb⟩ | _
    · rcases tc with ⟨zc, gc⟩ | _
      · exact ⟨zd, gd, zb, gb, zc, gc, rfl, rfl, rfl⟩
      · cases h
    · cases h
  · cases h

/-- Under `MUL_WIDEN_SIGN` = `dest` a widening extends both sources by the destination's signedness (40_alu.md R126). -/
theorem mulOperation_of_dest {zd zb zc : IntSize} {gd gb gc : Bool}
    (h : widening (.int zd gd) (.int zb gb) (.int zc gc) = true) (vb vc : Nat) :
    mulOperation .dest (.int zd gd) (.int zb gb) (.int zc gc) vb vc =
      castBoth mulLane (.int zd gd) (.int zb gd) (.int zc gd) vb vc := by
  simp only [mulOperation, h, LaneType.withSignOf]

/-- Settles O35: the scalar scheme, with the reading of the note that applies. -/
theorem mulsResult : Obligations.MulsResult := by
  refine fun s a b c ha hu => ⟨fun h => ?_, fun zd gd zb gb zc gc hm hta htb htc hwb hwc => ?_⟩
  · exact scalarBinary_writes_undrawn ha hu ((mulOperation_of_source h _ _).trans (mulLane_eq ..))
      (mulOperation_lt ..)
  · refine scalarBinary_writes_undrawn ha hu ?_ (mulOperation_lt ..)
    rw [hta, htb] at hwb
    rw [hta, htc] at hwc
    rw [hm, id, id, id, hta, htb, htc, mulOperation_of_dest ((widening_int ..).mpr ⟨hwb, hwc⟩)]
    exact mulLane_eq ..

/-- A source of the destination's signedness, or whose top bit is clear, is extended alike by its own signedness and by
the destination's. -/
theorem cast_of_sign_irrelevant (zd zs : IntSize) {gd gs : Bool} {v : Nat}
    (h : ¬(gs ≠ gd ∧ 2 ^ ((LaneType.int zs gs).width - 1) ≤ v)) :
    cast (.int zd gd) (.int zs gs) v = cast (.int zd gd) (.int zs gd) v := by
  by_cases hg : gs = gd
  · rw [hg]
  · have hv : v < 2 ^ ((LaneType.int zs gs).width - 1) := not_le.mp fun hle => h ⟨hg, hle⟩
    have hvd : v < 2 ^ ((LaneType.int zs gd).width - 1) := by rwa [LaneType.width_int zs gd gs]
    exact congrArg (trunc _) ((LaneType.value_of_lt gs hv).trans (LaneType.value_of_lt gd hvd).symm)

/-- Settles O36: outside a widening the readings are one; in a widening they differ where an extension does. -/
theorem mulReadingsAgreeOutsideTheBand : Obligations.MulReadingsAgreeOutsideTheBand := by
  intro td tb tc vb vc _ _
  cases hw : widening td tb tc with
  | false => exact Or.inl ((mulOperation_of_source (.inl rfl) ..).trans (mulOperation_of_source (.inr hw) ..).symm)
  | true =>
    obtain ⟨zd, gd, zb, gb, zc, gc, rfl, rfl, rfl⟩ := widening_cases hw
    obtain ⟨hwb, hwc⟩ := (widening_int ..).mp hw
    refine or_iff_not_imp_right.mpr fun hband => ?_
    have hb := cast_of_sign_irrelevant zd zb fun h =>
      hband ⟨zd, gd, zb, gb, zc, gc, rfl, rfl, rfl, hwb, hwc, .inl h⟩
    have hc := cast_of_sign_irrelevant zd zc fun h =>
      hband ⟨zd, gd, zb, gb, zc, gc, rfl, rfl, rfl, hwb, hwc, .inr h⟩
    rw [mulOperation_of_source (.inl rfl), mulOperation_of_dest hw, castBoth, castBoth, hb, hc]

/-! ## divs -/

/-- Settles O37: the scalar scheme with one draw, and the quotient in the words of R128. -/
theorem divsResult : Obligations.DivsResult := fun s a b _ ha hu =>
  scalarBinary_writes ha hu 1 (divLane_eq _ _ _ _ (s.castScalar_lt a b)) (divLane_lt ..)

/-- The pattern `2^W - x` has the value `-x` (00_scope.md R9). -/
theorem sval_two_pow_sub (t : LaneType) {x : Nat} (h0 : 0 < x) (hx : x ≤ 2 ^ (t.width - 1)) :
    sval t.width (2 ^ t.width - x) = -(x : Int) := by
  have hw := t.two_pow_width_eq
  rw [sval_of_ge (by omega)]
  omega

theorem sval_neg (t : LaneType) {x : Nat} (hx : x < 2 ^ (t.width - 1)) :
    sval t.width ((2 ^ t.width - x) % 2 ^ t.width) = -(x : Int) := by
  rcases Nat.eq_zero_or_pos x with rfl | h0
  · rw [Nat.sub_zero, Nat.mod_self, sval_of_lt hx]
    rfl
  · have hw := t.two_pow_width_eq
    rw [Nat.mod_eq_of_lt (by omega), sval_two_pow_sub t h0 hx.le]

/-- The pattern of a negative number. -/
theorem trunc_neg {n q : Nat} (hq : q ≤ 2 ^ n) : trunc n (-(q : Int)) = (2 ^ n - q) % 2 ^ n := by
  rw [← trunc_natCast, Nat.cast_sub hq, trunc, trunc, sub_eq_neg_add, Int.add_emod_right]

theorem divLane_signed (draw : Nat) (z : IntSize) (x : Nat) {y : Nat} (hy : y ≠ 0) :
    divLane draw (.int z true) x y = trunc (LaneType.int z true).width
      ((sval (LaneType.int z true).width x).tdiv (sval (LaneType.int z true).width y)) := by
  rw [divLane, if_neg hy]
  rfl

/-- The most negative number divided by -1 is itself (40_alu.md R128). -/
theorem divLane_min_neg_one (draw : Nat) (z : IntSize) :
    divLane draw (.int z true) (2 ^ ((LaneType.int z true).width - 1)) (2 ^ (LaneType.int z true).width - 1) =
      2 ^ ((LaneType.int z true).width - 1) := by
  have hw := (LaneType.int z true).two_pow_width_eq
  have hpos : 0 < 2 ^ ((LaneType.int z true).width - 1) := by positivity
  have hmin := sval_two_pow_sub (.int z true) hpos le_rfl
  rw [Nat.sub_eq_of_eq_add (hw.trans (Nat.two_mul _))] at hmin
  rw [divLane_signed _ _ _ (by omega), hmin, sval_two_pow_sub (.int z true) one_pos hpos, Nat.cast_one,
    Int.neg_tdiv_neg, Int.tdiv_one, trunc_of_lt (by omega)]

/-- Settles O38: negated patterns have negated values, and `tdiv` moves a sign out of the quotient. -/
theorem signedDivisionCorners : Obligations.SignedDivisionCorners := by
  rintro z draw W rfl
  refine ⟨divLane_min_neg_one draw z, fun x y hx h0 hy => ?_⟩
  have hw := (LaneType.int z true).two_pow_width_eq
  have hq : x / y ≤ x := Nat.div_le_self x y
  have hxy : (x : Int).tdiv y = (x / y : Nat) := (Int.ofNat_tdiv x y).symm
  have hsx := sval_neg (.int z true) hx
  have hsy := sval_two_pow_sub (.int z true) h0 hy.le
  refine ⟨?_, ?_, ?_, ?_⟩
  · rw [divLane_signed _ _ _ h0.ne', sval_of_lt hx, sval_of_lt hy, hxy, trunc_of_lt (by omega)]
  · rw [divLane_signed _ _ _ h0.ne', hsx, sval_of_lt hy, Int.neg_tdiv, hxy, trunc_neg (by omega)]
  · rw [divLane_signed _ _ _ (by omega), sval_of_lt hx, hsy, Int.tdiv_neg, hxy, trunc_neg (by omega)]
  · rw [divLane_signed _ _ _ (by omega), hsx, hsy, Int.neg_tdiv_neg, hxy, trunc_of_lt (by omega)]

/-! ## The bitwise operations and nots -/

/-- Settles O39: the scalar scheme on bits; each operation keeps within the width. -/
theorem andsOrrsXorsResult : Obligations.AndsOrrsXorsResult := fun s a b c ha hu =>
  ⟨scalarBinary_writes_undrawn ha hu rfl (Nat.and_lt_two_pow _ (s.castScalarBits_lt a c)),
    scalarBinary_writes_undrawn ha hu rfl (Nat.or_lt_two_pow (s.castScalarBits_lt a b) (s.castScalarBits_lt a c)),
    scalarBinary_writes_undrawn ha hu rfl (Nat.xor_lt_two_pow (s.castScalarBits_lt a b) (s.castScalarBits_lt a c))⟩

theorem shlLane_asBits (t : LaneType) (x n : Nat) : shlLane t.asBits x n = x * 2 ^ n % 2 ^ t.width := by
  rw [shlLane_eq, LaneType.asBits_width]

theorem shlLane_asBits_lt (t : LaneType) (x n : Nat) : shlLane t.asBits x n < 2 ^ t.width := by
  rw [← LaneType.asBits_width]
  exact shlLane_lt _ x n

/-- Settles O40: the scalar scheme on bits, with the shift in the words of R136. -/
theorem shlsResult : Obligations.ShlsResult := fun _ _ _ _ ha hu =>
  scalarBinary_writes_undrawn ha hu (shlLane_asBits ..) (shlLane_asBits_lt ..)

/-- `shr` in the words of R138, for every amount. -/
theorem shrOperation_eq (td tb tc : LaneType) (vb vc : Nat) : vb < 2 ^ tb.width → shrOperation td tb tc vb vc =
      match tb with
      | .int _ false => cast td tb vb / 2 ^ cast td tc.asUnsigned vc
      | _ => trunc td.width (sval td.width (cast td tb vb) / (2 ^ cast td tc.asUnsigned vc : Nat)) := by
  intro hb
  rcases tb with ⟨z, _ | _⟩ | _
  · exact shrLogical_eq (cast_lt hb) _
  · exact shrArithmetic_eq (cast_lt hb) _
  · exact shrArithmetic_eq (cast_lt hb) _

theorem shrOperation_asBits (td tb tc : LaneType) (vb vc : Nat) : vb < 2 ^ tb.width →
    shrOperation td.asBits tb.asBits tc.asBits vb vc =
      match tb.asBits with
      | .int _ false => cast td.asBits tb.asBits vb / 2 ^ cast td.asBits tc.asBits.asUnsigned vc
      | _ => trunc td.width (sval td.width (cast td.asBits tb.asBits vb) /
          (2 ^ cast td.asBits tc.asBits.asUnsigned vc : Nat)) := by
  intro hb
  rw [← LaneType.asBits_width tb] at hb
  rw [shrOperation_eq _ _ _ _ _ hb, LaneType.asBits_width]

theorem shrOperation_asBits_lt (td tb tc : LaneType) {vb : Nat} (vc : Nat) (hb : vb < 2 ^ tb.width) :
    shrOperation td.asBits tb.asBits tc.asBits vb vc < 2 ^ td.width := by
  rw [← LaneType.asBits_width] at hb ⊢
  exact shrOperation_lt _ vc hb

/-- Settles O41: the scalar scheme on bits, with the shift in the words of R138. -/
theorem shrsResult : Obligations.ShrsResult := fun s _ b _ ha hu =>
  scalarBinary_writes_undrawn ha hu (shrOperation_asBits _ _ _ _ _ (s.sdata_lt b))
    (shrOperation_asBits_lt _ _ _ _ (s.sdata_lt b))

theorem invLane_asBits (t : LaneType) {x : Nat} (hx : x < 2 ^ t.width) : invLane t.asBits x = 2 ^ t.width - 1 - x := by
  rw [invLane_eq _ (by rwa [LaneType.asBits_width]), LaneType.asBits_width]

theorem invLane_asBits_lt (t : LaneType) (x : Nat) : invLane t.asBits x < 2 ^ t.width := by
  rw [← LaneType.asBits_width]
  exact invLane_lt _ x

/-- Settles O42: the scalar scheme with one source. -/
theorem invsAndNotsResult : Obligations.InvsAndNotsResult := fun s a b ha hu =>
  ⟨scalarUnary_writes ha hu (invLane_asBits _ (s.castScalarBits_lt a b)) (invLane_asBits_lt ..),
    scalarUnary_writes ha hu (notLane_eq ..) (notLane_lt ..)⟩

end Sys2Proof.Machine
end

section
/-!
The vector instructions: their lanes in the words of the rules (40_alu.md R121 to R143, the odd ones), and the bitwise
ones as operations on the whole data field (the statements O44 to O48).
-/

namespace Sys2Proof.Machine

/-! ## Lane by lane -/

/-- A vector instruction with two sources that draws no free value completes and writes the result of its operation to
every lane. -/
theorem vectorBinary_writes_undrawn {view : LaneType → LaneType}
    {op : LaneType → LaneType → LaneType → Nat → Nat → Nat} {a b c : Reg} {s : State} (ha : a ≠ 0)
    (hu : s.untaggedOperand [a, b, c] = none) (hl : s.sameLanes a [b, c]) {r : Nat → Nat}
    (hr : ∀ k, op (view (s.type a)) (view (s.type b)) (view (s.type c)) (s.lane b k) (s.lane c k) = r k)
    (hlt : ∀ k, op (view (s.type a)) (view (s.type b)) (view (s.type c)) (s.lane b k) (s.lane c k) <
      2 ^ (s.type a).width) :
    ∃ t, vectorBinary view (fun _ => op) a b c s = .next t ∧ LanesWritten s t a 0 r := by
  have hw := vectorBinary_writes (op := fun _ => op) ha hu hl 0 hr hlt
  rwa [State.takeDraws_zero] at hw

theorem State.castLane_lt (s : State) (a b : Reg) (k : Nat) : s.castLane a b k < 2 ^ (s.type a).width :=
  cast_lt (s.lane_lt b k)

/-- Settles O44: the vector scheme, with the lane functions in the words of the rules. -/
theorem addvSubvMulvResult : Obligations.AddvSubvMulvResult := fun s a _ c ha hu hl =>
  ⟨vectorBinary_writes_undrawn ha hu hl (fun _ => addLane_eq ..) fun _ => addLane_lt ..,
    vectorBinary_writes_undrawn ha hu hl (fun k => subLane_eq _ _ _ (s.castLane_lt a c k)) fun _ => subLane_lt ..,
    vectorBinary_writes_undrawn ha hu hl (fun _ => mulLane_eq ..) fun _ => mulLane_lt ..⟩

/-- Settles O45: the vector schemes, with the comparison of R124 and the zero test of R142. -/
theorem sltvAndNotvResult : Obligations.SltvAndNotvResult :=
  ⟨fun _ _ _ _ ha hu hl => vectorBinary_writes_undrawn ha hu hl (fun _ => sltLane_eq ..) fun _ => sltLane_lt ..,
    fun _ _ _ ha hu hl => vectorUnary_writes ha hu hl (fun _ => notLane_eq ..) fun _ => notLane_lt ..⟩

/-- Settles O46: the vector scheme with 32 draws, lane `k` with the draw of its own number. -/
theorem divvResult : Obligations.DivvResult := fun s a b _ ha hu hl =>
  vectorBinary_writes ha hu hl 32 (fun k => divLane_eq _ _ _ _ (s.castLane_lt a b k)) fun _ => divLane_lt ..

/-- Settles O48: the vector scheme on bits, with the shifts in the words of R136 and R138. -/
theorem shlvAndShrvResult : Obligations.ShlvAndShrvResult := fun s _ b _ ha hu hl =>
  ⟨vectorBinary_writes_undrawn ha hu hl (fun _ => shlLane_asBits ..) fun _ => shlLane_asBits_lt ..,
    vectorBinary_writes_undrawn ha hu hl (fun k => shrOperation_asBits _ _ _ _ _ (s.lane_lt b k))
      fun k => shrOperation_asBits_lt _ _ _ _ (s.lane_lt b k)⟩

/-! ## Bytes and bits -/

theorem byteOf_getLsbD (x j i : Nat) : (byteOf x j).getLsbD i = (decide (i < 8) && x.testBit (8 * j + i)) := by
  have hpow : (256 : Nat) ^ j = 2 ^ (8 * j) := by
    rw [pow_mul]
    norm_num
  rw [byteOf, BitVec.getLsbD_ofNat, hpow, Nat.testBit_div_two_pow, Nat.add_comm i]

theorem byteOf_and (x y j : Nat) : byteOf (x &&& y) j = byteOf x j &&& byteOf y j :=
  BitVec.eq_of_getLsbD_eq fun i hi => by
    simp only [BitVec.getLsbD_and, byteOf_getLsbD, Nat.testBit_and, hi, decide_true, Bool.true_and]

theorem byteOf_or (x y j : Nat) : byteOf (x ||| y) j = byteOf x j ||| byteOf y j :=
  BitVec.eq_of_getLsbD_eq fun i hi => by
    simp only [BitVec.getLsbD_or, byteOf_getLsbD, Nat.testBit_or, hi, decide_true, Bool.true_and]

theorem byteOf_xor (x y j : Nat) : byteOf (x ^^^ y) j = byteOf x j ^^^ byteOf y j :=
  BitVec.eq_of_getLsbD_eq fun i hi => by
    simp only [BitVec.getLsbD_xor, byteOf_getLsbD, Nat.testBit_xor, hi, decide_true, Bool.true_and]

/-- Flipping every bit of a pattern of `n` bytes flips every bit of each of them. -/
theorem byteOf_not {x n j : Nat} (hx : x < 2 ^ (8 * n)) (hj : j < n) :
    byteOf (2 ^ (8 * n) - 1 - x) j = ~~~byteOf x j := by
  refine BitVec.eq_of_getLsbD_eq fun i hi => ?_
  have hin : 8 * j + i < 8 * n := by omega
  rw [byteOf_getLsbD, BitVec.getLsbD_not, byteOf_getLsbD, Nat.sub_sub, Nat.add_comm 1 x,
    Nat.testBit_two_pow_sub_succ hx]
  simp [hi, hin]

theorem lineByte_and (u v : Line) (j : Nat) : lineByte (u &&& v) j = lineByte u j &&& lineByte v j :=
  (congrArg (byteOf · j) (BitVec.toNat_and ..)).trans (byteOf_and ..)

theorem lineByte_or (u v : Line) (j : Nat) : lineByte (u ||| v) j = lineByte u j ||| lineByte v j :=
  (congrArg (byteOf · j) (BitVec.toNat_or ..)).trans (byteOf_or ..)

theorem lineByte_xor (u v : Line) (j : Nat) : lineByte (u ^^^ v) j = lineByte u j ^^^ lineByte v j :=
  (congrArg (byteOf · j) (BitVec.toNat_xor ..)).trans (byteOf_xor ..)

theorem lineByte_not (v : Line) {j : Nat} (hj : j < 32) : lineByte (~~~v) j = ~~~lineByte v j := by
  rw [lineByte, BitVec.toNat_not]
  exact byteOf_not (n := 32) v.isLt hj

/-! ## The whole data field -/

/-- A data field made of lanes is the one whose bytes are theirs. -/
theorem lineOfLanes_eq {e : Endian} {w : Nat} {r : Nat → Nat} {v : Line} (hw : 0 < w)
    (H : ∀ k j, j < w → k * w + bytePos e w j < 32 → byteOf (r k) j = lineByte v (k * w + bytePos e w j)) :
    lineOfLanes e w r = v := by
  refine line_ext fun j hj => ?_
  have hlt := Nat.mod_lt j hw
  have hpos := bytePos_bytePos e hlt
  have hsum := Nat.div_add_mod' j w
  rw [lineByte_lineOfLanes _ _ _ hj, patternByte, H _ _ (bytePos_lt e hlt) (by rwa [hpos, hsum]), hpos, hsum]

theorem byteOf_laneOf (e : Endian) {w : Nat} (v : Line) (k : Nat) {j : Nat} (hj : j < w) :
    byteOf (laneOf e w v k) j = lineByte v (k * w + bytePos e w j) := byteOf_gather _ hj

theorem LaneType.bytes_eq_div_lanes (t : LaneType) : t.bytes = 32 / t.lanes := by
  rcases t with ⟨_ | _ | _ | _, _⟩ | _ <;> norm_num [LaneType.lanes, LaneType.bytes]

/-- Types of one lane count have one lane width. -/
theorem LaneType.bytes_eq_of_lanes_eq {t u : LaneType} (h : t.lanes = u.lanes) : t.bytes = u.bytes := by
  rw [t.bytes_eq_div_lanes, h, u.bytes_eq_div_lanes]

/-- A bitwise operation reads every type as an integer type of its width (40_alu.md R115). -/
theorem LaneType.asBits_eq_int (t : LaneType) : ∃ z g, t.asBits = .int z g ∧ (LaneType.int z g).width = t.width := by
  rcases t with ⟨z, g⟩ | _
  · exact ⟨z, g, rfl, rfl⟩
  · exact ⟨.b16, true, rfl, rfl⟩

/-- Between integer types of one width the cast keeps the pattern (40_alu.md R111). -/
theorem cast_asBits_of_width_eq {td ts : LaneType} (h : td.width = ts.width) {v : Nat} (hv : v < 2 ^ ts.width) :
    cast td.asBits ts.asBits v = v := by
  obtain ⟨zd, gd, hd, hwd⟩ := td.asBits_eq_int
  obtain ⟨zs, gs, hs, hws⟩ := ts.asBits_eq_int
  rw [← hws] at hv h
  rw [hd, hs, cast_int zd zs gd gs hv, hwd, if_pos h.le, h, Nat.mod_eq_of_lt hv]

/-- With equal lane counts a bitwise operation has the lanes of its sources as they stand (40_alu.md R114, R115). -/
theorem cast_lane_of_lanes_eq {s : State} {a b : Reg} (h : (s.type b).lanes = (s.type a).lanes) (k : Nat) :
    cast (s.type a).asBits (s.type b).asBits (s.lane b k) =
      laneOf s.params.endian (s.type a).bytes (s.dlar b).data k := by
  have hbytes := LaneType.bytes_eq_of_lanes_eq h
  have hwidth : (s.type a).width = (s.type b).width := by rw [LaneType.width, LaneType.width, hbytes]
  rw [cast_asBits_of_width_eq hwidth (s.lane_lt b k), State.lane, hbytes]

/-- Lanes whose bytes are those of `v` make `v` the data of the Data LAR they are written to. -/
theorem State.writeLanes_whole {s : State} {a : Reg} (ha : a ≠ 0) {r : Nat → Nat} {v : Line}
    (H : ∀ k j, j < (s.type a).bytes → k * (s.type a).bytes + bytePos s.params.endian (s.type a).bytes j < 32 →
      byteOf (r k) j = lineByte v (k * (s.type a).bytes + bytePos s.params.endian (s.type a).bytes j)) :
    DataWritten s (s.writeLanes a r).advance a 0 ∧ ((s.writeLanes a r).advance.dlar a).data = v := by
  have hw := dataWritten_setData s ha v 0
  rw [State.takeDraws_zero] at hw
  rw [State.writeLanes, lineOfLanes_eq (s.type a).bytes_pos H]
  exact ⟨hw, State.setData_data_self s ha v⟩

section Whole

variable {s : State} {a b c : Reg} (ha : a ≠ 0)
include ha

/-- A vector instruction whose operation acts on the bytes of the two patterns acts on the two data fields. -/
theorem vectorBinary_whole {op : Nat → Nat → Nat} {f : Byte → Byte → Byte} {v : Line}
    (hu : s.untaggedOperand [a, b, c] = none) (hl : s.sameLanes a [b, c])
    (hop : ∀ x y j, byteOf (op x y) j = f (byteOf x j) (byteOf y j))
    (hv : ∀ j, lineByte v j = f (lineByte (s.dlar b).data j) (lineByte (s.dlar c).data j)) :
    ∃ t, vectorBinary LaneType.asBits (fun _ => castBoth fun _ => op) a b c s = .next t ∧ DataWritten s t a 0 ∧
      (t.dlar a).data = v := by
  have hn := vectorBinary_next (view := LaneType.asBits) (op := fun _ => castBoth fun _ => op) hu hl 0
  rw [State.takeDraws_zero] at hn
  refine ⟨_, hn, State.writeLanes_whole ha fun k j hj _ => ?_⟩
  have hb := cast_lane_of_lanes_eq (hl b List.mem_cons_self) k
  have hc := cast_lane_of_lanes_eq (hl c (by simp)) k
  rw [castBoth, hb, hc, hop, byteOf_laneOf _ _ _ hj, byteOf_laneOf _ _ _ hj, hv]

theorem invv_whole (hu : s.untaggedOperand [a, b] = none) (hl : s.sameLanes a [b]) :
    ∃ t, exec (.invv a b) s = .next t ∧ DataWritten s t a 0 ∧ (t.dlar a).data = ~~~(s.dlar b).data := by
  refine ⟨_, vectorUnary_next hu hl, State.writeLanes_whole ha fun k j hj hk => ?_⟩
  have hb := cast_lane_of_lanes_eq (hl b List.mem_cons_self) k
  have hlt : laneOf s.params.endian (s.type a).bytes (s.dlar b).data k < 2 ^ (s.type a).width := by
    rw [LaneType.two_pow_width]
    exact laneOf_lt ..
  rw [castOne, hb, invLane_asBits _ hlt, LaneType.width, byteOf_not hlt hj, byteOf_laneOf _ _ _ hj, lineByte_not _ hk]

end Whole

/-- Fewer operands stop an instruction no sooner. -/
theorem State.untaggedOperand_of_subset {s : State} {l l' : List Reg} (h : l' ⊆ l) (hu : s.untaggedOperand l = none) :
    s.untaggedOperand l' = none := by
  cases hon : s.params.untaggedStops with
  | false => exact State.untaggedOperand_off hon l'
  | true =>
    rw [State.untaggedOperand_on hon, List.find?_eq_none] at hu ⊢
    exact fun i hi => hu i (h hi)

/-- Settles O47: lanes of equal width are read and written in the same bytes, and the operations act byte by byte. -/
theorem bitwiseVectorsActOnTheWholeField : Obligations.BitwiseVectorsActOnTheWholeField := fun s a b c ha hu hl =>
  ⟨vectorBinary_whole ha hu hl byteOf_and fun _ => lineByte_and ..,
    vectorBinary_whole ha hu hl byteOf_or fun _ => lineByte_or ..,
    vectorBinary_whole ha hu hl byteOf_xor fun _ => lineByte_xor ..,
    invv_whole ha (State.untaggedOperand_of_subset (by simp) hu)
      (List.forall_mem_singleton.mpr (hl b List.mem_cons_self))⟩

end Sys2Proof.Machine
end

section
/-!
The jump to a scalar (41_control.md R163) (the statement O52).
-/

namespace Sys2Proof.Machine

/-- A jump whose operand does not stop it moves `pc` to the extended scalar, and nothing else. -/
theorem exec_jmp_next {s : State} {a : Reg} (hu : s.untaggedOperand [a] = none) :
    exec (.jmp a) s = .next (s.setPc (s.ext64 a)) := State.checked_of_none hu _

/-- Settles O52: the target is `ext64`, whose value each kind of tag gives (42_load.md R171). -/
theorem jmpGoesToTheScalar : Obligations.JmpGoesToTheScalar := fun s a hu =>
  ⟨s.ext64 a, exec_jmp_next hu, fun _ => State.ext64_unsigned, fun _ => State.ext64_signed, State.ext64_of_f16⟩

end Sys2Proof.Machine
end

section
/-!
The extension of an index by its tag, as values (42_load.md R171) (the statement O59).
-/

namespace Sys2Proof.Machine

/-- The sign-extended scalar is the two's-complement value of its bits (42_load.md R171). -/
theorem State.ext64_signed_toInt {s : State} {c : Reg} {z : IntSize} (h : s.type c = .int z true) :
    (s.ext64 c).toInt =
      if 2 * s.sdata c < 2 ^ (s.type c).width then (s.sdata c : Int) else (s.sdata c : Int) - 2 ^ (s.type c).width := by
  have hlt := s.sdata_lt c
  rw [h] at hlt ⊢
  rw [State.ext64_signed h, BitVec.toInt_signExtend_of_le (LaneType.width_le _), BitVec.toInt_eq_toNat_cond,
    BitVec.toNat_ofNat, Nat.mod_eq_of_lt hlt, Nat.cast_pow, Nat.cast_ofNat]

/-- Settles O59, by the three kinds of tag. -/
theorem ext64ExtendsByTheTag : Obligations.Ext64ExtendsByTheTag := fun _ _ =>
  ⟨fun _ => State.ext64_unsigned, fun _ => State.ext64_signed_toInt, State.ext64_of_f16⟩

end Sys2Proof.Machine
end
